-- ==== Sys2Proof/Word.lean ====
section
/-! DEFINITION. The word types of the CORE: the widths the spec gives its operands, registers and ports. -/

namespace Sys2Proof

/-- `u8`: a duty value, a received byte, a colour channel, one FIFO element (10_state.md R17, R20, R38). -/
abbrev Byte := BitVec 8

/-- `u16`: pixel indices and counts, `IDX_W = 16` (00_scope.md section 4). -/
abbrev U16 := BitVec 16

/-- `u32`: the millisecond clock, `TIME_W = 32` (00_scope.md section 4). -/
abbrev U32 := BitVec 32

/-- A request word `REQ` (30_encoding.md R60). -/
abbrev Req := BitVec 64

/-- A response word `RSP` (30_encoding.md R61). -/
abbrev Rsp := BitVec 32

/-- A handler identifier, an opaque 24-bit number (10_state.md R25). -/
abbrev HandlerId := BitVec 24

/-- A handler slot: `none` or one identifier (10_state.md R25). -/
abbrev Slot := Option HandlerId

end Sys2Proof
end

