-- ==== Sys2Proof/Config.lean ====
section
/-! DEFINITION. What is fixed when the hardware is built: the source's constants, the open parameters, and the one free value. -/

namespace Sys2Proof

/-! The constants of 00_scope.md section 4 and rule R5. -/

/-- `BITS_PER_PIXEL`. -/
def bitsPerPixel : Nat := 24

/-- `HALF_LEN`: duty values of one staging half. -/
def halfLen : Nat := 24

/-- `STAGING_LEN`: the two halves. -/
def stagingLen : Nat := 48

/-- `PERIOD`: counts of the waveform generator in one bit period. -/
def period : Nat := 90

/-- `DUTY_ONE` (T1H). -/
def dutyOne : Byte := 57

/-- `DUTY_ZERO` (T0H). -/
def dutyZero : Byte := 34

/-- `DUTY_RESET`. -/
def dutyReset : Byte := 0

/-- `TIMEOUT_MS`. -/
def timeoutMs : Nat := 10

/-- The three bytes of `MAGIC`: 'A', 'd', 'a'. -/
def magic1 : Byte := 0x41

/-- The second byte of `MAGIC`. -/
def magic2 : Byte := 0x64

/-- The third byte of `MAGIC`. -/
def magic3 : Byte := 0x61

/-- `CHK_CONST`. -/
def chkConst : Byte := 0x55

/-- `ELEM_BITS` of the one FIFO the system has, a FIFO of bytes (10_state.md R38). -/
def elemBits : Nat := 8

/-- The parameters the source leaves open (00_scope.md section 4, R6, R9): `N` (that is `TX_FIFO_N`), `MAX_LEDS`,
`RESET_REFILLS` and `ANNOUNCE`. State carries them so that every statement holds for all of them (log 1). -/
structure Config where
  fifoN : Nat
  maxLeds : Nat
  resetRefills : Nat
  announce : List Byte
  deriving DecidableEq, Repr

/-- The constraints of 00_scope.md section 4: `N >= 1`, `1 <= MAX_LEDS <= 65535`, `RESET_REFILLS >= 2`. -/
abbrev Config.wf (c : Config) : Prop :=
  1 ≤ c.fifoN ∧ 1 ≤ c.maxLeds ∧ c.maxLeds ≤ 65535 ∧ 2 ≤ c.resetRefills

/-- The parameters of `State.reset`: `N = 4`, `MAX_LEDS = 4`, `RESET_REFILLS = 4`, the ones 95_test_vectors.md uses
(DESIGN CHOICE, log 1), and its example announcement (PRESUMED, log 2). -/
def Config.atReset : Config :=
  { fifoN := 4, maxLeds := 4, resetRefills := 4, announce := [0x41, 0x64, 0x61, 0x0A] }

/-- The value `SYS.RESET` leaves in `FIFO.OUT`: the spec calls it unspecified (70_reset_and_hazards.md R170, R171), so it
is free; the argument is State's `freeCtr` (log 7). -/
opaque Config.freeOut : Nat → Byte

end Sys2Proof
end

