-- ==== Sys2Proof/Syntax.lean ====
section
/-! DEFINITION. The transitions as terms: one constructor of `Instr` per row of spec/opcode_table.json. -/

namespace Sys2Proof

/-- `RGBColor` (10_state.md R17). -/
structure Color where
  r : Byte
  g : Byte
  b : Byte
  deriving DecidableEq, Repr

/-- `ZERO_COLOR` (00_scope.md section 7). -/
def Color.zero : Color := { r := 0, g := 0, b := 0 }

/-- One transition of the CORE: an operation or an event of 30_encoding.md R62. -/
inductive Instr where
  | fifoInit
  | fifoClear
  | fifoPush (value : BitVec 24)
  | fifoPop
  | fifoIsEmpty
  | ledSetPix (idx : U16) (color : Color)
  | ledSetAll (count : U16) (color : Color)
  | ledGetPix (idx : U16)
  | ledRefresh (ledCount : U16)
  | ledTcPoll
  | ledSetCb (slot : Slot)
  | dmaBeat
  | irqHt
  | irqTc
  | epByte (now : U32) (byte : Byte)
  | epEdge
  | epSetCbC (slot : Slot)
  | epSetCbF (slot : Slot)
  | epGetCount
  | hpByte (now : U32) (byte : Byte)
  | hpSetCbC (slot : Slot)
  | hpSetCbF (slot : Slot)
  | hpInit
  | sysReset
  deriving DecidableEq, Repr

/-- The agents (00_scope.md R8). -/
inductive Agent where
  | prod
  | cons
  | host
  | dma
  | reload
  | rx
  | edge
  deriving DecidableEq, Repr

/-- The four blocks, and the reset input that acts on all of them (00_scope.md R1, R8; 70_reset_and_hazards.md R170). -/
inductive Block where
  | fifo
  | led
  | ep
  | hp
  | sys
  deriving DecidableEq, Repr

/-- Which agent performs the transition (00_scope.md R8, the "who" column of 30_encoding.md R62). -/
def Instr.agent : Instr → Agent
  | .fifoInit => .host
  | .fifoClear => .host
  | .fifoPush _ => .prod
  | .fifoPop => .cons
  | .fifoIsEmpty => .cons
  | .ledSetPix _ _ => .host
  | .ledSetAll _ _ => .host
  | .ledGetPix _ => .host
  | .ledRefresh _ => .host
  | .ledTcPoll => .host
  | .ledSetCb _ => .host
  | .dmaBeat => .dma
  | .irqHt => .reload
  | .irqTc => .reload
  | .epByte _ _ => .rx
  | .epEdge => .edge
  | .epSetCbC _ => .host
  | .epSetCbF _ => .host
  | .epGetCount => .host
  | .hpByte _ _ => .rx
  | .hpSetCbC _ => .host
  | .hpSetCbF _ => .host
  | .hpInit => .host
  | .sysReset => .host

/-- Which block the transition belongs to (10_state.md R10). -/
def Instr.block : Instr → Block
  | .fifoInit => .fifo
  | .fifoClear => .fifo
  | .fifoPush _ => .fifo
  | .fifoPop => .fifo
  | .fifoIsEmpty => .fifo
  | .ledSetPix _ _ => .led
  | .ledSetAll _ _ => .led
  | .ledGetPix _ => .led
  | .ledRefresh _ => .led
  | .ledTcPoll => .led
  | .ledSetCb _ => .led
  | .dmaBeat => .led
  | .irqHt => .led
  | .irqTc => .led
  | .epByte _ _ => .ep
  | .epEdge => .ep
  | .epSetCbC _ => .ep
  | .epSetCbF _ => .ep
  | .epGetCount => .ep
  | .hpByte _ _ => .hp
  | .hpSetCbC _ => .hp
  | .hpSetCbF _ => .hp
  | .hpInit => .hp
  | .sysReset => .sys

/-- An event has no requester and no response (30_encoding.md R61). -/
def Instr.isEvent (i : Instr) : Bool :=
  match i.agent with
  | .dma => true
  | .reload => true
  | .rx => true
  | .edge => true
  | .prod => false
  | .cons => false
  | .host => false

/-- Why a request word is illegal (30_encoding.md R63, R64; 93_implementation_defined.md part 2). -/
inductive Illegal where
  /-- The opcode is not in the table. -/
  | reservedOpcode (op : Byte)
  /-- A bit of `a` or `d` that the row does not name is not zero. -/
  | unusedBits (op : Byte)
  /-- `FIFO.PUSH` with `d[23:ELEM_BITS]` not zero. -/
  | elementTooWide
  /-- A `SETCB*` row with `a[0] = 0` and `d` not zero. -/
  | handlerWhereNone (op : Byte)
  deriving DecidableEq, Repr

end Sys2Proof
end

