-- ==== Sys2Proof/WellFormed.lean ====
section
/-! DEFINITION. Which transitions have a request word: the operand conditions that the types of `Instr` leave open. -/

namespace Sys2Proof

/-- The operand condition of a row (30_encoding.md R63). The widths of `idx`, `count`, `now`, the bytes and the colours, and
"`d` must be zero when `a[0] = 0`" of the `SETCB*` rows, hold by the operands' types; what is left is the condition of
`FIFO.PUSH`: the value fits `ELEM_BITS` bits. -/
def Instr.wf : Instr → Bool
  | .fifoInit => true
  | .fifoClear => true
  | .fifoPush v => decide (v.toNat < 2 ^ elemBits)
  | .fifoPop => true
  | .fifoIsEmpty => true
  | .ledSetPix _ _ => true
  | .ledSetAll _ _ => true
  | .ledGetPix _ => true
  | .ledRefresh _ => true
  | .ledTcPoll => true
  | .ledSetCb _ => true
  | .dmaBeat => true
  | .irqHt => true
  | .irqTc => true
  | .epByte _ _ => true
  | .epEdge => true
  | .epSetCbC _ => true
  | .epSetCbF _ => true
  | .epGetCount => true
  | .hpByte _ _ => true
  | .hpSetCbC _ => true
  | .hpSetCbF _ => true
  | .hpInit => true
  | .sysReset => true

end Sys2Proof
end

