-- ==== Sys2Proof/Decode.lean ====
section
/-! DEFINITION. The request word (30_encoding.md R60 to R65): the decoder, total and refusing by name, the encoder, and the
opcode table as rows of match and mask. -/

namespace Sys2Proof

/-! The fields of a request word, `op[63:56] | a[55:24] | d[23:0]` (R60). -/

/-- `op`, bits 63:56. -/
def opOf (w : Req) : Byte := w.extractLsb' 56 8

/-- `a`, bits 55:24. -/
def aOf (w : Req) : U32 := w.extractLsb' 24 32

/-- `d`, bits 23:0. -/
def dOf (w : Req) : BitVec 24 := w.extractLsb' 0 24

/-- `a[15:0]`: an index or a count (R72). -/
def idxOf (w : Req) : U16 := (aOf w).extractLsb' 0 16

/-- `d[7:0]`: a received byte (R72). -/
def byteOf (w : Req) : Byte := (dOf w).extractLsb' 0 8

/-- The colour `r = d[23:16]`, `g = d[15:8]`, `b = d[7:0]` (R72). -/
def unpackColor (d : BitVec 24) : Color :=
  { r := d.extractLsb' 16 8, g := d.extractLsb' 8 8, b := d.extractLsb' 0 8 }

/-- `{r, g, b}`, red in the most significant byte (00_scope.md section 7). -/
def packColor (c : Color) : BitVec 24 := c.r ++ c.g ++ c.b

/-! One function per shape of row: which bits of `a` and `d` must be zero (R63), and the operands. -/

/-- A row that names no bit of `a` and none of `d`. -/
def rowBare (w : Req) (i : Instr) : Except Illegal Instr :=
  if aOf w = 0 ∧ dOf w = 0 then .ok i else .error (.unusedBits (opOf w))

/-- A row with an index or a count in `a[15:0]` and nothing in `d`. -/
def rowIdx (w : Req) (k : U16 → Instr) : Except Illegal Instr :=
  if (aOf w).extractLsb' 16 16 = 0 ∧ dOf w = 0 then .ok (k (idxOf w)) else .error (.unusedBits (opOf w))

/-- A row with an index or a count in `a[15:0]` and a colour in `d`. -/
def rowIdxColor (w : Req) (k : U16 → Color → Instr) : Except Illegal Instr :=
  if (aOf w).extractLsb' 16 16 = 0 then .ok (k (idxOf w) (unpackColor (dOf w))) else .error (.unusedBits (opOf w))

/-- A row with the clock in `a` and a byte in `d[7:0]`. -/
def rowTimedByte (w : Req) (k : U32 → Byte → Instr) : Except Illegal Instr :=
  if (dOf w).extractLsb' 8 16 = 0 then .ok (k (aOf w) (byteOf w)) else .error (.unusedBits (opOf w))

/-- A row with a handler slot: `a[0] = 1` and the identifier in `d`, or `a[0] = 0` and `d = 0`; `a[31:1] = 0`. -/
def rowSlot (w : Req) (k : Slot → Instr) : Except Illegal Instr :=
  if aOf w = 1 then .ok (k (some (dOf w)))
  else if aOf w = 0 then (if dOf w = 0 then .ok (k none) else .error (.handlerWhereNone (opOf w)))
  else .error (.unusedBits (opOf w))

/-- The row of `FIFO.PUSH`: the element in `d[ELEM_BITS-1:0]`, `d[23:ELEM_BITS]` and `a` zero. -/
def rowElement (w : Req) : Except Illegal Instr :=
  if aOf w = 0 then (if (dOf w).toNat < 2 ^ elemBits then .ok (.fifoPush (dOf w)) else .error .elementTooWide)
  else .error (.unusedBits (opOf w))

/-- The decoder: the transition a request word names, or why the word is illegal (R62, R63, R64). -/
def decode (w : Req) : Except Illegal Instr :=
  match opOf w with
  | 0x00#8 => rowBare w .fifoInit
  | 0x01#8 => rowBare w .fifoClear
  | 0x02#8 => rowElement w
  | 0x03#8 => rowBare w .fifoPop
  | 0x04#8 => rowBare w .fifoIsEmpty
  | 0x10#8 => rowIdxColor w .ledSetPix
  | 0x11#8 => rowIdxColor w .ledSetAll
  | 0x12#8 => rowIdx w .ledGetPix
  | 0x13#8 => rowIdx w .ledRefresh
  | 0x14#8 => rowBare w .ledTcPoll
  | 0x15#8 => rowSlot w .ledSetCb
  | 0x18#8 => rowBare w .dmaBeat
  | 0x19#8 => rowBare w .irqHt
  | 0x1A#8 => rowBare w .irqTc
  | 0x20#8 => rowTimedByte w .epByte
  | 0x21#8 => rowBare w .epEdge
  | 0x22#8 => rowSlot w .epSetCbC
  | 0x23#8 => rowSlot w .epSetCbF
  | 0x24#8 => rowBare w .epGetCount
  | 0x30#8 => rowTimedByte w .hpByte
  | 0x32#8 => rowSlot w .hpSetCbC
  | 0x33#8 => rowSlot w .hpSetCbF
  | 0x34#8 => rowBare w .hpInit
  | 0xFF#8 => rowBare w .sysReset
  | op => .error (.reservedOpcode op)

/-- The word with the fields `op`, `a`, `d` (R60). -/
def pack (op : Byte) (a : U32) (d : BitVec 24) : Req := op ++ a ++ d

/-- The word of a `SETCB*` row: `a[0] = 1`, `d = h`, or `a = 0`, `d = 0`. -/
def packSlot (op : Byte) : Slot → Req
  | none => pack op 0 0
  | some h => pack op 1 h

/-- The encoder: the request word of a transition, from the same table (R62). -/
def encode : Instr → Req
  | .fifoInit => pack 0x00 0 0
  | .fifoClear => pack 0x01 0 0
  | .fifoPush v => pack 0x02 0 v
  | .fifoPop => pack 0x03 0 0
  | .fifoIsEmpty => pack 0x04 0 0
  | .ledSetPix idx c => pack 0x10 (idx.setWidth 32) (packColor c)
  | .ledSetAll n c => pack 0x11 (n.setWidth 32) (packColor c)
  | .ledGetPix idx => pack 0x12 (idx.setWidth 32) 0
  | .ledRefresh n => pack 0x13 (n.setWidth 32) 0
  | .ledTcPoll => pack 0x14 0 0
  | .ledSetCb h => packSlot 0x15 h
  | .dmaBeat => pack 0x18 0 0
  | .irqHt => pack 0x19 0 0
  | .irqTc => pack 0x1A 0 0
  | .epByte t b => pack 0x20 t (b.setWidth 24)
  | .epEdge => pack 0x21 0 0
  | .epSetCbC h => packSlot 0x22 h
  | .epSetCbF h => packSlot 0x23 h
  | .epGetCount => pack 0x24 0 0
  | .hpByte t b => pack 0x30 t (b.setWidth 24)
  | .hpSetCbC h => packSlot 0x32 h
  | .hpSetCbF h => packSlot 0x33 h
  | .hpInit => pack 0x34 0 0
  | .sysReset => pack 0xFF 0 0

/-- The operand condition that a row of spec/opcode_table.json has beside its mask. -/
inductive RowCondition where
  | noCondition
  /-- "d[23:ELEM_BITS] must be 0". -/
  | elementFits
  /-- "if a[0] = 0 then d must be 0". -/
  | noneHasNoHandler
  deriving DecidableEq, Repr

/-- One row of spec/opcode_table.json. -/
structure OpcodeRow where
  mnemonic : String
  matchWord : Req
  mask : Req
  condition : RowCondition
  deriving DecidableEq, Repr

/-- spec/opcode_table.json: "match", "mask" and "condition" of its 24 rows, in its order (the conditions "enabled only when"
of DMA.BEAT, IRQ.HT and IRQ.TC are about the state, not the word). -/
def opcodeTable : List OpcodeRow :=
  [ ⟨"FIFO.INIT", 0x0000000000000000, 0xFFFFFFFFFFFFFFFF, .noCondition⟩,
    ⟨"FIFO.CLEAR", 0x0100000000000000, 0xFFFFFFFFFFFFFFFF, .noCondition⟩,
    ⟨"FIFO.PUSH", 0x0200000000000000, 0xFFFFFFFFFF000000, .elementFits⟩,
    ⟨"FIFO.POP", 0x0300000000000000, 0xFFFFFFFFFFFFFFFF, .noCondition⟩,
    ⟨"FIFO.ISEMPTY", 0x0400000000000000, 0xFFFFFFFFFFFFFFFF, .noCondition⟩,
    ⟨"LED.SETPIX", 0x1000000000000000, 0xFFFFFF0000000000, .noCondition⟩,
    ⟨"LED.SETALL", 0x1100000000000000, 0xFFFFFF0000000000, .noCondition⟩,
    ⟨"LED.GETPIX", 0x1200000000000000, 0xFFFFFF0000FFFFFF, .noCondition⟩,
    ⟨"LED.REFRESH", 0x1300000000000000, 0xFFFFFF0000FFFFFF, .noCondition⟩,
    ⟨"LED.TCPOLL", 0x1400000000000000, 0xFFFFFFFFFFFFFFFF, .noCondition⟩,
    ⟨"LED.SETCB", 0x1500000000000000, 0xFFFFFFFFFE000000, .noneHasNoHandler⟩,
    ⟨"DMA.BEAT", 0x1800000000000000, 0xFFFFFFFFFFFFFFFF, .noCondition⟩ ] ++
  [ ⟨"IRQ.HT", 0x1900000000000000, 0xFFFFFFFFFFFFFFFF, .noCondition⟩,
    ⟨"IRQ.TC", 0x1A00000000000000, 0xFFFFFFFFFFFFFFFF, .noCondition⟩,
    ⟨"EP.BYTE", 0x2000000000000000, 0xFF00000000FFFF00, .noCondition⟩,
    ⟨"EP.EDGE", 0x2100000000000000, 0xFFFFFFFFFFFFFFFF, .noCondition⟩,
    ⟨"EP.SETCBC", 0x2200000000000000, 0xFFFFFFFFFE000000, .noneHasNoHandler⟩,
    ⟨"EP.SETCBF", 0x2300000000000000, 0xFFFFFFFFFE000000, .noneHasNoHandler⟩,
    ⟨"EP.GETCOUNT", 0x2400000000000000, 0xFFFFFFFFFFFFFFFF, .noCondition⟩,
    ⟨"HP.BYTE", 0x3000000000000000, 0xFF00000000FFFF00, .noCondition⟩,
    ⟨"HP.SETCBC", 0x3200000000000000, 0xFFFFFFFFFE000000, .noneHasNoHandler⟩,
    ⟨"HP.SETCBF", 0x3300000000000000, 0xFFFFFFFFFE000000, .noneHasNoHandler⟩,
    ⟨"HP.INIT", 0x3400000000000000, 0xFFFFFFFFFFFFFFFF, .noCondition⟩,
    ⟨"SYS.RESET", 0xFF00000000000000, 0xFFFFFFFFFFFFFFFF, .noCondition⟩ ]

/-- Whether the condition holds of the word. -/
def RowCondition.holdsOf (c : RowCondition) (w : Req) : Bool :=
  match c with
  | .noCondition => true
  | .elementFits => decide ((dOf w).toNat < 2 ^ elemBits)
  | .noneHasNoHandler => decide (w.getLsbD 24 = true ∨ dOf w = 0)

/-- "`REQ & mask == match`, plus the row's own operand conditions" (R63). -/
def OpcodeRow.matches (r : OpcodeRow) (w : Req) : Bool :=
  decide (w &&& r.mask = r.matchWord) && r.condition.holdsOf w

/-- The mnemonic of a transition, as the table spells it. -/
def Instr.mnemonic : Instr → String
  | .fifoInit => "FIFO.INIT"
  | .fifoClear => "FIFO.CLEAR"
  | .fifoPush _ => "FIFO.PUSH"
  | .fifoPop => "FIFO.POP"
  | .fifoIsEmpty => "FIFO.ISEMPTY"
  | .ledSetPix _ _ => "LED.SETPIX"
  | .ledSetAll _ _ => "LED.SETALL"
  | .ledGetPix _ => "LED.GETPIX"
  | .ledRefresh _ => "LED.REFRESH"
  | .ledTcPoll => "LED.TCPOLL"
  | .ledSetCb _ => "LED.SETCB"
  | .dmaBeat => "DMA.BEAT"
  | .irqHt => "IRQ.HT"
  | .irqTc => "IRQ.TC"
  | .epByte _ _ => "EP.BYTE"
  | .epEdge => "EP.EDGE"
  | .epSetCbC _ => "EP.SETCBC"
  | .epSetCbF _ => "EP.SETCBF"
  | .epGetCount => "EP.GETCOUNT"
  | .hpByte _ _ => "HP.BYTE"
  | .hpSetCbC _ => "HP.SETCBC"
  | .hpSetCbF _ => "HP.SETCBF"
  | .hpInit => "HP.INIT"
  | .sysReset => "SYS.RESET"

/-- The word of `nbits` bits as a request word. A request is one 64-bit word, carried whole on the request port: no byte
order arises (R60, R65; log 19). -/
def tableWord (nbits w : Nat) : Req := BitVec.ofNat 64 (w % 2 ^ nbits)

/-- The instruction the decoder reads from a row's bits. -/
def decodeTableWord (nbits w : Nat) : Option Instr :=
  match decode (tableWord nbits w) with
  | .ok i => some i
  | .error _ => none

end Sys2Proof
end

