-- ==== Sys2Proof/Machine/State.lean ====
section
/-! DEFINITION. The state of the CORE (10_state.md), the reasons a step can stop, and the state after reset. -/

namespace Sys2Proof.Machine

/-- The state of `FIFO` (10_state.md R13, R15): the slots of the ring, the two indices, the exact count, and the consumer's
destination register `OUT`, which is outside the buffer. -/
structure Fifo where
  store : List Byte
  head : Nat
  tail : Nat
  count : Nat
  out : Byte
  deriving DecidableEq, Repr

/-- One of the two halves of the staging buffer (10_state.md R20). -/
inductive Half where
  | half0
  | half1
  deriving DecidableEq, Repr

/-- The state of the transmit engine (10_state.md R18 to R26). `sel` is the selector bit: `current = buf[sel]`,
`next = buf[1 - sel]`. `line` is the bit period on the output wire: the duty value that drives it, or `none` while the wire is
low (R26, log 10). -/
structure Led where
  buf0 : List Color
  buf1 : List Color
  sel : Bool
  staging : Vector Byte 48
  ledCount : U16
  pixelCursor : U16
  bitCursor : Fin 24
  resetCount : Nat
  busy : Bool
  finished : Bool
  dmaEn : Bool
  dmaPos : Fin 48
  htPend : Bool
  tcPend : Bool
  tcCb : Slot
  line : Option Byte
  deriving DecidableEq, Repr

/-- `EP.cyc` (10_state.md R27): the role of the next byte, 0 green, 1 red, 2 blue; 3 is unreachable and has no name
(93_implementation_defined.md part 2; log 18). -/
inductive Cyc where
  | green
  | red
  | blue
  deriving DecidableEq, Repr

/-- The state of the edge-triggered parser (10_state.md R27). -/
structure Ep where
  cyc : Cyc
  pixIdx : U16
  lastT : U32
  pend : Color
  frameCount : U16
  cbColor : Slot
  cbFrame : Slot
  deriving DecidableEq, Repr

/-- `HP.sub` while `HP.st = Header` (10_state.md R28): 0, 1, 2 awaiting a magic byte, 3 and 4 the length, 5 the checksum. -/
inductive HeaderSub where
  | magicByte1
  | magicByte2
  | magicByte3
  | lengthHi
  | lengthLo
  | checksum
  deriving DecidableEq, Repr

/-- `HP.st` (10_state.md R28), with `sub` inside `Header`, the only state where it has a meaning (log 18). -/
inductive HpSt where
  | header (sub : HeaderSub)
  | ledGreen
  | ledRed
  | ledBlue
  deriving DecidableEq, Repr

/-- The state of the header-framed parser (10_state.md R28). -/
structure Hp where
  st : HpSt
  lenHi : Byte
  lenLo : Byte
  cnt : U16
  pixIdx : U16
  pend : Color
  lastT : U32
  cbColor : Slot
  cbFrame : Slot
  deriving DecidableEq, Repr

/-- Which parser an event is from (10_state.md R39). -/
inductive Parser where
  | ep
  | hp
  deriving DecidableEq, Repr

/-- An event of the output trace (10_state.md R39): a duty value sent to the waveform generator, a callback with the handler
it was sent to, or a byte sent to the byte sink. -/
inductive Event where
  | duty (d : Byte)
  | colorUpdated (parser : Parser) (handler : HandlerId) (idx : U16) (color : Color)
  | frameComplete (parser : Parser) (handler : HandlerId)
  | transferComplete (handler : HandlerId)
  | sink (b : Byte)
  deriving DecidableEq, Repr

/-- What the environment does next (00_scope.md R8, R9; logs 3 and 4): it presents a request word, or it schedules the `k`-th
held `LED.REFRESH` requester again. -/
inductive Stimulus where
  | request (w : Req)
  | resume (k : Nat)
  deriving DecidableEq, Repr

/-- The state of the machine: the four blocks and the trace (10_state.md R10), and the model's own fields: the build
parameters (log 1), the response port (log 5), the held `LED.REFRESH` requests (log 4), what the environment will do (log 3)
and the count of free values used (log 7). -/
structure State where
  cfg : Config
  fifo : Fifo
  led : Led
  ep : Ep
  hp : Hp
  trace : List Event
  rsp : Option Rsp
  held : List U16
  input : List Stimulus
  freeCtr : Nat
  deriving DecidableEq, Repr

/-- The machine stops with a fault. -/
inductive Fault where
  /-- Raised by `DMA.BEAT` (42_encoder.md R110, R113): the refill of this half is still pending when the DMA is about to
  re-enter it. The source declares the case impossible; nothing after it is defined. UNSAFE for a claim that no run stops or
  that a faulting beat changes nothing, since the real hardware would go on with stale data (log 12). -/
  | reloadOverrun (half : Half)
  deriving DecidableEq, Repr

/-- The machine gives no meaning to what was presented. -/
inductive Refusal where
  /-- Raised by `exec` for an instruction that has no meaning yet; no arm of this model raises it. Safe. -/
  | notModelled (mnemonic : String)
  /-- Raised by the step for a request word that is not legal (30_encoding.md R63, R64): no state changes. Safe. -/
  | illegalWord (reason : Illegal)
  /-- Raised by `DMA.BEAT` with `dma_en = 0`: not enabled, no such step exists (42_encoder.md R110,
  93_implementation_defined.md U16). Safe (log 13). -/
  | dmaNotEnabled
  /-- Raised by `IRQ.HT` with `ht_pend = 0` (42_encoder.md R111, U16). Safe (log 13). -/
  | htNotPending
  /-- Raised by `IRQ.TC` with `tc_pend = 0` (42_encoder.md R114, U16). Safe (log 13). -/
  | tcNotPending
  deriving DecidableEq, Repr

/-- `FIFO` after reset (10_state.md R33); `out` is the caller's, since the spec gives `OUT` no reset value. -/
def Fifo.atReset (c : Config) (out : Byte) : Fifo :=
  { store := List.replicate c.fifoN 0, head := 0, tail := 0, count := 0, out := out }

/-- `LED` after reset (10_state.md R34). -/
def Led.atReset (c : Config) : Led :=
  { buf0 := List.replicate c.maxLeds Color.zero
    buf1 := List.replicate c.maxLeds Color.zero
    sel := false
    staging := Vector.replicate 48 dutyReset
    ledCount := 0
    pixelCursor := 0
    bitCursor := 0
    resetCount := 0
    busy := false
    finished := false
    dmaEn := false
    dmaPos := 0
    htPend := false
    tcPend := false
    tcCb := none
    line := none }

/-- `EP` after reset (10_state.md R34). -/
def Ep.atReset : Ep :=
  { cyc := .green, pixIdx := 0, lastT := 0, pend := Color.zero, frameCount := 0, cbColor := none, cbFrame := none }

/-- `HP` after reset (10_state.md R34). -/
def Hp.atReset : Hp :=
  { st := .header .magicByte1, lenHi := 0, lenLo := 0, cnt := 0, pixIdx := 0, pend := Color.zero, lastT := 0,
    cbColor := none, cbFrame := none }

/-- The machine with the parameters `c` after `SYS.RESET` (70_reset_and_hazards.md R170), with no request made yet (R37).
`FIFO.OUT`, which reset leaves unspecified (R171), is 0 here (DESIGN CHOICE, log 6). -/
def State.resetWith (c : Config) : State :=
  { cfg := c
    fifo := Fifo.atReset c 0
    led := Led.atReset c
    ep := Ep.atReset
    hp := Hp.atReset
    trace := []
    rsp := none
    held := []
    input := []
    freeCtr := 0 }

/-- The machine right after reset, with the parameters of `Config.atReset` (log 1). -/
def State.reset : State := State.resetWith Config.atReset

end Sys2Proof.Machine
end

