-- ==== Sys2Proof/Machine/Operands.lean ====
section
/-! DEFINITION. How operands become values (30_encoding.md R72) and the arithmetic of R73. -/

namespace Sys2Proof.Machine

/-- "clamped count": `min(count, MAX_LEDS)` (R72). -/
def clampCount (n : U16) (maxLeds : Nat) : Nat := min n.toNat maxLeds

/-- A FIFO element: `d[ELEM_BITS-1:0]` (R72). -/
def elementOf (v : BitVec 24) : Byte := v.extractLsb' 0 8

/-- `(i + 1) mod N`, the advance of `head` and `tail` (R73). -/
def ringNext (i n : Nat) : Nat := (i + 1) % n

/-- `(dma_pos + 1) mod 48` (R73). -/
def dmaNext (p : Fin 48) : Fin 48 := ⟨(p.val + 1) % 48, Nat.mod_lt _ (by decide)⟩

/-- `(now - last_t) mod 2^32 > TIMEOUT_MS`: modular subtraction, then an unsigned strict comparison (R73). -/
def timedOut (now lastT : U32) : Bool := decide (timeoutMs < (now - lastT).toNat)

/-- `chk(hi, lo) = hi xor lo xor 0x55` (30_encoding.md R68). -/
def checksumOf (hi lo : Byte) : Byte := hi ^^^ lo ^^^ chkConst

/-- `256 * len_hi + len_lo`, big-endian (R72, R73). -/
def lengthOf (hi lo : Byte) : U16 := hi ++ lo

/-- `encode_bit` (30_encoding.md R69). -/
def encodeBit (v : Bool) : Byte := if v then dutyOne else dutyZero

/-- The channel of bit `i` of a pixel: green, then red, then blue (R69). -/
def channelOf (c : Color) (i : Nat) : Byte := if i < 8 then c.g else if i < 16 then c.r else c.b

/-- `encode_pixel(c)[i]`: bit `7 - (i mod 8)` of the channel, most significant bit first (R69). -/
def encodePixel (c : Color) (i : Nat) : Byte := encodeBit ((channelOf c i).getLsbD (7 - i % 8))

/-- The 24 duty values of a pixel, in the order of emission (R69). -/
def pixelDuties (c : Color) : List Byte := (List.range 24).map (encodePixel c)

end Sys2Proof.Machine
end

