-- ==== Sys2Proof/Machine/Flags.lean ====
section
/-! DEFINITION. The status flags (10_state.md R31) and the response word that carries them (30_encoding.md R61). -/

namespace Sys2Proof.Machine

/-- `push_ok`: 1 pushed, 0 when `count == N` (40_fifo.md R82). -/
def pushOk (c : Config) (f : Fifo) : Bool := !decide (f.count = c.fifoN)

/-- `pop_ok`: 1 success, 0 when `count == 0` (40_fifo.md R83). -/
def popOk (f : Fifo) : Bool := !decide (f.count = 0)

/-- `empty`: `count == 0` (40_fifo.md R84); also the port `empty` (30_encoding.md R74). -/
def fifoEmpty (f : Fifo) : Bool := decide (f.count = 0)

/-- The response word `RSP`: `ok` in bit 31, zeros, `data` in bits 23:0 (30_encoding.md R61). -/
def rspWord (ok : Bool) (data : BitVec 24) : Rsp := BitVec.ofBool ok ++ (0 : BitVec 7) ++ data

/-- The response of an operation whose row says "none": `0x00000000` (R61). -/
def rspNone : Rsp := 0

/-- An operation answers `ok` and `data`. -/
def State.respond (s : State) (ok : Bool) (data : BitVec 24) : State := { s with rsp := some (rspWord ok data) }

/-- An operation answers the word that carries no information. -/
def State.respondNone (s : State) : State := { s with rsp := some rspNone }

/-- An event, or a request that is held, has no response (R61). -/
def State.noResponse (s : State) : State := { s with rsp := none }

end Sys2Proof.Machine
end

