-- ==== Sys2Proof/Machine/Ops.lean ====
section
/-! DEFINITION. The named operations over the three index spaces (20_memory.md R40, R44), the frame store's roles, the refill
and the completion step of the engine, the timeout steps, and the emission of a callback (60_exceptions.md R155), which is all
that this hardware has in the place of entering an exception handler. -/

namespace Sys2Proof.Machine

/-! Accesses. Every access moves one whole element (R44). The rules guard every index (00_scope.md section 7); outside a
space, which no reachable state brings about, a read gives `dflt` and a write nothing (log 11). -/

/-- `MemRead(space, i, 1)`. -/
def memRead {α : Type} (space : List α) (i : Nat) (dflt : α) : α := space.getD i dflt

/-- `MemWrite(space, i, 1, v)`. -/
def memWrite {α : Type} (space : List α) (i : Nat) (v : α) : List α := space.set i v

/-- Writes `v` at the indices `0 .. n-1`. -/
def memFill {α : Type} : Nat → α → List α → List α
  | 0, _, space => space
  | _ + 1, _, [] => []
  | n + 1, v, _ :: rest => v :: memFill n v rest

/-- The canonical form of the storage: each space lists every one of its elements, so it has exactly its size (R40). -/
abbrev Memory.wf (s : State) : Prop :=
  s.fifo.store.length = s.cfg.fifoN ∧ s.led.buf0.length = s.cfg.maxLeds ∧ s.led.buf1.length = s.cfg.maxLeds

/-! Callbacks. -/

/-- `if slot != none: emit E to slot` (10_state.md R39, 60_exceptions.md R155). -/
def callback (slot : Slot) (event : HandlerId → Event) : List Event :=
  match slot with
  | none => []
  | some h => [event h]

/-! FIFO. -/

/-- Zeroes the storage, the indices and the count, and leaves `OUT` (40_fifo.md R80, R81). -/
def Fifo.zeroed (c : Config) (f : Fifo) : Fifo :=
  { f with store := List.replicate c.fifoN 0, head := 0, tail := 0, count := 0 }

/-- The body of a push (40_fifo.md R82). -/
def Fifo.push (c : Config) (v : Byte) (f : Fifo) : Fifo :=
  if pushOk c f then
    { f with store := memWrite f.store f.head v, head := ringNext f.head c.fifoN, count := f.count + 1 }
  else f

/-- The element a pop takes: `store[tail]`. -/
def Fifo.oldest (f : Fifo) : Byte := memRead f.store f.tail 0

/-- The body of a pop (40_fifo.md R83). -/
def Fifo.pop (c : Config) (f : Fifo) : Fifo :=
  if popOk f then { f with out := f.oldest, tail := ringNext f.tail c.fifoN, count := f.count - 1 } else f

/-- The abstract content `q`, oldest first (10_state.md R16). -/
def Fifo.queue (c : Config) (f : Fifo) : List Byte :=
  (List.range f.count).map fun k => memRead f.store ((f.tail + k) % c.fifoN) 0

/-! The frame store. -/

/-- The role `current = buf[sel]` (10_state.md R18). -/
def Led.currentBuf (l : Led) : List Color := if l.sel then l.buf1 else l.buf0

/-- The role `next = buf[1 - sel]`. -/
def Led.nextBuf (l : Led) : List Color := if l.sel then l.buf0 else l.buf1

/-- `buf[1 - sel] <- b`. -/
def Led.setNextBuf (l : Led) (b : List Color) : Led := if l.sel then { l with buf0 := b } else { l with buf1 := b }

/-- `swap_and_copy` (41_framebuffer.md R93): the roles flip, then the new `next` becomes a copy of the new `current`. -/
def Led.swapAndCopy (l : Led) : Led :=
  let flipped : Led := { l with sel := !l.sel }
  flipped.setNextBuf flipped.currentBuf

/-- Writes one pixel of `next`, or nothing when `idx >= MAX_LEDS` (41_framebuffer.md R90). -/
def Led.setPixel (c : Config) (idx : U16) (color : Color) (l : Led) : Led :=
  if idx.toNat < c.maxLeds then l.setNextBuf (memWrite l.nextBuf idx.toNat color) else l

/-- Writes the first `min(count, MAX_LEDS)` pixels of `next` (41_framebuffer.md R91). -/
def Led.setAll (c : Config) (count : U16) (color : Color) (l : Led) : Led :=
  l.setNextBuf (memFill (clampCount count c.maxLeds) color l.nextBuf)

/-- Reads one pixel of `next`, `ZERO_COLOR` when `idx >= MAX_LEDS` (41_framebuffer.md R92). -/
def Led.getPixel (c : Config) (idx : U16) (l : Led) : Color :=
  if idx.toNat < c.maxLeds then memRead l.nextBuf idx.toNat Color.zero else Color.zero

/-! The encoder and the DMA. -/

/-- The index of a half's first duty value. -/
def Half.base : Half → Nat
  | .half0 => 0
  | .half1 => 24

/-- The staging buffer with `v 0 .. v 23` written into half `h`. -/
def stageHalf (staging : Vector Byte 48) (h : Half) (v : Nat → Byte) : Vector Byte 48 :=
  Vector.ofFn fun k : Fin 48 => if h.base ≤ k.val ∧ k.val < h.base + 24 then v (k.val - h.base) else staging[k]

/-- `refill(h)` (42_encoder.md R108): the next pixel of `current`, or the reset value when all are encoded. -/
def Led.refill (h : Half) (l : Led) : Led :=
  if l.pixelCursor.toNat < l.ledCount.toNat then
    { l with
      staging := stageHalf l.staging h (encodePixel (memRead l.currentBuf l.pixelCursor.toNat Color.zero))
      pixelCursor := l.pixelCursor + 1 }
  else
    { l with staging := stageHalf l.staging h (fun _ => dutyReset), resetCount := l.resetCount + 1 }

/-- What `LED.REFRESH` does when it is performed (41_framebuffer.md R96, 42_encoder.md R109). -/
def Led.start (c : Config) (count : U16) (l : Led) : Led :=
  let swapped := l.swapAndCopy
  let armed : Led :=
    { swapped with
      ledCount := BitVec.ofNat 16 (clampCount count c.maxLeds), pixelCursor := 0, bitCursor := 0, resetCount := 0 }
  { (armed.refill .half0).refill .half1 with htPend := false, tcPend := false, dmaPos := 0, dmaEn := true, busy := true }

/-- The registers after `complete()` (42_encoder.md R112); the generator is disabled, so the wire is low. -/
def Led.complete (l : Led) : Led :=
  { l with dmaEn := false, busy := false, htPend := false, tcPend := false, finished := true, line := none }

/-- A reload handler after its pending bit is cleared: refill, then the test for completion (42_encoder.md R111, R114). -/
def Led.reload (c : Config) (h : Half) (l : Led) : Led × List Event :=
  let filled := l.refill h
  if c.resetRefills ≤ filled.resetCount then (filled.complete, callback filled.tcCb .transferComplete) else (filled, [])

/-- The half that the beat from this state would overrun (42_encoder.md R110, R113). -/
def Led.overrun (l : Led) : Option Half :=
  if (dmaNext l.dmaPos).val = 24 ∧ l.tcPend = true then some .half1
  else if (dmaNext l.dmaPos).val = 0 ∧ l.htPend = true then some .half0
  else none

/-- The registers after a beat that overruns nothing (42_encoder.md R110); the wire carries the value just moved. -/
def Led.beat (l : Led) : Led :=
  { l with
    dmaPos := dmaNext l.dmaPos
    htPend := l.htPend || decide ((dmaNext l.dmaPos).val = 24)
    tcPend := l.tcPend || decide ((dmaNext l.dmaPos).val = 0)
    line := some l.staging[l.dmaPos] }

/-- The level of the output wire at count `tick` of the bit period: high for the first `d` counts while the generator is
enabled, else low (10_state.md R26, 30_encoding.md R70). -/
def Led.levelAt (l : Led) (tick : Nat) : Bool :=
  match l.line with
  | none => false
  | some d => l.dmaEn && decide (tick < d.toNat)

/-! The parsers. -/

/-- The timeout step and the timestamp of `EP.BYTE` (43_parser_edge.md R126, parts 1 and 2). -/
def Ep.arrive (now : U32) (e : Ep) : Ep :=
  if timedOut now e.lastT then { e with cyc := .green, pixIdx := 0, pend := Color.zero, lastT := now }
  else { e with lastT := now }

/-- The assignment of the byte (43_parser_edge.md R126, part 3), with the events emitted. -/
def Ep.assign (b : Byte) (e : Ep) : Ep × List Event :=
  match e.cyc with
  | .green => ({ e with pend := { e.pend with g := b }, cyc := .red }, [])
  | .red => ({ e with pend := { e.pend with r := b }, cyc := .blue }, [])
  | .blue =>
    ({ e with pixIdx := e.pixIdx + 1, cyc := .green, pend := Color.zero },
      callback e.cbColor fun h => .colorUpdated .ep h e.pixIdx { e.pend with b := b })

/-- One received byte (43_parser_edge.md R126). -/
def Ep.byte (now : U32) (b : Byte) (e : Ep) : Ep × List Event := (e.arrive now).assign b

/-- The frame-boundary edge (43_parser_edge.md R127). -/
def Ep.edge (e : Ep) : Ep × List Event :=
  ({ e with frameCount := e.pixIdx, cyc := .green, pixIdx := 0 }, callback e.cbFrame (.frameComplete .ep))

/-- `HP.sub` as the spec numbers it (10_state.md R28). -/
def HeaderSub.toNat : HeaderSub → Nat
  | .magicByte1 => 0
  | .magicByte2 => 1
  | .magicByte3 => 2
  | .lengthHi => 3
  | .lengthLo => 4
  | .checksum => 5

/-- `HP.sub`: "0 in every other state" than `Header` (10_state.md R28). -/
def HpSt.sub : HpSt → Nat
  | .header k => k.toNat
  | .ledGreen => 0
  | .ledRed => 0
  | .ledBlue => 0

/-- `EP.cyc` as the spec numbers it (10_state.md R27). -/
def Cyc.toNat : Cyc → Nat
  | .green => 0
  | .red => 1
  | .blue => 2

/-- The timeout step of `HP.BYTE` (44_parser_header.md R136). -/
def Hp.arrive (now : U32) (p : Hp) : Hp :=
  if timedOut now p.lastT then { p with st := .header .magicByte1, pixIdx := 0, pend := Color.zero, lastT := now }
  else { p with lastT := now }

/-- A magic byte: on to `then_` when it is the one awaited, else matching restarts from scratch (44_parser_header.md R138). -/
def Hp.matchMagic (b awaited : Byte) (then_ : HeaderSub) (p : Hp) : Hp :=
  if b = awaited then { p with st := .header then_ } else { p with st := .header .magicByte1 }

/-- The checksum byte (44_parser_header.md R137, R139). -/
def Hp.checkHeader (b : Byte) (p : Hp) : Hp :=
  if b = checksumOf p.lenHi p.lenLo then { p with cnt := lengthOf p.lenHi p.lenLo, pixIdx := 0, st := .ledGreen }
  else { p with lenHi := 0, lenLo := 0, st := .header .magicByte1 }

/-- The blue byte of a pixel (44_parser_header.md R137, R140): `color_updated`, then the next pixel or `frame_complete`. -/
def Hp.finishPixel (b : Byte) (p : Hp) : Hp × List Event :=
  let reported := callback p.cbColor fun h => .colorUpdated .hp h p.pixIdx { p.pend with b := b }
  if (p.pixIdx + 1).toNat < p.cnt.toNat then
    ({ p with pixIdx := p.pixIdx + 1, pend := Color.zero, st := .ledGreen }, reported)
  else
    ({ p with pixIdx := 0, pend := Color.zero, st := .header .magicByte1 },
      reported ++ callback p.cbFrame (.frameComplete .hp))

/-- The state machine of the header-framed parser, after the timeout step (44_parser_header.md R135, R137). -/
def Hp.assign (b : Byte) (p : Hp) : Hp × List Event :=
  match p.st with
  | .header .magicByte1 => (p.matchMagic b magic1 .magicByte2, [])
  | .header .magicByte2 => (p.matchMagic b magic2 .magicByte3, [])
  | .header .magicByte3 => (p.matchMagic b magic3 .lengthHi, [])
  | .header .lengthHi => ({ p with lenHi := b, st := .header .lengthLo }, [])
  | .header .lengthLo => ({ p with lenLo := b, st := .header .checksum }, [])
  | .header .checksum => (p.checkHeader b, [])
  | .ledGreen => ({ p with pend := { p.pend with g := b }, st := .ledRed }, [])
  | .ledRed => ({ p with pend := { p.pend with r := b }, st := .ledBlue }, [])
  | .ledBlue => p.finishPixel b

/-- One received byte (44_parser_header.md R137). -/
def Hp.byte (now : U32) (b : Byte) (p : Hp) : Hp × List Event := (p.arrive now).assign b

/-- The parser's part of `HP.INIT` (44_parser_header.md R147): everything but the handler slots. -/
def Hp.initialised (p : Hp) : Hp :=
  { p with st := .header .magicByte1, lenHi := 0, lenLo := 0, cnt := 0, pixIdx := 0, pend := Color.zero, lastT := 0 }

end Sys2Proof.Machine
end

