-- ==== Sys2Proof/Machine/Encoder.lean ====
section
/-! DEFINITION. The meanings of the engine's internal events (42_encoder.md R110, R111, R114). -/

namespace Sys2Proof.Machine

/-- `DMA.BEAT` (R110): enabled only while `dma_en = 1`; faults where the refill of a half is late (R113). -/
def execDmaBeat (s : State) : Host.Outcome State Fault Refusal :=
  if s.led.dmaEn then
    match s.led.overrun with
    | some h => .fault (.reloadOverrun h)
    | none =>
      .next
        ({ s with led := s.led.beat, trace := s.trace ++ [Event.duty s.led.staging[s.led.dmaPos]] }.noResponse)
  else .refused .dmaNotEnabled

/-- `IRQ.HT` (R111): enabled only while `ht_pend = 1`. -/
def execIrqHt (s : State) : Host.Outcome State Fault Refusal :=
  if s.led.htPend then
    let result := { s.led with htPend := false }.reload s.cfg .half0
    .next ({ s with led := result.1, trace := s.trace ++ result.2 }.noResponse)
  else .refused .htNotPending

/-- `IRQ.TC` (R114): enabled only while `tc_pend = 1`. -/
def execIrqTc (s : State) : Host.Outcome State Fault Refusal :=
  if s.led.tcPend then
    let result := { s.led with tcPend := false }.reload s.cfg .half1
    .next ({ s with led := result.1, trace := s.trace ++ result.2 }.noResponse)
  else .refused .tcNotPending

end Sys2Proof.Machine
end

