-- ==== Sys2Proof/Machine/FifoOps.lean ====
section
/-! DEFINITION. The meanings of the FIFO's operations (40_fifo.md R80 to R84). -/

namespace Sys2Proof.Machine

/-- `FIFO.INIT` (R80). -/
def execFifoInit (s : State) : Host.Outcome State Fault Refusal :=
  .next ({ s with fifo := s.fifo.zeroed s.cfg }.respondNone)

/-- `FIFO.CLEAR` (R81): "The state after CLEAR equals the state after INIT". -/
def execFifoClear (s : State) : Host.Outcome State Fault Refusal :=
  .next ({ s with fifo := s.fifo.zeroed s.cfg }.respondNone)

/-- `FIFO.PUSH v` (R82): `ok = push_ok`, and a full buffer is left as it is. -/
def execFifoPush (value : BitVec 24) (s : State) : Host.Outcome State Fault Refusal :=
  .next ({ s with fifo := s.fifo.push s.cfg (elementOf value) }.respond (pushOk s.cfg s.fifo) 0)

/-- `FIFO.POP` (R83): `ok = pop_ok`, `data` the popped value, 0 on an empty buffer. -/
def execFifoPop (s : State) : Host.Outcome State Fault Refusal :=
  .next
    ({ s with fifo := s.fifo.pop s.cfg }.respond (popOk s.fifo)
      (if popOk s.fifo then s.fifo.oldest.setWidth 24 else 0))

/-- `FIFO.ISEMPTY` (R84). -/
def execFifoIsEmpty (s : State) : Host.Outcome State Fault Refusal :=
  .next (s.respond (fifoEmpty s.fifo) 0)

end Sys2Proof.Machine
end

