-- ==== Sys2Proof/Machine/Framebuffer.lean ====
section
/-! DEFINITION. The meanings of the transmit engine's public operations (41_framebuffer.md R90 to R98). -/

namespace Sys2Proof.Machine

/-- `LED.SETPIX idx, r, g, b` (R90). -/
def execLedSetPix (idx : U16) (color : Color) (s : State) : Host.Outcome State Fault Refusal :=
  .next ({ s with led := s.led.setPixel s.cfg idx color }.respondNone)

/-- `LED.SETALL count, r, g, b` (R91). -/
def execLedSetAll (count : U16) (color : Color) (s : State) : Host.Outcome State Fault Refusal :=
  .next ({ s with led := s.led.setAll s.cfg count color }.respondNone)

/-- `LED.GETPIX idx` (R92): `ok = 1` always, `data = {r, g, b}`. -/
def execLedGetPix (idx : U16) (s : State) : Host.Outcome State Fault Refusal :=
  .next (s.respond true (packColor (s.led.getPixel s.cfg idx)))

/-- A `LED.REFRESH` that is performed (R96): the engine starts, `ok = 1`. -/
def State.performRefresh (ledCount : U16) (s : State) : State :=
  { s with led := s.led.start s.cfg ledCount }.respond true 0

/-- `LED.REFRESH led_count` (R96): performed when `busy = 0`; while `busy = 1` the requester is held and there is no
response (R61, log 4). -/
def execLedRefresh (ledCount : U16) (s : State) : Host.Outcome State Fault Refusal :=
  if s.led.busy then .next ({ s with held := s.held ++ [ledCount] }.noResponse) else .next (s.performRefresh ledCount)

/-- `LED.TCPOLL` (R97): reads the finished latch and clears it. -/
def execLedTcPoll (s : State) : Host.Outcome State Fault Refusal :=
  .next ({ s with led := { s.led with finished := false } }.respond s.led.finished 0)

/-- `LED.SETCB h` (R98). -/
def execLedSetCb (slot : Slot) (s : State) : Host.Outcome State Fault Refusal :=
  .next ({ s with led := { s.led with tcCb := slot } }.respondNone)

/-- The `k`-th held `LED.REFRESH` requester is scheduled again (R96, R100; 93_implementation_defined.md U6): it is performed
if `busy = 0`, else it stays held; a number that no requester has changes nothing but the response port. -/
def State.resumeHeld (k : Nat) (s : State) : State :=
  match s.held[k]? with
  | none => s.noResponse
  | some ledCount =>
    if s.led.busy then s.noResponse else State.performRefresh ledCount { s with held := s.held.eraseIdx k }

end Sys2Proof.Machine
end

