-- ==== Sys2Proof/Machine/ParserEdge.lean ====
section
/-! DEFINITION. The meanings of the edge-triggered parser's events and operations (43_parser_edge.md R126 to R130). -/

namespace Sys2Proof.Machine

/-- `EP.BYTE t, b` (R126). -/
def execEpByte (now : U32) (byte : Byte) (s : State) : Host.Outcome State Fault Refusal :=
  .next ({ s with ep := (s.ep.byte now byte).1, trace := s.trace ++ (s.ep.byte now byte).2 }.noResponse)

/-- `EP.EDGE` (R127). -/
def execEpEdge (s : State) : Host.Outcome State Fault Refusal :=
  .next ({ s with ep := s.ep.edge.1, trace := s.trace ++ s.ep.edge.2 }.noResponse)

/-- `EP.SETCBC h` (R128). -/
def execEpSetCbC (slot : Slot) (s : State) : Host.Outcome State Fault Refusal :=
  .next ({ s with ep := { s.ep with cbColor := slot } }.respondNone)

/-- `EP.SETCBF h` (R130). -/
def execEpSetCbF (slot : Slot) (s : State) : Host.Outcome State Fault Refusal :=
  .next ({ s with ep := { s.ep with cbFrame := slot } }.respondNone)

/-- `EP.GETCOUNT` (R129): `ok = 1`, `data[15:0] = frame_count`. -/
def execEpGetCount (s : State) : Host.Outcome State Fault Refusal :=
  .next (s.respond true (s.ep.frameCount.setWidth 24))

end Sys2Proof.Machine
end

