-- ==== Sys2Proof/Machine/ParserHeader.lean ====
section
/-! DEFINITION. The meanings of the header-framed parser's events and operations (44_parser_header.md R137, R145 to R147). -/

namespace Sys2Proof.Machine

/-- `HP.BYTE t, b` (R137). -/
def execHpByte (now : U32) (byte : Byte) (s : State) : Host.Outcome State Fault Refusal :=
  .next ({ s with hp := (s.hp.byte now byte).1, trace := s.trace ++ (s.hp.byte now byte).2 }.noResponse)

/-- `HP.SETCBC h` (R145). -/
def execHpSetCbC (slot : Slot) (s : State) : Host.Outcome State Fault Refusal :=
  .next ({ s with hp := { s.hp with cbColor := slot } }.respondNone)

/-- `HP.SETCBF h` (R146). -/
def execHpSetCbF (slot : Slot) (s : State) : Host.Outcome State Fault Refusal :=
  .next ({ s with hp := { s.hp with cbFrame := slot } }.respondNone)

/-- `HP.INIT` (R147): the parser back to its start, then every byte of `ANNOUNCE` to the byte sink, in order. -/
def execHpInit (s : State) : Host.Outcome State Fault Refusal :=
  .next ({ s with hp := s.hp.initialised, trace := s.trace ++ s.cfg.announce.map Event.sink }.respondNone)

end Sys2Proof.Machine
end

