-- ==== Sys2Proof/Machine/System.lean ====
section
/-! DEFINITION. The meaning of the reset input (70_reset_and_hazards.md R170, R171). -/

namespace Sys2Proof.Machine

/-- `SYS.RESET` (R170): every register of the four blocks to its reset value, the trace empty. `FIFO.OUT` is left unspecified
(R171): a free value (log 7). The parameters are no state (R171); requesters that are held stay held (R170 corner case (b)). -/
def execSysReset (s : State) : Host.Outcome State Fault Refusal :=
  .next
    ({ s with
      fifo := Fifo.atReset s.cfg (Config.freeOut s.freeCtr)
      led := Led.atReset s.cfg
      ep := Ep.atReset
      hp := Hp.atReset
      trace := []
      freeCtr := s.freeCtr + 1 }.respondNone)

end Sys2Proof.Machine
end

