-- ==== Sys2Proof/Machine/Dispatch.lean ====
section
/-! DEFINITION. One arm per transition. -/

namespace Sys2Proof.Machine

def exec (i : Instr) (s : State) : Host.Outcome State Fault Refusal :=
  match i with
  | .fifoInit => Sys2Proof.Machine.execFifoInit s
  | .fifoClear => Sys2Proof.Machine.execFifoClear s
  | .fifoPush value => Sys2Proof.Machine.execFifoPush value s
  | .fifoPop => Sys2Proof.Machine.execFifoPop s
  | .fifoIsEmpty => Sys2Proof.Machine.execFifoIsEmpty s
  | .ledSetPix idx color => Sys2Proof.Machine.execLedSetPix idx color s
  | .ledSetAll count color => Sys2Proof.Machine.execLedSetAll count color s
  | .ledGetPix idx => Sys2Proof.Machine.execLedGetPix idx s
  | .ledRefresh ledCount => Sys2Proof.Machine.execLedRefresh ledCount s
  | .ledTcPoll => Sys2Proof.Machine.execLedTcPoll s
  | .ledSetCb slot => Sys2Proof.Machine.execLedSetCb slot s
  | .dmaBeat => Sys2Proof.Machine.execDmaBeat s
  | .irqHt => Sys2Proof.Machine.execIrqHt s
  | .irqTc => Sys2Proof.Machine.execIrqTc s
  | .epByte now byte => Sys2Proof.Machine.execEpByte now byte s
  | .epEdge => Sys2Proof.Machine.execEpEdge s
  | .epSetCbC slot => Sys2Proof.Machine.execEpSetCbC slot s
  | .epSetCbF slot => Sys2Proof.Machine.execEpSetCbF slot s
  | .epGetCount => Sys2Proof.Machine.execEpGetCount s
  | .hpByte now byte => Sys2Proof.Machine.execHpByte now byte s
  | .hpSetCbC slot => Sys2Proof.Machine.execHpSetCbC slot s
  | .hpSetCbF slot => Sys2Proof.Machine.execHpSetCbF slot s
  | .hpInit => Sys2Proof.Machine.execHpInit s
  | .sysReset => Sys2Proof.Machine.execSysReset s

end Sys2Proof.Machine
end

