-- ==== Sys2Proof/Machine/Advance.lean ====
section
/-! DEFINITION. Taking the environment's next stimulus and performing it (00_scope.md R7, R8; 10_state.md R37; logs 3, 4). -/

namespace Sys2Proof.Machine

/-- A request word: decoded and performed, or refused with no state change (30_encoding.md R64). -/
def runRequest (w : Req) (s : State) : Host.Outcome State Fault Refusal :=
  match decode w with
  | .error reason => .refused (.illegalWord reason)
  | .ok i => exec i s

/-- One step. With nothing asked for the hardware is idle and nothing changes (10_state.md R37, 70_reset_and_hazards.md R173). -/
def advance (s : State) : Host.Outcome State Fault Refusal :=
  match s.input with
  | [] => .next s
  | .request w :: rest => runRequest w { s with input := rest }
  | .resume k :: rest => .next (State.resumeHeld k { s with input := rest })

/-- The state in which the word `w` is what the environment presents next (log 3). -/
def State.present (w : Req) (s : State) : State := { s with input := .request w :: s.input }

end Sys2Proof.Machine
end

