-- ==== Sys2Proof/Machine/Step.lean ====
section
/-! DEFINITION. The step of the machine, and how one word is put where the step takes its next request from. -/

namespace Sys2Proof.Machine

/-- One transition of the machine: the environment's next stimulus is performed. -/
def step : State → Host.Outcome State Fault Refusal := advance

/-- The state with the row's word as the next request. -/
def State.withFetchWord (s : State) (nbits w : Nat) : State := s.present (tableWord nbits w)

end Sys2Proof.Machine
end

