-- ==== Sys2Proof/Machine/Wire.lean ====
section
/-! DEFINITION. The wire formats (30_encoding.md R66 to R71): what a sender of each input protocol puts on its link, and what
the strip gets on the output wire. -/

namespace Sys2Proof.Machine

/-- One pixel on either input wire: green, red, blue (R66, R67). -/
def pixelBytes (c : Color) : List Byte := [c.g, c.r, c.b]

/-- The bytes of an edge-terminated frame: "3 bytes per pixel", "no in-band length or checksum" (R66). -/
def edgeFrame (pixels : List Color) : List Byte := pixels.flatMap pixelBytes

/-- The header: the magic, the big-endian count and the checksum (R67, R68). -/
def frameHeader (count : U16) : List Byte :=
  let hi : Byte := count.extractLsb' 8 8
  let lo : Byte := count.extractLsb' 0 8
  [magic1, magic2, magic3, hi, lo, checksumOf hi lo]

/-- A header-framed frame (R67). -/
def headerFrame (pixels : List Color) : List Byte :=
  frameHeader (BitVec.ofNat 16 pixels.length) ++ pixels.flatMap pixelBytes

/-- Each byte of the stream comes at most `TIMEOUT_MS` after the one before it, the first after `last` (R131, R144: "all bytes
within the timeout of each other"). -/
def unbroken : U32 → List (U32 × Byte) → Bool
  | _, [] => true
  | last, (t, _) :: rest => !timedOut t last && unbroken t rest

/-- A stream of received bytes with their clock values, with no gap inside it. -/
def steady : List (U32 × Byte) → Bool
  | [] => true
  | (t, _) :: rest => unbroken t rest

/-- The levels of the wire in the `PERIOD` counts of one bit period of the duty value `d`: high first (R70). -/
def bitPeriod (d : Byte) : List Bool := (List.range period).map fun tick => decide (tick < d.toNat)

/-- The duty values of `pixels`, in index order (R71). -/
def frameDuties (pixels : List Color) : List Byte := pixels.flatMap pixelDuties

/-- How many halves a transfer of `count` pixels emits when every reload interrupt is handled before the next beat:
`max(1, L + RESET_REFILLS - 2)` (R71, 42_encoder.md R116). -/
def transferHalves (count resetRefills : Nat) : Nat := max 1 (count + resetRefills - 2)

/-- The duty values of such a transfer: the pixels, then reset values (R71). -/
def transferDuties (pixels : List Color) (resetRefills : Nat) : List Byte :=
  frameDuties pixels ++
    List.replicate (24 * (transferHalves pixels.length resetRefills - pixels.length)) dutyReset

end Sys2Proof.Machine
end

