-- ==== Sys2Proof/Machine/Pseudo.lean ====
section
/-! DEFINITION. The pseudo-operations (30_encoding.md R76) and the collaborators at their interfaces (60_exceptions.md
R157, R158; log 15). None of it is state of the CORE. -/

namespace Sys2Proof.Machine

/-- Goes on after a next state; a fault or a refusal ends the sequence. -/
def andThen (r : Host.Outcome State Fault Refusal) (k : State → Host.Outcome State Fault Refusal) :
    Host.Outcome State Fault Refusal :=
  match r with
  | .next s => k s
  | .fault f => .fault f
  | .refused e => .refused e

/-- A sequence of transitions, in order (20_memory.md R50). -/
def execAll : List Instr → State → Host.Outcome State Fault Refusal
  | [], s => .next s
  | i :: rest, s => andThen (exec i s) (execAll rest)

/-- The events by which a stream of received bytes reaches the edge-triggered parser (60_exceptions.md R158). -/
def epStream (bytes : List (U32 × Byte)) : List Instr := bytes.map fun x => .epByte x.1 x.2

/-- The events by which a stream of received bytes reaches the header-framed parser. -/
def hpStream (bytes : List (U32 × Byte)) : List Instr := bytes.map fun x => .hpByte x.1 x.2

/-- `EP.FEED t, b0 b1 ... bk`: all with the same timestamp. -/
def epFeed (now : U32) (bytes : List Byte) : List Instr := epStream (bytes.map fun b => (now, b))

/-- `HP.FEED t, b0 b1 ... bk`. -/
def hpFeed (now : U32) (bytes : List Byte) : List Instr := hpStream (bytes.map fun b => (now, b))

/-- `IRQ.HT` if `ht_pend = 1`, then `IRQ.TC` if `tc_pend = 1`. -/
def serveReloads (s : State) : Host.Outcome State Fault Refusal :=
  andThen (if s.led.htPend then exec .irqHt s else .next s) fun t =>
    if t.led.tcPend then exec .irqTc t else .next t

/-- `DMA.HALF`: 24 times `DMA.BEAT`, then the pending reload handlers. -/
def dmaHalf (s : State) : Host.Outcome State Fault Refusal :=
  andThen (execAll (List.replicate 24 Instr.dmaBeat) s) serveReloads

/-- `DMA.RUN`: `DMA.HALF` while `busy = 1`, at most `fuel` times (a started transfer ends after `transferHalves`). -/
def dmaRun : Nat → State → Host.Outcome State Fault Refusal
  | 0, s => .next s
  | fuel + 1, s => if s.led.busy then andThen (dmaHalf s) (dmaRun fuel) else .next s

/-- `BRIDGE.EP k`, `BRIDGE.HP k`: what the `Bridge` requests in answer to an event of the parser (R76, 60_exceptions.md R157);
the count `k` is the test's choice. -/
def bridgeRequests (parser : Parser) (k : U16) : Event → List Instr
  | .colorUpdated p _ idx color => if p = parser then [.ledSetPix idx color] else []
  | .frameComplete p _ => if p = parser then [.ledRefresh k] else []
  | .duty _ => []
  | .transferComplete _ => []
  | .sink _ => []

/-- The `SerialLink` as the byte sink: each `sink(x)` is a `FIFO.PUSH x` (44_parser_header.md R147, 60_exceptions.md R158). -/
def sinkRequests : Event → List Instr
  | .sink b => [.fifoPush (b.setWidth 24)]
  | .colorUpdated _ _ _ _ => []
  | .frameComplete _ _ => []
  | .duty _ => []
  | .transferComplete _ => []

end Sys2Proof.Machine
end

