-- ==== Sys2Proof/Machine/Premises.lean ====
section
/-! DEFINITION. What the CORE assumes of its environment (70_reset_and_hazards.md R188): one definition for each premise of that
table, said of a schedule of the environment's acts. The schedule and its contexts are the model's form (log 23); none of it is
state of the CORE. -/

namespace Sys2Proof.Machine

/-- The five interrupt sources (60_exceptions.md R152). -/
inductive InterruptSource where
  | serialReceive
  | serialTransmit
  | halfTransfer
  | fullTransfer
  | frameEdge
  deriving DecidableEq, Repr

/-- Where an act comes from (60_exceptions.md R160): foreground code, the handler of an interrupt source, a callback handler that runs
inside such a handler (R155), or the DMA, which is no context of the processor. -/
inductive Context where
  | foreground
  | handler (source : InterruptSource)
  | callback (id : HandlerId) (source : InterruptSource)
  | dma
  deriving DecidableEq, Repr

/-- One act of the environment: the stimulus, the context it comes from, and the values of the free-running millisecond counter, before
any reduction modulo `2^32`, between which its context performs it (60_exceptions.md R160, R161). -/
structure Act where
  context : Context
  begins : Nat
  ends : Nat
  stimulus : Stimulus
  deriving DecidableEq, Repr

/-- The relative priorities of the five sources, the parameter `PRIO` (60_exceptions.md R153); a larger number is a higher priority. -/
structure Priorities where
  serialReceive : Nat
  serialTransmit : Nat
  halfTransfer : Nat
  fullTransfer : Nat
  frameEdge : Nat
  deriving DecidableEq, Repr

/-- The interrupts that were raised outside the CORE (60_exceptions.md R152): the bytes received for each parser in arrival order, the
edges, and the times the transmitter became ready. -/
structure Raised where
  epBytes : List Byte
  hpBytes : List Byte
  edges : Nat
  transmitReady : Nat
  deriving DecidableEq, Repr

/-- What the premises need to know of an environment: whether its run starts after a reset, `PRIO`, which handlers are the `Bridge`'s,
and what was raised. -/
structure Environment where
  afterReset : Bool
  prio : Priorities
  bridge : List HandlerId
  raised : Raised
  deriving DecidableEq, Repr

/-! Acts and runs. -/

/-- The instruction that a stimulus asks for, if it is a legal request. -/
def Stimulus.instr : Stimulus → Option Instr
  | .resume _ => none
  | .request w =>
    match decode w with
    | .ok i => some i
    | .error _ => none

/-- The instruction that an act asks for. -/
def Act.instr (a : Act) : Option Instr := a.stimulus.instr

/-- The instructions asked for, in order. -/
def instrsOf (acts : List Act) : List Instr := acts.filterMap Act.instr

/-- The state in which the environment will perform exactly these acts. -/
def State.under (acts : List Act) (s : State) : State := { s with input := acts.map Act.stimulus }

/-- A number of steps, up to the first that stops. -/
def runSteps : Nat → State → Host.Outcome State Fault Refusal
  | 0, s => .next s
  | n + 1, s => andThen (step s) (runSteps n)

/-- The run in which the environment performs these acts. -/
def runUnder (acts : List Act) (s : State) : Host.Outcome State Fault Refusal := runSteps acts.length (s.under acts)

/-- A run of `n` steps is safe when no reload handler is late in it (42_encoder.md R113: "every claim about a run takes 'no
`ReloadOverrun`' as a premise"). -/
def safeFor : Nat → State → Bool
  | 0, _ => true
  | n + 1, s =>
    match step s with
    | .next t => safeFor n t
    | .fault _ => false
    | .refused _ => true

/-! The premises, named as in R188. -/

/-- `P_init`: "`SYS.RESET` (or `FIFO.INIT`) precedes every other FIFO operation". A run from the state after a reset meets it (log 8). -/
abbrev pInit (afterReset : Bool) (acts : List Act) : Prop :=
  afterReset = true ∨
    ∀ i ∈ (instrsOf acts).takeWhile (fun i => !(decide (i = .sysReset) || decide (i = .fifoInit))), i.block ≠ .fifo

/-- An act that is an operation on the FIFO, the operations of 70_reset_and_hazards.md R175 and R176. -/
def Act.onFifo (a : Act) : Bool := a.instr.any fun i => decide (i.block = .fifo)

/-- `P_atomic`: each FIFO operation is performed without another context's operation on the FIFO inside it. Broken, an update can be
lost outside this model, whose transitions are atomic (00_scope.md R7). -/
abbrev pAtomic (acts : List Act) : Prop :=
  acts.Pairwise fun a b => a.onFifo = true → b.onFifo = true → a.context ≠ b.context → a.ends ≤ b.begins

/-- The contexts that ask for an instruction of one kind. -/
def contextsOf (kind : Instr → Bool) (acts : List Act) : List Context :=
  (acts.filter fun a => a.instr.any kind).map Act.context

/-- All the instructions of one kind come from one context. -/
abbrev oneContext (kind : Instr → Bool) (acts : List Act) : Prop :=
  ∀ c ∈ contextsOf kind acts, ∀ d ∈ contextsOf kind acts, c = d

/-- `P_one_each`: "one producing and one consuming context on the FIFO; one poller of the latch" (R176, R180). -/
abbrev pOneEach (acts : List Act) : Prop :=
  oneContext (fun i => decide (i.agent = .prod)) acts ∧ oneContext (fun i => decide (i.agent = .cons)) acts ∧
    oneContext (fun i => decide (i = .ledTcPoll)) acts

/-- What an instruction delivers to a parser: which parser, the clock value, the byte. -/
def receivedBy : Instr → Option (Parser × U32 × Byte)
  | .fifoInit => none
  | .fifoClear => none
  | .fifoPush _ => none
  | .fifoPop => none
  | .fifoIsEmpty => none
  | .ledSetPix _ _ => none
  | .ledSetAll _ _ => none
  | .ledGetPix _ => none
  | .ledRefresh _ => none
  | .ledTcPoll => none
  | .ledSetCb _ => none
  | .dmaBeat => none
  | .irqHt => none
  | .irqTc => none
  | .epByte now b => some (.ep, now, b)
  | .epEdge => none
  | .epSetCbC _ => none
  | .epSetCbF _ => none
  | .epGetCount => none
  | .hpByte now b => some (.hp, now, b)
  | .hpSetCbC _ => none
  | .hpSetCbF _ => none
  | .hpInit => none
  | .sysReset => none

/-- The bytes that a list of instructions delivers to one parser, in order. -/
def bytesFor (p : Parser) (is : List Instr) : List Byte :=
  is.filterMap fun i => (receivedBy i).bind fun x => if x.1 = p then some x.2.2 else none

/-- The reload interrupts of a run are served: none is left pending at its end, and none is served that is not pending. DESIGN CHOICE
(log 24), where 60_exceptions.md R152 says only "after a finite delay": in a run that stops, by the overrun or by another refusal, an
interrupt that was raised and not yet served counts as served; in a run that goes to its end it must have been served by then; and one
that `SYS.RESET` clears is not missed. -/
def reloadsServed : Host.Outcome State Fault Refusal → Bool
  | .next t => !t.led.htPend && !t.led.tcPend
  | .fault _ => true
  | .refused r => !(decide (r = .htNotPending) || decide (r = .tcNotPending))

/-- `P_deliver`: "every raised interrupt is delivered to its handler exactly once" (60_exceptions.md R152): received bytes in arrival
order, edges, transmitter-ready interrupts, and the reload interrupts that the run itself raises. -/
abbrev pDeliver (raised : Raised) (acts : List Act) (s : State) : Prop :=
  bytesFor .ep (instrsOf acts) = raised.epBytes ∧ bytesFor .hp (instrsOf acts) = raised.hpBytes ∧
    (instrsOf acts).count .epEdge = raised.edges ∧
    (acts.filter fun a => decide (a.context = .handler .serialTransmit) && decide (a.instr = some .fifoPop)).length =
      raised.transmitReady ∧
    reloadsServed (runUnder acts s) = true

/-- `P_deadline`: "each reload interrupt is handled within 24 beats" (R177); broken, it is the fault of 42_encoder.md R113. -/
abbrev pDeadline (acts : List Act) (s : State) : Prop := safeFor acts.length (s.under acts) = true

/-- The priority of a source. -/
def Priorities.of (p : Priorities) : InterruptSource → Nat
  | .serialReceive => p.serialReceive
  | .serialTransmit => p.serialTransmit
  | .halfTransfer => p.halfTransfer
  | .fullTransfer => p.fullTransfer
  | .frameEdge => p.frameEdge

/-- A handler of this source keeps a reload handler from running: "a handler of equal or higher priority than the reload interrupt"
(R178). -/
def InterruptSource.blocksReload (p : Priorities) (source : InterruptSource) : Bool :=
  decide (p.halfTransfer ≤ p.of source) || decide (p.fullTransfer ≤ p.of source)

/-- A context keeps `RELOAD` from running: such a handler, "or a callback run inside such a handler" (R178). -/
def Context.blocksReload (p : Priorities) : Context → Bool
  | .foreground => false
  | .handler source => source.blocksReload p
  | .callback _ source => source.blocksReload p
  | .dma => false

/-- The instruction is `LED.REFRESH`, the one that can be held (60_exceptions.md R159). -/
def isRefresh : Instr → Bool
  | .fifoInit => false
  | .fifoClear => false
  | .fifoPush _ => false
  | .fifoPop => false
  | .fifoIsEmpty => false
  | .ledSetPix _ _ => false
  | .ledSetAll _ _ => false
  | .ledGetPix _ => false
  | .ledRefresh _ => true
  | .ledTcPoll => false
  | .ledSetCb _ => false
  | .dmaBeat => false
  | .irqHt => false
  | .irqTc => false
  | .epByte _ _ => false
  | .epEdge => false
  | .epSetCbC _ => false
  | .epSetCbF _ => false
  | .epGetCount => false
  | .hpByte _ _ => false
  | .hpSetCbC _ => false
  | .hpSetCbF _ => false
  | .hpInit => false
  | .sysReset => false

/-- An act that requests a `LED.REFRESH`. -/
def Act.requestsRefresh (a : Act) : Bool := a.instr.any isRefresh

/-- `P_context`: "`LED.REFRESH` is not requested from a context that keeps `RELOAD` from running" (R178). -/
abbrev pContext (p : Priorities) (acts : List Act) : Prop :=
  ∀ a ∈ acts, a.requestsRefresh = true → a.context.blocksReload p = false

/-- What an act delivers to a parser. -/
def Act.received? (a : Act) : Option (Parser × U32 × Byte) := a.instr.bind receivedBy

/-- `P_clock`: the value given with a byte is the millisecond counter modulo `2^32` when its handler runs (60_exceptions.md R162), and
the counter is not earlier than with the previous byte to the same parser (R160). -/
abbrev pClock (acts : List Act) : Prop :=
  (∀ a ∈ acts, ∀ c ∈ a.received?, c.2.1 = BitVec.ofNat 32 a.begins) ∧
    acts.Pairwise fun a b => ∀ c ∈ a.received?, ∀ d ∈ b.received?, c.1 = d.1 → a.begins ≤ b.begins

/-- The context is that of a callback handler of this list. -/
def Context.isCallbackOutside (bridge : List HandlerId) : Context → Bool
  | .foreground => false
  | .handler _ => false
  | .callback id _ => !decide (id ∈ bridge)
  | .dma => false

/-- `P_handlers`: "callback handlers do not block, except the `Bridge`'s deliberate `refresh`". What can be said of it at the CORE:
"the only blocking operation is `refresh`" (60_exceptions.md R159), so no other callback handler requests one (log 23). -/
abbrev pHandlers (bridge : List HandlerId) (acts : List Act) : Prop :=
  ∀ a ∈ acts, a.requestsRefresh = true → a.context.isCallbackOutside bridge = false

/-- A request word that is legal, or no request. -/
def Stimulus.legal : Stimulus → Bool
  | .resume _ => true
  | .request w =>
    match decode w with
    | .ok _ => true
    | .error _ => false

/-- `P_legal`: "request words satisfy `30_encoding.md` rule R63"; broken, the word is refused (R64). -/
abbrev pLegal (acts : List Act) : Prop := ∀ a ∈ acts, a.stimulus.legal = true

/-- All the premises of R188 together, of a run from `s` in which the environment performs `acts`. -/
structure Environment.Premises (e : Environment) (acts : List Act) (s : State) : Prop where
  init : pInit e.afterReset acts
  atomic : pAtomic acts
  oneEach : pOneEach acts
  deliver : pDeliver e.raised acts s
  deadline : pDeadline acts s
  context : pContext e.prio acts
  clock : pClock acts
  handlers : pHandlers e.bridge acts
  legal : pLegal acts

end Sys2Proof.Machine
end

