-- ==== Sys2Proof/Safety.lean ====
section
/-! DEFINITION. What a safe state is: the invariant of the reachable states (10_state.md R13, R14, R18 to R28; 42_encoder.md R110,
R111), quiescence (70_reset_and_hazards.md R173), and when an event is enabled. A safe run is `safeFor` of Machine/Premises.lean. -/

namespace Sys2Proof.Machine

/-- The ring (10_state.md R13, R14). -/
abbrev Fifo.Inv (c : Config) (f : Fifo) : Prop :=
  f.count ≤ c.fifoN ∧ f.head < c.fifoN ∧ f.tail < c.fifoN ∧ f.head = (f.tail + f.count) % c.fifoN

/-- The duty values the rules write: `DUTY_ONE`, `DUTY_ZERO` and `DUTY_RESET` only (10_state.md R20). -/
abbrev legalDuty (d : Byte) : Prop := d = dutyOne ∨ d = dutyZero ∨ d = dutyReset

/-- The half that the latest refill wrote: the reload handlers alternate between the halves (42_encoder.md R107). -/
def Led.lastFilled (l : Led) : Half :=
  if l.dmaPos.val < 24 then (if l.tcPend then .half0 else .half1) else (if l.htPend then .half1 else .half0)

/-- A half of the staging buffer holds the reset value throughout. -/
abbrev halfIsReset (staging : Vector Byte 48) (h : Half) : Prop :=
  ∀ k : Fin 48, h.base ≤ k.val → k.val < h.base + 24 → staging[k] = dutyReset

/-- The ranges of the transfer registers (10_state.md R21), and "a reset refill increments `reset_count` while a pixel refill
increments `pixel_cursor`" (42_encoder.md R108). -/
abbrev Led.CountersInv (c : Config) (l : Led) : Prop :=
  l.ledCount.toNat ≤ c.maxLeds ∧ l.pixelCursor.toNat ≤ l.ledCount.toNat ∧ l.bitCursor = 0 ∧
    l.resetCount ≤ c.resetRefills + 1 ∧ (l.busy = true → l.resetCount ≤ c.resetRefills) ∧
    (l.resetCount ≠ 0 → l.pixelCursor = l.ledCount)

/-- `dma_en = busy` (10_state.md R23); at most one reload interrupt is pending, and only during a transfer (42_encoder.md R110,
60_exceptions.md R152, R153); a pending half is not the one the DMA is in (10_state.md R24). -/
abbrev Led.DmaInv (l : Led) : Prop :=
  l.dmaEn = l.busy ∧ ¬(l.htPend = true ∧ l.tcPend = true) ∧ (l.htPend = true → l.busy = true ∧ 24 ≤ l.dmaPos.val) ∧
    (l.tcPend = true → l.busy = true ∧ l.dmaPos.val < 24)

/-- What the staging buffer and the wire hold: legal duty values (10_state.md R20); a low wire while the generator is disabled
(R26); and the halves that reset refills have written (42_encoder.md R111 corner case (c)). -/
abbrev Led.StagingInv (l : Led) : Prop :=
  (∀ k : Fin 48, legalDuty l.staging[k]) ∧ (∀ d ∈ l.line, legalDuty d) ∧ (l.dmaEn = false → l.line = none) ∧
    (l.busy = true → l.resetCount = 1 → halfIsReset l.staging l.lastFilled) ∧
    (l.busy = true → 2 ≤ l.resetCount → halfIsReset l.staging .half0 ∧ halfIsReset l.staging .half1)

/-- The header-framed parser (10_state.md R28, 44_parser_header.md R143): the running index is 0 in `Header` and below the
declared count (a count of 0 behaves as 1, R141) while pixels are consumed. -/
abbrev Hp.Inv (p : Hp) : Prop :=
  match p.st with
  | .header _ => p.pixIdx = 0
  | .ledGreen => p.pixIdx.toNat < max p.cnt.toNat 1
  | .ledRed => p.pixIdx.toNat < max p.cnt.toNat 1
  | .ledBlue => p.pixIdx.toNat < max p.cnt.toNat 1

/-- The invariant of the machine: well-formed parameters and storage, and the invariant of each block. -/
abbrev State.Inv (s : State) : Prop :=
  s.cfg.wf ∧ Memory.wf s ∧ s.fifo.Inv s.cfg ∧ s.led.CountersInv s.cfg ∧ s.led.DmaInv ∧ s.led.StagingInv ∧ s.hp.Inv

/-- When an event or operation is enabled (42_encoder.md R110, R111, R114; 00_scope.md R7): the guard of its rule. -/
def Instr.enabled (i : Instr) (s : State) : Bool :=
  match i with
  | .dmaBeat => s.led.dmaEn
  | .irqHt => s.led.htPend
  | .irqTc => s.led.tcPend
  | .ledRefresh _ => !s.led.busy
  | .fifoInit => true
  | .fifoClear => true
  | .fifoPush _ => true
  | .fifoPop => true
  | .fifoIsEmpty => true
  | .ledSetPix _ _ => true
  | .ledSetAll _ _ => true
  | .ledGetPix _ => true
  | .ledTcPoll => true
  | .ledSetCb _ => true
  | .epByte _ _ => true
  | .epEdge => true
  | .epSetCbC _ => true
  | .epSetCbF _ => true
  | .epGetCount => true
  | .hpByte _ _ => true
  | .hpSetCbC _ => true
  | .hpSetCbF _ => true
  | .hpInit => true
  | .sysReset => true

/-- The hardware is quiescent: `busy = 0` and no reload event is pending (70_reset_and_hazards.md R173). DESIGN CHOICE (log 22): a held
`LED.REFRESH` does not count against it. The rule speaks of pending events, an event is what `DMA`, `RELOAD`, `RX` or `EDGE` performs
(00_scope.md section 8), and the rule does not say whether a held operation is one; scheduling it (`resume`) counts as a new request. -/
abbrev State.Quiescent (s : State) : Prop := s.led.busy = false ∧ s.led.htPend = false ∧ s.led.tcPend = false

end Sys2Proof.Machine
end

