-- ==== Sys2Proof/Certificates/Slice0/Obligations.lean ====
section
/-! DEFINITION. The statements about the model, for the provers. -/

open Sys2Proof Sys2Proof.Machine

/-! The request word. -/

/-- Decode and encode agree: no operand of any transition is dropped (30_encoding.md R60, R62, R72). -/
def Obligations.DecodeEncodeRoundTrip : Prop :=
  ∀ i : Instr, i.wf = true → decode (encode i) = .ok i

/-- Each legal word has one meaning, and that meaning is well-formed (30_encoding.md R60, R63, R65). -/
def Obligations.LegalWordIsItsEncoding : Prop :=
  ∀ (w : Req) (i : Instr), decode w = .ok i → i.wf = true ∧ encode i = w

/-- R63: a word is legal iff it matches a row of the opcode table with its mask and the row's operand condition; and it then
names that row's transition. -/
def Obligations.WordIsLegalIffItMatchesARow : Prop :=
  ∀ w : Req,
    (∀ i, decode w = .ok i → ∃ row ∈ opcodeTable, row.matches w = true ∧ row.mnemonic = i.mnemonic) ∧
    (∀ row ∈ opcodeTable, row.matches w = true → ∃ i, decode w = .ok i ∧ i.mnemonic = row.mnemonic)

/-- R64: an illegal word is refused, and the opcodes 0x05 to 0x0F, 0x16, 0x17, 0x1B to 0x1F, 0x25 to 0x2F, 0x31, 0x35 to 0xFE
are reserved, whatever `a` and `d` hold. -/
def Obligations.IllegalWordIsRefused : Prop :=
  (∀ (s : State) (w : Req) (rest : List Stimulus) (reason : Illegal),
    s.input = .request w :: rest → decode w = .error reason → step s = .refused (.illegalWord reason)) ∧
  (∀ w : Req,
    (0x05 ≤ (opOf w).toNat ∧ (opOf w).toNat ≤ 0x0F) ∨ (opOf w).toNat = 0x16 ∨ (opOf w).toNat = 0x17 ∨
      (0x1B ≤ (opOf w).toNat ∧ (opOf w).toNat ≤ 0x1F) ∨ (0x25 ≤ (opOf w).toNat ∧ (opOf w).toNat ≤ 0x2F) ∨
      (opOf w).toNat = 0x31 ∨ (0x35 ≤ (opOf w).toNat ∧ (opOf w).toNat ≤ 0xFE) →
    decode w = .error (.reservedOpcode (opOf w)))

/-- Words written out from 30_encoding.md R62 and the examples of the family files, one or more of every family. -/
def Obligations.SampleWordsDecode : Prop :=
  decode 0x0200000000000041 = .ok (.fifoPush 0x41) ∧
  decode 0x1000000003FF8000 = .ok (.ledSetPix 3 { r := 0xFF, g := 0x80, b := 0 }) ∧
  decode 0x1300000003000000 = .ok (.ledRefresh 3) ∧
  decode 0x1A00000000000000 = .ok .irqTc ∧
  decode 0x200000006400007F = .ok (.epByte 100 0x7F) ∧
  decode 0x3200000001000001 = .ok (.hpSetCbC (some 1)) ∧
  decode 0xFF00000000000000 = .ok .sysReset ∧
  decode 0x1500000000000007 = .error (.handlerWhereNone 0x15)

/-! The step. -/

/-- A step performs the transition that the next request word names, in the state without that request (00_scope.md R7; the
list of requests is the model's, log 3). -/
def Obligations.StepRunsTheDecodedRequest : Prop :=
  ∀ (s : State) (w : Req) (rest : List Stimulus) (i : Instr),
    s.input = .request w :: rest → decode w = .ok i → step s = exec i { s with input := rest }

/-- With nothing asked for the hardware is idle: a step changes nothing (10_state.md R37; DESIGN CHOICE of log 3). -/
def Obligations.StepIdlesWithoutARequest : Prop :=
  ∀ s : State, s.input = [] → step s = .next s

/-- A held `LED.REFRESH` that is scheduled again is performed exactly when `busy = 0`: it then runs as the operation would, and
leaves the list of held requests; while `busy = 1` it stays held and nothing else changes (41_framebuffer.md R96, R100,
93_implementation_defined.md U6; the list and the resumption are the model's, log 4). -/
def Obligations.HeldRefreshIsReleasedWhenFree : Prop :=
  ∀ (s : State) (k : Nat) (rest : List Stimulus) (n : U16), s.input = .resume k :: rest → s.held[k]? = some n →
    (s.led.busy = false → step s = exec (.ledRefresh n) { s with input := rest, held := s.held.eraseIdx k }) ∧
    (s.led.busy = true → step s = .next { s with input := rest, rsp := none })

/-! The FIFO. -/

/-- R80 and R81: `FIFO.INIT` and `FIFO.CLEAR` zero every slot, both indices and the count, leave `OUT` and everything else, and
answer the empty response; the state after one is the state after the other. -/
def Obligations.InitAndClearEmptyTheFifo : Prop :=
  ∀ s : State,
    decode 0x0000000000000000 = .ok .fifoInit ∧
    decode 0x0100000000000000 = .ok .fifoClear ∧
    exec .fifoInit s = .next
      { s with
        fifo := { s.fifo with store := List.replicate s.cfg.fifoN 0, head := 0, tail := 0, count := 0 }
        rsp := some 0 } ∧
    exec .fifoClear s = exec .fifoInit s

/-- R82: a push onto a buffer that is not full stores the element at `head`, advances `head` and `count`, and answers
`push_ok = 1`; onto a full one it changes no state and answers 0. -/
def Obligations.PushAppendsUnlessFull : Prop :=
  ∀ (v : Byte) (s : State),
    decode (0x02#8 ++ 0#32 ++ v.setWidth 24) = .ok (.fifoPush (v.setWidth 24)) ∧
    (s.fifo.count ≠ s.cfg.fifoN →
      exec (.fifoPush (v.setWidth 24)) s = .next
        { s with
          fifo :=
            { s.fifo with
              store := s.fifo.store.set s.fifo.head v
              head := (s.fifo.head + 1) % s.cfg.fifoN
              count := s.fifo.count + 1 }
          rsp := some 0x80000000 }) ∧
    (s.fifo.count = s.cfg.fifoN → exec (.fifoPush (v.setWidth 24)) s = .next { s with rsp := some 0 })

/-- R83: a pop from a buffer that is not empty copies the slot at `tail` into `OUT` and the response, advances `tail` and lowers
`count`; from an empty one it changes no state and answers 0 with data 0. -/
def Obligations.PopTakesTheOldestUnlessEmpty : Prop :=
  ∀ s : State,
    decode 0x0300000000000000 = .ok .fifoPop ∧
    (s.fifo.count ≠ 0 →
      exec .fifoPop s = .next
        { s with
          fifo :=
            { s.fifo with
              out := s.fifo.store.getD s.fifo.tail 0
              tail := (s.fifo.tail + 1) % s.cfg.fifoN
              count := s.fifo.count - 1 }
          rsp := some (0x80000000 ||| (s.fifo.store.getD s.fifo.tail 0).setWidth 32) }) ∧
    (s.fifo.count = 0 → exec .fifoPop s = .next { s with rsp := some 0 })

/-- R84: `FIFO.ISEMPTY` answers whether `count = 0` and writes no state. -/
def Obligations.IsEmptyAnswersExactly : Prop :=
  ∀ s : State,
    decode 0x0400000000000000 = .ok .fifoIsEmpty ∧
    exec .fifoIsEmpty s = .next { s with rsp := some (if s.fifo.count = 0 then 0x80000000 else 0) }

/-- R87: the FIFO is a bounded queue. In terms of the abstract content `q` (10_state.md R16), `count` is its length and never
exceeds `N`; a push appends, or fails and leaves `q` when it has `N` elements; a pop removes the front into `OUT`, or fails and
leaves `q` and `OUT` when it is empty; `INIT` and `CLEAR` empty it; and after exactly `N` successful pushes into an empty buffer
the next push fails and leaves the contents. -/
def Obligations.FifoIsABoundedQueue : Prop :=
  ∀ s : State, s.cfg.wf → Memory.wf s → s.fifo.Inv s.cfg →
    (s.fifo.queue s.cfg).length = s.fifo.count ∧ s.fifo.count ≤ s.cfg.fifoN ∧
    (∀ v : Byte, ∃ t, exec (.fifoPush (v.setWidth 24)) s = .next t ∧
      ((s.fifo.queue s.cfg).length < s.cfg.fifoN →
        t.fifo.queue t.cfg = s.fifo.queue s.cfg ++ [v] ∧ t.rsp = some 0x80000000) ∧
      ((s.fifo.queue s.cfg).length = s.cfg.fifoN → t.fifo.queue t.cfg = s.fifo.queue s.cfg ∧ t.rsp = some 0)) ∧
    (∃ t, exec .fifoPop s = .next t ∧
      (∀ x rest, s.fifo.queue s.cfg = x :: rest →
        t.fifo.queue t.cfg = rest ∧ t.fifo.out = x ∧ t.rsp = some (0x80000000 ||| x.setWidth 32)) ∧
      (s.fifo.queue s.cfg = [] → t.fifo.queue t.cfg = [] ∧ t.fifo.out = s.fifo.out ∧ t.rsp = some 0)) ∧
    (∃ t, exec .fifoInit s = .next t ∧ t.fifo.queue t.cfg = [] ∧ ∃ u, exec .fifoPop t = .next u ∧ u.rsp = some 0) ∧
    (∃ t, exec .fifoClear s = .next t ∧ t.fifo.queue t.cfg = [] ∧ ∃ u, exec .fifoPop t = .next u ∧ u.rsp = some 0) ∧
    (∀ (vs : List Byte) (v : Byte), s.fifo.count = 0 → vs.length = s.cfg.fifoN →
      ∃ t, execAll (vs.map fun x => .fifoPush (x.setWidth 24)) s = .next t ∧ t.fifo.queue t.cfg = vs ∧
        exec (.fifoPush (v.setWidth 24)) t = .next { t with rsp := some 0 })

/-- A push and a pop requested together may run in either order (40_fifo.md R85): away from the boundaries both orders leave the
same FIFO; on a full buffer push-then-pop leaves `N - 1` elements and pop-then-push leaves `N`; on an empty one push-then-pop
returns the value pushed and pop-then-push leaves one element. -/
def Obligations.PushAndPopInEitherOrder : Prop :=
  ∀ (s : State) (v : Byte), s.cfg.wf → Memory.wf s → s.fifo.Inv s.cfg →
    ∃ a b, execAll [.fifoPush (v.setWidth 24), .fifoPop] s = .next a ∧
      execAll [.fifoPop, .fifoPush (v.setWidth 24)] s = .next b ∧
      (s.fifo.count = s.cfg.fifoN → a.fifo.count = s.cfg.fifoN - 1 ∧ b.fifo.count = s.cfg.fifoN) ∧
      (s.fifo.count = 0 → a.fifo.count = 0 ∧ a.fifo.out = v ∧ b.fifo.count = 1 ∧ b.fifo.out = s.fifo.out) ∧
      (0 < s.fifo.count → s.fifo.count < s.cfg.fifoN → a.fifo = b.fifo)

/-! The frame store. -/

/-- R90: `LED.SETPIX` writes the colour into `next[idx]` when `idx < MAX_LEDS`, else nothing, also while a transfer runs. Every
other pixel of `next`, the whole of `current`, and everything else but the response port are unchanged. -/
def Obligations.SetPixWritesOnePixelOfNext : Prop :=
  ∀ (idx : U16) (c : Color) (s : State), Memory.wf s →
    decode (0x10#8 ++ (0#16 ++ idx) ++ (c.r ++ c.g ++ c.b)) = .ok (.ledSetPix idx c) ∧
    ∃ t, exec (.ledSetPix idx c) s = .next t ∧
      t.led.currentBuf = s.led.currentBuf ∧
      (∀ j : Nat, t.led.nextBuf[j]? =
        if j = idx.toNat ∧ idx.toNat < s.cfg.maxLeds then some c else s.led.nextBuf[j]?) ∧
      t = { s with led := { s.led with buf0 := t.led.buf0, buf1 := t.led.buf1 }, rsp := some 0 }

/-- `LED.SETALL` writes the colour into the pixels `0 .. min(count, MAX_LEDS) - 1` of `next` and leaves every other pixel of
`next`, the whole of `current`, and everything else but the response port (41_framebuffer.md R91). -/
def Obligations.SetAllWritesTheFirstPixelsOfNext : Prop :=
  ∀ (n : U16) (c : Color) (s : State), Memory.wf s →
    ∃ t, exec (.ledSetAll n c) s = .next t ∧
      t.led.currentBuf = s.led.currentBuf ∧
      (∀ j : Nat, t.led.nextBuf[j]? = if j < min n.toNat s.cfg.maxLeds then some c else s.led.nextBuf[j]?) ∧
      t = { s with led := { s.led with buf0 := t.led.buf0, buf1 := t.led.buf1 }, rsp := some 0 }

/-- `LED.SETALL` is `LED.SETPIX i` for `i` in `0 .. min(count, MAX_LEDS) - 1`: "clamps `count` to the maximum and calls `set_pixel`
for `0..count`" (41_framebuffer.md R91). -/
def Obligations.SetAllIsSetPixRepeated : Prop :=
  ∀ (n : U16) (c : Color) (s : State), s.cfg.wf → Memory.wf s →
    ∃ t u, exec (.ledSetAll n c) s = .next t ∧
      execAll ((List.range (min n.toNat s.cfg.maxLeds)).map fun k => .ledSetPix (BitVec.ofNat 16 k) c) s = .next u ∧
      t = { u with rsp := some 0 }

/-- R92: `LED.GETPIX` answers `ok = 1` and the colour of `next[idx]`, or the zero colour when `idx >= MAX_LEDS`, and writes no
state. -/
def Obligations.GetPixReadsNext : Prop :=
  ∀ (idx : U16) (s : State), Memory.wf s →
    decode (0x12#8 ++ (0#16 ++ idx) ++ 0#24) = .ok (.ledGetPix idx) ∧
    (∀ c, s.led.nextBuf[idx.toNat]? = some c →
      exec (.ledGetPix idx) s = .next { s with rsp := some (0x80#8 ++ c.r ++ c.g ++ c.b) }) ∧
    (s.cfg.maxLeds ≤ idx.toNat → exec (.ledGetPix idx) s = .next { s with rsp := some 0x80000000 })

/-- A `LED.REFRESH` requested while `busy = 1` is held: no swap, no write to any block, no event, no response (41_framebuffer.md
R95, R96, R99, R100; the list of held requests is the model's, log 4). -/
def Obligations.RefreshIsHeldWhileBusy : Prop :=
  ∀ (n : U16) (s : State), s.led.busy = true →
    exec (.ledRefresh n) s = .next { s with held := s.held ++ [n], rsp := none }

/-- What `LED.REFRESH` does when `busy = 0` (41_framebuffer.md R93, R94, R96, 42_encoder.md R108, R109): the roles flip, both
buffers hold what `next` held, the clamped count is kept, both halves are staged with the first two pixels or the reset value, the
DMA starts at index 0, `busy` rises; `finished`, the handler slot, the wire and everything else are unchanged; it answers 1. That the
wire is unchanged between the start and the first beat is the model's choice (DESIGN CHOICE of log 10). -/
def Obligations.RefreshSwapsStagesAndStarts : Prop :=
  ∀ (n : U16) (s : State), s.cfg.wf → Memory.wf s → s.led.busy = false →
    ∃ t, exec (.ledRefresh n) s = .next t ∧
      t = { s with led := t.led, rsp := some 0x80000000 } ∧
      t.led.sel = (!s.led.sel) ∧ t.led.buf0 = s.led.nextBuf ∧ t.led.buf1 = s.led.nextBuf ∧
      t.led.ledCount.toNat = min n.toNat s.cfg.maxLeds ∧
      t.led.pixelCursor.toNat = min t.led.ledCount.toNat 2 ∧ t.led.bitCursor = 0 ∧
      t.led.resetCount = 2 - min t.led.ledCount.toNat 2 ∧
      (∀ k : Fin 48, t.led.staging[k] =
        if k.val / 24 < t.led.ledCount.toNat then
          encodePixel (s.led.nextBuf.getD (k.val / 24) Color.zero) (k.val % 24)
        else 0) ∧
      t.led.htPend = false ∧ t.led.tcPend = false ∧ t.led.dmaPos = 0 ∧ t.led.dmaEn = true ∧ t.led.busy = true ∧
      t.led.finished = s.led.finished ∧ t.led.tcCb = s.led.tcCb ∧ t.led.line = s.led.line

/-- R97: `LED.TCPOLL` answers the latch and clears it, and changes nothing else; a second poll without a completion between
answers 0. -/
def Obligations.TcPollReadsAndClearsTheLatch : Prop :=
  ∀ s : State,
    decode 0x1400000000000000 = .ok .ledTcPoll ∧
    exec .ledTcPoll s = .next
      { s with led := { s.led with finished := false }, rsp := some (if s.led.finished then 0x80000000 else 0) } ∧
    ∃ t, execAll [.ledTcPoll, .ledTcPoll] s = .next t ∧ t.rsp = some 0 ∧ t.led.finished = false

/-- Each of the five registrations writes its own slot, with an identifier or with none, and nothing else but the response port;
the last registration wins (41_framebuffer.md R98, 43_parser_edge.md R128, R130, 44_parser_header.md R145, R146). -/
def Obligations.RegistrationWritesItsSlot : Prop :=
  ∀ (h : Slot) (s : State),
    exec (.ledSetCb h) s = .next { s with led := { s.led with tcCb := h }, rsp := some 0 } ∧
    exec (.epSetCbC h) s = .next { s with ep := { s.ep with cbColor := h }, rsp := some 0 } ∧
    exec (.epSetCbF h) s = .next { s with ep := { s.ep with cbFrame := h }, rsp := some 0 } ∧
    exec (.hpSetCbC h) s = .next { s with hp := { s.hp with cbColor := h }, rsp := some 0 } ∧
    exec (.hpSetCbF h) s = .next { s with hp := { s.hp with cbFrame := h }, rsp := some 0 }

/-- Only `LED.REFRESH` (and reset) writes `sel` or the buffer of the `current` role, and it does so only while `busy = 0`: "the
buffer being read by the reload interrupt is never the one being written by `set_pixel`" (10_state.md R19). -/
def Obligations.OnlyRefreshChangesTheCurrentFrame : Prop :=
  ∀ (i : Instr) (s t : State), exec i s = .next t → i ≠ .sysReset →
    ((∀ n, i ≠ .ledRefresh n) ∨ s.led.busy = true) →
    t.led.sel = s.led.sel ∧ t.led.currentBuf = s.led.currentBuf

/-- `busy` and `finished` are separate (10_state.md R22, R31): `busy` rises only in a `LED.REFRESH` and falls only in a reload
handler (or reset); `finished` rises only in a reload handler and falls only in `LED.TCPOLL` (or reset); and `busy` falls in the
same transition in which `finished` is set (41_framebuffer.md R99). -/
def Obligations.WhoWritesBusyAndFinished : Prop :=
  ∀ (i : Instr) (s t : State), exec i s = .next t → i ≠ .sysReset →
    (s.led.busy = false → t.led.busy = true → ∃ n, i = .ledRefresh n) ∧
    (s.led.busy = true → t.led.busy = false → (i = .irqHt ∨ i = .irqTc) ∧ t.led.finished = true) ∧
    (s.led.finished = false → t.led.finished = true → (i = .irqHt ∨ i = .irqTc) ∧ t.led.busy = false) ∧
    (s.led.finished = true → t.led.finished = false → i = .ledTcPoll)

/-! The encoder, the DMA and the reload interrupts. -/

/-- R69: duty value `i` of a pixel is 57 when bit `23 - i` of the 24 bits green, red, blue is 1, else 34: green first, then red,
then blue, most significant bit first. -/
def Obligations.PixelDutiesGreenRedBlueMsbFirst : Prop :=
  ∀ c : Color, (pixelDuties c).length = 24 ∧
    ∀ i : Nat, i < 24 → encodePixel c i = (if (c.g ++ c.r ++ c.b).getLsbD (23 - i) then 57 else 34) ∧
      (pixelDuties c)[i]? = some (encodePixel c i)

/-- R110: while `dma_en = 1` a beat emits the duty value at `dma_pos` and advances it round the 48 entries; passing index 24 raises
the half-transfer interrupt, wrapping to 0 the full-transfer interrupt, and where the other one is still pending the beat stops
with the overrun of that one's half; nothing else changes. With `dma_en = 0` there is no beat. -/
def Obligations.BeatEmitsOneDutyValue : Prop :=
  ∀ s : State,
    decode 0x1800000000000000 = .ok .dmaBeat ∧
    (s.led.dmaEn = true →
      (s.led.dmaPos.val = 23 → s.led.tcPend = true → exec .dmaBeat s = .fault (.reloadOverrun .half1)) ∧
      (s.led.dmaPos.val = 47 → s.led.htPend = true → exec .dmaBeat s = .fault (.reloadOverrun .half0)) ∧
      ((s.led.dmaPos.val = 23 → s.led.tcPend = false) → (s.led.dmaPos.val = 47 → s.led.htPend = false) →
        exec .dmaBeat s = .next
          { s with
            led :=
              { s.led with
                dmaPos := s.led.dmaPos + 1
                htPend := s.led.htPend || s.led.dmaPos.val == 23
                tcPend := s.led.tcPend || s.led.dmaPos.val == 47
                line := some s.led.staging[s.led.dmaPos] }
            trace := s.trace ++ [.duty s.led.staging[s.led.dmaPos]]
            rsp := none })) ∧
    (s.led.dmaEn = false → exec .dmaBeat s = .refused .dmaNotEnabled)

/-- R111: while `ht_pend = 1` the half-transfer handler clears it and refills half 0 with the next pixel of `current`, or with the
reset value when all are encoded, leaving half 1; when the count of reset refills has then reached `RESET_REFILLS` it completes the
transfer (42_encoder.md R112), and else goes on. With `ht_pend = 0` it is not enabled. -/
def Obligations.HalfTransferRefillsHalfZero : Prop :=
  ∀ s : State,
    decode 0x1900000000000000 = .ok .irqHt ∧
    (s.led.htPend = false → exec .irqHt s = .refused .htNotPending) ∧
    (s.led.htPend = true → ∃ t, exec .irqHt s = .next t ∧
      (∀ k : Fin 48, t.led.staging[k] =
        if 24 ≤ k.val then s.led.staging[k]
        else if s.led.pixelCursor.toNat < s.led.ledCount.toNat then
          encodePixel (s.led.currentBuf.getD s.led.pixelCursor.toNat Color.zero) k.val
        else 0) ∧
      t.led.pixelCursor =
        (if s.led.pixelCursor.toNat < s.led.ledCount.toNat then s.led.pixelCursor + 1 else s.led.pixelCursor) ∧
      t.led.resetCount =
        (if s.led.pixelCursor.toNat < s.led.ledCount.toNat then s.led.resetCount else s.led.resetCount + 1) ∧
      (s.cfg.resetRefills ≤ t.led.resetCount →
        t =
          { s with
            led :=
              { s.led with
                staging := t.led.staging, pixelCursor := t.led.pixelCursor, resetCount := t.led.resetCount
                htPend := false, tcPend := false, dmaEn := false, busy := false, finished := true, line := none }
            trace := s.trace ++ (s.led.tcCb.toList.map fun h => .transferComplete h)
            rsp := none }) ∧
      (t.led.resetCount < s.cfg.resetRefills →
        t =
          { s with
            led :=
              { s.led with
                staging := t.led.staging, pixelCursor := t.led.pixelCursor, resetCount := t.led.resetCount
                htPend := false }
            rsp := none }))

/-- R114: the full-transfer handler is the half-transfer handler with the halves exchanged. -/
def Obligations.FullTransferRefillsHalfOne : Prop :=
  ∀ s : State,
    decode 0x1A00000000000000 = .ok .irqTc ∧
    (s.led.tcPend = false → exec .irqTc s = .refused .tcNotPending) ∧
    (s.led.tcPend = true → ∃ t, exec .irqTc s = .next t ∧
      (∀ k : Fin 48, t.led.staging[k] =
        if k.val < 24 then s.led.staging[k]
        else if s.led.pixelCursor.toNat < s.led.ledCount.toNat then
          encodePixel (s.led.currentBuf.getD s.led.pixelCursor.toNat Color.zero) (k.val - 24)
        else 0) ∧
      t.led.pixelCursor =
        (if s.led.pixelCursor.toNat < s.led.ledCount.toNat then s.led.pixelCursor + 1 else s.led.pixelCursor) ∧
      t.led.resetCount =
        (if s.led.pixelCursor.toNat < s.led.ledCount.toNat then s.led.resetCount else s.led.resetCount + 1) ∧
      (s.cfg.resetRefills ≤ t.led.resetCount →
        t =
          { s with
            led :=
              { s.led with
                staging := t.led.staging, pixelCursor := t.led.pixelCursor, resetCount := t.led.resetCount
                htPend := false, tcPend := false, dmaEn := false, busy := false, finished := true, line := none }
            trace := s.trace ++ (s.led.tcCb.toList.map fun h => .transferComplete h)
            rsp := none }) ∧
      (t.led.resetCount < s.cfg.resetRefills →
        t =
          { s with
            led :=
              { s.led with
                staging := t.led.staging, pixelCursor := t.led.pixelCursor, resetCount := t.led.resetCount
                tcPend := false }
            rsp := none }))

/-- The wire (10_state.md R26, 30_encoding.md R70): after a beat that emits `d` it is high for the first `d` of the 90 counts of the
bit period and low for the rest; while the generator is disabled it is low at every count. -/
def Obligations.WireLevelFollowsTheDutyValue : Prop :=
  (∀ s t : State, exec .dmaBeat s = .next t →
    (List.range 90).map t.led.levelAt = bitPeriod s.led.staging[s.led.dmaPos] ∧
    ∀ tick : Nat, t.led.levelAt tick = decide (tick < s.led.staging[s.led.dmaPos].toNat)) ∧
  (∀ (s : State) (tick : Nat), s.led.dmaEn = false → s.led.levelAt tick = false)

/-- Once two refills have written the reset value, every beat of the transfer emits `DUTY_RESET`, however late the reload handlers
are (42_encoder.md R111 corner case (c), R116). -/
def Obligations.BeatsAfterTwoResetRefillsEmitReset : Prop :=
  ∀ s t : State, s.Inv → 2 ≤ s.led.resetCount → exec .dmaBeat s = .next t → t.trace = s.trace ++ [.duty 0]

/-- One frame on the wire (30_encoding.md R71, 42_encoder.md R116, R117): a `LED.REFRESH` performed in any reachable state and served
under the zero-latency schedule emits the pixels of `next` as it was, in index order, then reset values up to `24 * max(1, L +
RESET_REFILLS - 2)` in all, then the completion callback if a handler is registered; it ends with the engine idle, the latch set and
the wire low. -/
def Obligations.TransferEmitsTheWholeFrame : Prop :=
  ∀ (s : State) (n : U16), s.Inv → s.led.busy = false →
    ∃ u t, exec (.ledRefresh n) s = .next u ∧
      dmaRun (transferHalves (min n.toNat s.cfg.maxLeds) s.cfg.resetRefills) u = .next t ∧
      t.trace = s.trace ++
        (transferDuties (s.led.nextBuf.take (min n.toNat s.cfg.maxLeds)) s.cfg.resetRefills).map Event.duty ++
        (s.led.tcCb.toList.map fun h => .transferComplete h) ∧
      t.led.busy = false ∧ t.led.dmaEn = false ∧ t.led.finished = true ∧ t.led.line = none ∧
      t.led.currentBuf = s.led.nextBuf ∧ t.led.nextBuf = s.led.nextBuf

/-! The edge-triggered parser. -/

/-- R126: the timeout is strict and modular and acts before the byte; the byte is then green, red or blue of the pixel; on blue the
colour is reported with the index before the increment, if a handler is registered. -/
def Obligations.EpByteBuildsPixels : Prop :=
  ∀ (now : U32) (b : Byte) (s : State),
    decode (0x20#8 ++ now ++ (0#16 ++ b)) = .ok (.epByte now b) ∧
    (10 < (now - s.ep.lastT).toNat →
      exec (.epByte now b) s = .next
        { s with
          ep := { s.ep with cyc := .red, pixIdx := 0, pend := { r := 0, g := b, b := 0 }, lastT := now }
          rsp := none }) ∧
    ((now - s.ep.lastT).toNat ≤ 10 → s.ep.cyc = .green →
      exec (.epByte now b) s = .next
        { s with ep := { s.ep with cyc := .red, pend := { s.ep.pend with g := b }, lastT := now }, rsp := none }) ∧
    ((now - s.ep.lastT).toNat ≤ 10 → s.ep.cyc = .red →
      exec (.epByte now b) s = .next
        { s with ep := { s.ep with cyc := .blue, pend := { s.ep.pend with r := b }, lastT := now }, rsp := none }) ∧
    ((now - s.ep.lastT).toNat ≤ 10 → s.ep.cyc = .blue →
      exec (.epByte now b) s = .next
        { s with
          ep :=
            { s.ep with
              cyc := .green, pixIdx := s.ep.pixIdx + 1, pend := { r := 0, g := 0, b := 0 }, lastT := now }
          trace := s.trace ++
            (s.ep.cbColor.toList.map fun h =>
              .colorUpdated .ep h s.ep.pixIdx { r := s.ep.pend.r, g := s.ep.pend.g, b := b })
          rsp := none })

/-- R127: the edge records the running index, restarts the pixel cycle and the index, leaves the pending colour and the timestamp, and
reports the frame if a handler is registered. -/
def Obligations.EpEdgeRecordsTheCount : Prop :=
  ∀ s : State,
    decode 0x2100000000000000 = .ok .epEdge ∧
    exec .epEdge s = .next
      { s with
        ep := { s.ep with frameCount := s.ep.pixIdx, cyc := .green, pixIdx := 0 }
        trace := s.trace ++ (s.ep.cbFrame.toList.map fun h => .frameComplete .ep h)
        rsp := none }

/-- R129: `EP.GETCOUNT` answers the recorded count and writes no state. -/
def Obligations.EpGetCountReadsTheRecord : Prop :=
  ∀ s : State,
    decode 0x2400000000000000 = .ok .epGetCount ∧
    exec .epGetCount s = .next { s with rsp := some (0x8000#16 ++ s.ep.frameCount) }

/-- A whole edge-terminated frame (43_parser_edge.md R131, 30_encoding.md R66): from the start of a frame, the bytes of any pixels with
no gap inside them and then the edge give one `color_updated` per pixel, indices 0, 1, ... in order, then one `frame_complete`, and
the recorded count is the number of pixels. -/
def Obligations.EdgeFrameIsReported : Prop :=
  ∀ (s : State) (pixels : List Color) (bytes : List (U32 × Byte)),
    s.ep.cyc = .green → s.ep.pixIdx = 0 → pixels.length ≤ 65535 →
    bytes.map Prod.snd = edgeFrame pixels → steady bytes = true →
    ∃ t, execAll (epStream bytes ++ [.epEdge]) s = .next t ∧
      t.trace = s.trace ++
        (pixels.zipIdx.flatMap fun x =>
          s.ep.cbColor.toList.map fun h => .colorUpdated .ep h (BitVec.ofNat 16 x.2) x.1) ++
        (s.ep.cbFrame.toList.map fun h => .frameComplete .ep h) ∧
      t.ep.frameCount.toNat = pixels.length ∧ t.ep.cyc = .green ∧ t.ep.pixIdx = 0 ∧
      t.fifo = s.fifo ∧ t.led = s.led ∧ t.hp = s.hp

/-! The header-framed parser. -/

/-- The transition table of the header-framed parser (44_parser_header.md R135), with the timeout step before it (R136): the state
`p` in which the byte is examined is the parser's state, or `Header, 0` with the index and the pending colour zeroed after more than
10 ms; every byte then takes exactly one row. -/
def Obligations.HpByteTakesOneRow : Prop :=
  ∀ (now : U32) (b : Byte) (s : State) (p : Hp),
    p = (if 10 < (now - s.hp.lastT).toNat then
          { s.hp with st := .header .magicByte1, pixIdx := 0, pend := { r := 0, g := 0, b := 0 }, lastT := now }
        else { s.hp with lastT := now }) →
    decode (0x30#8 ++ now ++ (0#16 ++ b)) = .ok (.hpByte now b) ∧
    (p.st = .header .magicByte1 →
      exec (.hpByte now b) s = .next
        { s with hp := { p with st := .header (if b = 0x41 then .magicByte2 else .magicByte1) }, rsp := none }) ∧
    (p.st = .header .magicByte2 →
      exec (.hpByte now b) s = .next
        { s with hp := { p with st := .header (if b = 0x64 then .magicByte3 else .magicByte1) }, rsp := none }) ∧
    (p.st = .header .magicByte3 →
      exec (.hpByte now b) s = .next
        { s with hp := { p with st := .header (if b = 0x61 then .lengthHi else .magicByte1) }, rsp := none }) ∧
    (p.st = .header .lengthHi →
      exec (.hpByte now b) s = .next { s with hp := { p with st := .header .lengthLo, lenHi := b }, rsp := none }) ∧
    (p.st = .header .lengthLo →
      exec (.hpByte now b) s = .next { s with hp := { p with st := .header .checksum, lenLo := b }, rsp := none }) ∧
    (p.st = .header .checksum → b = p.lenHi ^^^ p.lenLo ^^^ 0x55 →
      exec (.hpByte now b) s = .next
        { s with
          hp := { p with st := .ledGreen, cnt := BitVec.ofNat 16 (256 * p.lenHi.toNat + p.lenLo.toNat), pixIdx := 0 }
          rsp := none }) ∧
    (p.st = .header .checksum → b ≠ p.lenHi ^^^ p.lenLo ^^^ 0x55 →
      exec (.hpByte now b) s = .next
        { s with hp := { p with st := .header .magicByte1, lenHi := 0, lenLo := 0 }, rsp := none }) ∧
    (p.st = .ledGreen →
      exec (.hpByte now b) s = .next { s with hp := { p with st := .ledRed, pend := { p.pend with g := b } }, rsp := none }) ∧
    (p.st = .ledRed →
      exec (.hpByte now b) s = .next { s with hp := { p with st := .ledBlue, pend := { p.pend with r := b } }, rsp := none }) ∧
    (p.st = .ledBlue → (p.pixIdx + 1).toNat < p.cnt.toNat →
      exec (.hpByte now b) s = .next
        { s with
          hp := { p with st := .ledGreen, pixIdx := p.pixIdx + 1, pend := { r := 0, g := 0, b := 0 } }
          trace := s.trace ++
            (p.cbColor.toList.map fun h => .colorUpdated .hp h p.pixIdx { r := p.pend.r, g := p.pend.g, b := b })
          rsp := none }) ∧
    (p.st = .ledBlue → p.cnt.toNat ≤ (p.pixIdx + 1).toNat →
      exec (.hpByte now b) s = .next
        { s with
          hp := { p with st := .header .magicByte1, pixIdx := 0, pend := { r := 0, g := 0, b := 0 } }
          trace := s.trace ++
            (p.cbColor.toList.map fun h => .colorUpdated .hp h p.pixIdx { r := p.pend.r, g := p.pend.g, b := b }) ++
            (p.cbFrame.toList.map fun h => .frameComplete .hp h)
          rsp := none })

/-- A whole header-framed frame (44_parser_header.md R144 item 1, 30_encoding.md R67): while the parser looks for a header, the bytes
of a frame of any 1 to 65535 pixels with no gap inside them give exactly one `color_updated` per pixel, indices 0, 1, ... in order,
then one `frame_complete`, and leave the parser looking for the next header. -/
def Obligations.HeaderFrameIsReported : Prop :=
  ∀ (s : State) (pixels : List Color) (bytes : List (U32 × Byte)),
    s.hp.st = .header .magicByte1 → 1 ≤ pixels.length → pixels.length ≤ 65535 →
    bytes.map Prod.snd = headerFrame pixels → steady bytes = true →
    ∃ t, execAll (hpStream bytes) s = .next t ∧
      t.trace = s.trace ++
        (pixels.zipIdx.flatMap fun x =>
          s.hp.cbColor.toList.map fun h => .colorUpdated .hp h (BitVec.ofNat 16 x.2) x.1) ++
        (s.hp.cbFrame.toList.map fun h => .frameComplete .hp h) ∧
      t.hp.st = .header .magicByte1 ∧ t.hp.pixIdx = 0 ∧ t.hp.cnt.toNat = pixels.length ∧
      t.fifo = s.fifo ∧ t.led = s.led ∧ t.ep = s.ep

/-- A corrupted checksum (44_parser_header.md R144 item 2, R139): a header with any count and any other byte in the place of its checksum
gives no event and leaves the parser looking for a header, from where the next frame is accepted. -/
def Obligations.BadChecksumRestartsTheSearch : Prop :=
  ∀ (s : State) (hi lo x : Byte) (bytes : List (U32 × Byte)),
    s.hp.st = .header .magicByte1 → x ≠ hi ^^^ lo ^^^ 0x55 →
    bytes.map Prod.snd = [0x41, 0x64, 0x61, hi, lo, x] → steady bytes = true →
    ∃ t, execAll (hpStream bytes) s = .next t ∧ t.trace = s.trace ∧ t.hp.st = .header .magicByte1 ∧
      t.hp.cnt = s.hp.cnt ∧ t.hp.lenHi = 0 ∧ t.hp.lenLo = 0

/-- A declared count of 0 behaves as 1 (44_parser_header.md R141): one pixel is consumed and reported, then the frame. -/
def Obligations.ZeroCountBehavesAsOne : Prop :=
  ∀ (s : State) (c : Color) (bytes : List (U32 × Byte)),
    s.hp.st = .header .magicByte1 →
    bytes.map Prod.snd = [0x41, 0x64, 0x61, 0x00, 0x00, 0x55, c.g, c.r, c.b] → steady bytes = true →
    ∃ t, execAll (hpStream bytes) s = .next t ∧
      t.trace = s.trace ++ (s.hp.cbColor.toList.map fun h => .colorUpdated .hp h 0 c) ++
        (s.hp.cbFrame.toList.map fun h => .frameComplete .hp h) ∧
      t.hp.st = .header .magicByte1 ∧ t.hp.pixIdx = 0 ∧ t.hp.cnt = 0

/-- R147: `HP.INIT` puts the parser at its start, leaves the handler slots and every other block, and emits the announcement to the byte
sink, byte by byte in order. -/
def Obligations.HpInitRestartsAndAnnounces : Prop :=
  ∀ s : State,
    decode 0x3400000000000000 = .ok .hpInit ∧
    exec .hpInit s = .next
      { s with
        hp :=
          { st := .header .magicByte1, lenHi := 0, lenLo := 0, cnt := 0, pixIdx := 0
            pend := { r := 0, g := 0, b := 0 }, lastT := 0, cbColor := s.hp.cbColor, cbFrame := s.hp.cbFrame }
        trace := s.trace ++ s.cfg.announce.map Event.sink
        rsp := some 0 }

/-! Reset. -/

/-- `SYS.RESET` (70_reset_and_hazards.md R170, R171, 10_state.md R33, R34): from any state, also during a transfer, every register of the
four blocks but `FIFO.OUT` takes its reset value and the trace is empty; the parameters are unchanged. `FIFO.OUT` is not said (it is
unspecified); requests that are held stay held (corner case (b)). -/
def Obligations.SysResetSetsEveryRegister : Prop :=
  ∀ s : State, ∃ t, exec .sysReset s = .next t ∧
    t.fifo = { store := List.replicate s.cfg.fifoN 0, head := 0, tail := 0, count := 0, out := t.fifo.out } ∧
    t.led =
      { buf0 := List.replicate s.cfg.maxLeds { r := 0, g := 0, b := 0 }
        buf1 := List.replicate s.cfg.maxLeds { r := 0, g := 0, b := 0 }
        sel := false, staging := Vector.replicate 48 0, ledCount := 0, pixelCursor := 0, bitCursor := 0, resetCount := 0
        busy := false, finished := false, dmaEn := false, dmaPos := 0, htPend := false, tcPend := false, tcCb := none
        line := none } ∧
    t.ep =
      { cyc := .green, pixIdx := 0, lastT := 0, pend := { r := 0, g := 0, b := 0 }, frameCount := 0
        cbColor := none, cbFrame := none } ∧
    t.hp =
      { st := .header .magicByte1, lenHi := 0, lenLo := 0, cnt := 0, pixIdx := 0, pend := { r := 0, g := 0, b := 0 }
        lastT := 0, cbColor := none, cbFrame := none } ∧
    t.trace = [] ∧ t.rsp = some 0 ∧ t.cfg = s.cfg ∧ t.held = s.held ∧ t.input = s.input

/-- R34: the machine after reset, for every choice of the parameters, holds the values of the table of R34, and the FIFO those of R33. -/
def Obligations.ResetStateHoldsTheTableValues : Prop :=
  ∀ c : Config,
    (State.resetWith c).led =
      { buf0 := List.replicate c.maxLeds { r := 0, g := 0, b := 0 }
        buf1 := List.replicate c.maxLeds { r := 0, g := 0, b := 0 }
        sel := false, staging := Vector.replicate 48 0, ledCount := 0, pixelCursor := 0, bitCursor := 0, resetCount := 0
        busy := false, finished := false, dmaEn := false, dmaPos := 0, htPend := false, tcPend := false, tcCb := none
        line := none } ∧
    (State.resetWith c).ep =
      { cyc := .green, pixIdx := 0, lastT := 0, pend := { r := 0, g := 0, b := 0 }, frameCount := 0
        cbColor := none, cbFrame := none } ∧
    (State.resetWith c).hp =
      { st := .header .magicByte1, lenHi := 0, lenLo := 0, cnt := 0, pixIdx := 0, pend := { r := 0, g := 0, b := 0 }
        lastT := 0, cbColor := none, cbFrame := none } ∧
    (State.resetWith c).fifo.store = List.replicate c.fifoN 0 ∧ (State.resetWith c).fifo.head = 0 ∧
    (State.resetWith c).fifo.tail = 0 ∧ (State.resetWith c).fifo.count = 0 ∧ (State.resetWith c).trace = []

/-- R36: after reset the first byte is taken the same way whatever the clock reads: the timeout branch, if taken, writes the values the
registers already hold. -/
def Obligations.FirstByteAfterResetWhateverTheClock : Prop :=
  ∀ (c : Config) (now : U32) (b : Byte),
    exec (.epByte now b) (State.resetWith c) = .next
      { State.resetWith c with ep := { Ep.atReset with cyc := .red, pend := { r := 0, g := b, b := 0 }, lastT := now } } ∧
    exec (.hpByte now b) (State.resetWith c) = .next
      { State.resetWith c with
        hp := { Hp.atReset with st := .header (if b = 0x41 then .magicByte2 else .magicByte1), lastT := now } }

/-- The machine after reset meets the invariant, for all well-formed parameters. -/
def Obligations.ResetMeetsTheInvariant : Prop :=
  (∀ c : Config, c.wf → (State.resetWith c).Inv) ∧ State.reset.Inv

/-! The whole machine. -/

/-- Every step keeps the invariant: the parameters and the three storages keep their sizes, `head = (tail + count) mod N` (10_state.md
R14), the transfer registers stay in range (R21), `dma_en = busy` (R23), at most one reload interrupt is pending (42_encoder.md R110),
the staging buffer holds legal duty values only (R20), the wire is low while the generator is disabled (R26), and the header
parser's index stays below its count (44_parser_header.md R143). -/
def Obligations.StepKeepsTheInvariant : Prop :=
  ∀ s t : State, s.Inv → step s = .next t → t.Inv

/-- Every step keeps the storage form on its own, from every state that has it: each of the three storages keeps its size (10_state.md
R13, R18, R20, 20_memory.md R40; the form is the model's, log 11). -/
def Obligations.StepKeepsTheStorageForm : Prop :=
  ∀ s t : State, Memory.wf s → step s = .next t → Memory.wf t

/-- R6: the parameters are fixed when the hardware is built and never change afterwards. -/
def Obligations.ParametersNeverChange : Prop :=
  ∀ s t : State, step s = .next t → t.cfg = s.cfg

/-- "No block reads or writes another block's state" (10_state.md R10), the writing: a transition of one block leaves the state of the
three others as it was; no transition touches what the environment will do. -/
def Obligations.NoBlockWritesAnother : Prop :=
  ∀ (i : Instr) (s t : State), exec i s = .next t →
    (i.block ≠ .fifo → i.block ≠ .sys → t.fifo = s.fifo) ∧ (i.block ≠ .led → i.block ≠ .sys → t.led = s.led) ∧
    (i.block ≠ .ep → i.block ≠ .sys → t.ep = s.ep) ∧ (i.block ≠ .hp → i.block ≠ .sys → t.hp = s.hp) ∧
    (i.block ≠ .led → t.held = s.held) ∧ (i.block ≠ .sys → t.freeCtr = s.freeCtr) ∧ t.input = s.input ∧ t.cfg = s.cfg

/-- "No block reads or writes another block's state" (10_state.md R10), the reading: in two states that agree on the parameters and on the
transition's own block, the transition does the same to that block, answers the same and emits the same events. -/
def Obligations.NoBlockReadsAnother : Prop :=
  ∀ (i : Instr) (s s' t : State), s.cfg = s'.cfg →
    (i.block = .fifo ∧ s.fifo = s'.fifo ∨ i.block = .led ∧ s.led = s'.led ∨ i.block = .ep ∧ s.ep = s'.ep ∨
      i.block = .hp ∧ s.hp = s'.hp) →
    exec i s = .next t →
    ∃ t' new, exec i s' = .next t' ∧ t'.rsp = t.rsp ∧ t.trace = s.trace ++ new ∧ t'.trace = s'.trace ++ new ∧
      (i.block = .fifo → t'.fifo = t.fifo) ∧ (i.block = .led → t'.led = t.led) ∧ (i.block = .ep → t'.ep = t.ep) ∧
      (i.block = .hp → t'.hp = t.hp)

/-- The trace only grows, but for reset; a callback event is emitted only when its slot is not none, and carries the identifier of the slot
it was sent to (10_state.md R39, 60_exceptions.md R155); duty values come from `DMA.BEAT` only, sink bytes from `HP.INIT` only. -/
def Obligations.EventsGoToRegisteredHandlers : Prop :=
  ∀ (i : Instr) (s t : State), exec i s = .next t → i ≠ .sysReset →
    ∃ new, t.trace = s.trace ++ new ∧
      (∀ h idx c, .colorUpdated .ep h idx c ∈ new → s.ep.cbColor = some h ∧ i.block = .ep) ∧
      (∀ h idx c, .colorUpdated .hp h idx c ∈ new → s.hp.cbColor = some h ∧ i.block = .hp) ∧
      (∀ h, .frameComplete .ep h ∈ new → s.ep.cbFrame = some h ∧ i = .epEdge) ∧
      (∀ h, .frameComplete .hp h ∈ new → s.hp.cbFrame = some h ∧ i.block = .hp) ∧
      (∀ h, .transferComplete h ∈ new → s.led.tcCb = some h ∧ (i = .irqHt ∨ i = .irqTc)) ∧
      (∀ d, .duty d ∈ new → i = .dmaBeat) ∧ (∀ b, .sink b ∈ new → i = .hpInit ∧ b ∈ s.cfg.announce)

/-- From every reachable state a transition emits legal duty values only (10_state.md R20). -/
def Obligations.EmittedDutiesAreLegal : Prop :=
  ∀ (i : Instr) (s t : State) (new : List Event) (d : Byte),
    s.Inv → exec i s = .next t → t.trace = s.trace ++ new → .duty d ∈ new → d = 57 ∨ d = 34 ∨ d = 0

/-- R61: an event has no response; an operation has one, whose bits 30:24 are zero, except a `LED.REFRESH` while it is held. -/
def Obligations.ResponsesFollowTheRequest : Prop :=
  ∀ (i : Instr) (s t : State), exec i s = .next t →
    (i.isEvent = true → t.rsp = none) ∧
    (i.isEvent = false → (∀ n, i ≠ .ledRefresh n) ∨ s.led.busy = false →
      ∃ w, t.rsp = some w ∧ w.extractLsb' 24 7 = 0) ∧
    (∀ n, i = .ledRefresh n → s.led.busy = true → t.rsp = none)

/-- When an instruction answers a next state at all (60_exceptions.md R150, 93_implementation_defined.md U16, 42_encoder.md R110, R111,
R113, R114): every operation and every byte or edge event does in every state; `IRQ.HT` and `IRQ.TC` exactly while pending;
`DMA.BEAT` exactly while the generator runs and no reload handler is late. That `LED.REFRESH` answers at `busy = 1`, where it is not
enabled and its requester is held (00_scope.md R7, 41_framebuffer.md R96), is the model's choice (DESIGN CHOICE of log 4), and that an
event which is not enabled is refused is log 13's. -/
def Obligations.WhenATransitionCompletes : Prop :=
  ∀ (i : Instr) (s : State),
    (i ≠ .dmaBeat → i ≠ .irqHt → i ≠ .irqTc → ∃ t, exec i s = .next t) ∧
    ((∃ t, exec .irqHt s = .next t) ↔ s.led.htPend = true) ∧ ((∃ t, exec .irqTc s = .next t) ↔ s.led.tcPend = true) ∧
    ((∃ t, exec .dmaBeat s = .next t) ↔
      s.led.dmaEn = true ∧ ¬(s.led.dmaPos.val = 23 ∧ s.led.tcPend = true) ∧ ¬(s.led.dmaPos.val = 47 ∧ s.led.htPend = true))

/-- At rest (70_reset_and_hazards.md R173; held requests do not count, DESIGN CHOICE of log 22): in a reachable quiescent state no `DMA.BEAT`, `IRQ.HT` or `IRQ.TC` is enabled, a
`LED.REFRESH` is, and the wire is low. -/
def Obligations.NothingRunsWhenQuiescent : Prop :=
  ∀ s : State, s.Inv → s.Quiescent →
    exec .dmaBeat s = .refused .dmaNotEnabled ∧ exec .irqHt s = .refused .htNotPending ∧
    exec .irqTc s = .refused .tcNotPending ∧ (∀ n, ∃ t, exec (.ledRefresh n) s = .next t ∧ t.led.busy = true) ∧
    ∀ tick, s.led.levelAt tick = false

/-- A step stops only for the reasons the spec gives: it was asked for an illegal word, for an event that is not enabled, or for a beat
while a reload handler is late during a transfer (30_encoding.md R64, 93_implementation_defined.md U16, 42_encoder.md R113; "There is
no fatal/abort path in the core", 60_exceptions.md R150). -/
def Obligations.TheOnlyReasonsToStop : Prop :=
  ∀ s : State,
    (∀ f, step s = .fault f → ∃ w rest, s.input = .request w :: rest ∧ decode w = .ok .dmaBeat ∧ s.led.dmaEn = true ∧
      ((f = .reloadOverrun .half1 ∧ s.led.dmaPos.val = 23 ∧ s.led.tcPend = true) ∨
        (f = .reloadOverrun .half0 ∧ s.led.dmaPos.val = 47 ∧ s.led.htPend = true))) ∧
    (∀ r, step s = .refused r → ∃ w rest, s.input = .request w :: rest ∧
      ((∃ e, decode w = .error e ∧ r = .illegalWord e) ∨
        (decode w = .ok .dmaBeat ∧ r = .dmaNotEnabled ∧ s.led.dmaEn = false) ∨
        (decode w = .ok .irqHt ∧ r = .htNotPending ∧ s.led.htPend = false) ∨
        (decode w = .ok .irqTc ∧ r = .tcNotPending ∧ s.led.tcPend = false)))

/-! The environment's premises, and what happens when one is broken (70_reset_and_hazards.md R188). -/

/-- A run within the premises of R188 does not stop, but for a beat presented while the generator is disabled, which is no act of the
DMA (42_encoder.md R110 corner case (d)). The schedules are the model's form (log 23). -/
def Obligations.ARunWithinThePremisesGoesOn : Prop :=
  ∀ (e : Environment) (acts : List Act) (s : State), e.Premises acts s →
    (∃ t, runUnder acts s = .next t) ∨ runUnder acts s = .refused .dmaNotEnabled

/-- `P_context` broken (70_reset_and_hazards.md R178): as long as no reload handler runs, and no reset comes, a transfer does not end and
a held `LED.REFRESH` stays held: scheduling it is only a stimulus used up. The list of held requests is the model's (log 4). -/
def Obligations.AHeldRefreshHangsWithoutReload : Prop :=
  ∀ (is : List Instr) (s t : State), s.led.busy = true → (∀ i ∈ is, i ≠ .irqHt ∧ i ≠ .irqTc ∧ i ≠ .sysReset) →
    execAll is s = .next t →
    t.led.busy = true ∧
    ∀ (k : Nat) (n : U16) (rest : List Stimulus), s.held[k]? = some n →
      t.held[k]? = some n ∧
        step { t with input := .resume k :: rest } = .next { t with input := rest, rsp := none }

/-- `P_deliver` or `P_deadline` broken for a reload interrupt (70_reset_and_hazards.md R177, 42_encoder.md R113): when its handler has not
run by the time the DMA is back at the half it refills, the beat that gets there is the fault of that half. -/
def Obligations.ALostReloadInterruptOverruns : Prop :=
  ∀ s : State, s.led.DmaInv →
    (s.led.htPend = true →
      execAll (List.replicate (48 - s.led.dmaPos.val) .dmaBeat) s = .fault (.reloadOverrun .half0)) ∧
    (s.led.tcPend = true →
      execAll (List.replicate (24 - s.led.dmaPos.val) .dmaBeat) s = .fault (.reloadOverrun .half1))

/-- `P_clock` broken (60_exceptions.md R160, 43_parser_edge.md R126 corner case (f)): a byte whose millisecond counter `T'` is earlier than
the `T` of the byte before, by less than `2^32 - 10`, is a timeout in both parsers: it starts a pixel, or a header. -/
def Obligations.AClockThatGoesBackIsATimeout : Prop :=
  ∀ (T T' : Nat) (b : Byte) (s : State), T' < T → T - T' + 10 < 2 ^ 32 →
    (s.ep.lastT = BitVec.ofNat 32 T →
      exec (.epByte (BitVec.ofNat 32 T') b) s = .next
        { s with
          ep := { s.ep with cyc := .red, pixIdx := 0, pend := { r := 0, g := b, b := 0 }, lastT := BitVec.ofNat 32 T' }
          rsp := none }) ∧
    (s.hp.lastT = BitVec.ofNat 32 T →
      exec (.hpByte (BitVec.ofNat 32 T') b) s = .next
        { s with
          hp :=
            { s.hp with
              st := .header (if b = 0x41 then .magicByte2 else .magicByte1), pixIdx := 0, pend := { r := 0, g := 0, b := 0 }
              lastT := BitVec.ofNat 32 T' }
          rsp := none })
end

