-- ==== Sys2Proof/Laws/State.lean ====
section
/-! SUPPORT. What each update of the state leaves: one lemma per field per update. -/

namespace Sys2Proof.Machine

@[simp] theorem State.respond_rsp (s : State) (ok : Bool) (data : BitVec 24) : (s.respond ok data).rsp = some (rspWord ok data) := rfl
@[simp] theorem State.respond_cfg (s : State) (ok : Bool) (data : BitVec 24) : (s.respond ok data).cfg = s.cfg := rfl
@[simp] theorem State.respond_fifo (s : State) (ok : Bool) (data : BitVec 24) : (s.respond ok data).fifo = s.fifo := rfl
@[simp] theorem State.respond_led (s : State) (ok : Bool) (data : BitVec 24) : (s.respond ok data).led = s.led := rfl
@[simp] theorem State.respond_ep (s : State) (ok : Bool) (data : BitVec 24) : (s.respond ok data).ep = s.ep := rfl
@[simp] theorem State.respond_hp (s : State) (ok : Bool) (data : BitVec 24) : (s.respond ok data).hp = s.hp := rfl
@[simp] theorem State.respond_trace (s : State) (ok : Bool) (data : BitVec 24) : (s.respond ok data).trace = s.trace := rfl
@[simp] theorem State.respond_held (s : State) (ok : Bool) (data : BitVec 24) : (s.respond ok data).held = s.held := rfl
@[simp] theorem State.respond_input (s : State) (ok : Bool) (data : BitVec 24) : (s.respond ok data).input = s.input := rfl
@[simp] theorem State.respond_freeCtr (s : State) (ok : Bool) (data : BitVec 24) : (s.respond ok data).freeCtr = s.freeCtr := rfl

@[simp] theorem State.respondNone_rsp (s : State) : (s.respondNone).rsp = some rspNone := rfl
@[simp] theorem State.respondNone_cfg (s : State) : (s.respondNone).cfg = s.cfg := rfl
@[simp] theorem State.respondNone_fifo (s : State) : (s.respondNone).fifo = s.fifo := rfl
@[simp] theorem State.respondNone_led (s : State) : (s.respondNone).led = s.led := rfl
@[simp] theorem State.respondNone_ep (s : State) : (s.respondNone).ep = s.ep := rfl
@[simp] theorem State.respondNone_hp (s : State) : (s.respondNone).hp = s.hp := rfl
@[simp] theorem State.respondNone_trace (s : State) : (s.respondNone).trace = s.trace := rfl
@[simp] theorem State.respondNone_held (s : State) : (s.respondNone).held = s.held := rfl
@[simp] theorem State.respondNone_input (s : State) : (s.respondNone).input = s.input := rfl
@[simp] theorem State.respondNone_freeCtr (s : State) : (s.respondNone).freeCtr = s.freeCtr := rfl

@[simp] theorem State.noResponse_rsp (s : State) : (s.noResponse).rsp = none := rfl
@[simp] theorem State.noResponse_cfg (s : State) : (s.noResponse).cfg = s.cfg := rfl
@[simp] theorem State.noResponse_fifo (s : State) : (s.noResponse).fifo = s.fifo := rfl
@[simp] theorem State.noResponse_led (s : State) : (s.noResponse).led = s.led := rfl
@[simp] theorem State.noResponse_ep (s : State) : (s.noResponse).ep = s.ep := rfl
@[simp] theorem State.noResponse_hp (s : State) : (s.noResponse).hp = s.hp := rfl
@[simp] theorem State.noResponse_trace (s : State) : (s.noResponse).trace = s.trace := rfl
@[simp] theorem State.noResponse_held (s : State) : (s.noResponse).held = s.held := rfl
@[simp] theorem State.noResponse_input (s : State) : (s.noResponse).input = s.input := rfl
@[simp] theorem State.noResponse_freeCtr (s : State) : (s.noResponse).freeCtr = s.freeCtr := rfl

@[simp] theorem State.performRefresh_led (n : U16) (s : State) : (s.performRefresh n).led = s.led.start s.cfg n := rfl
@[simp] theorem State.performRefresh_rsp (n : U16) (s : State) : (s.performRefresh n).rsp = some (rspWord true 0) := rfl
@[simp] theorem State.performRefresh_cfg (n : U16) (s : State) : (s.performRefresh n).cfg = s.cfg := rfl
@[simp] theorem State.performRefresh_fifo (n : U16) (s : State) : (s.performRefresh n).fifo = s.fifo := rfl
@[simp] theorem State.performRefresh_ep (n : U16) (s : State) : (s.performRefresh n).ep = s.ep := rfl
@[simp] theorem State.performRefresh_hp (n : U16) (s : State) : (s.performRefresh n).hp = s.hp := rfl
@[simp] theorem State.performRefresh_trace (n : U16) (s : State) : (s.performRefresh n).trace = s.trace := rfl
@[simp] theorem State.performRefresh_held (n : U16) (s : State) : (s.performRefresh n).held = s.held := rfl
@[simp] theorem State.performRefresh_input (n : U16) (s : State) : (s.performRefresh n).input = s.input := rfl
@[simp] theorem State.performRefresh_freeCtr (n : U16) (s : State) : (s.performRefresh n).freeCtr = s.freeCtr := rfl

end Sys2Proof.Machine
end

