-- ==== Sys2Proof/Laws/Ops.lean ====
section
/-! SUPPORT. One lemma per shared operation that says what it does, and that each operation on a storage keeps its form. -/

namespace Sys2Proof.Machine

/-! The accesses. -/

@[simp] theorem memWrite_length {α : Type} (space : List α) (i : Nat) (v : α) :
    (memWrite space i v).length = space.length := by
  simp [memWrite]

/-- A write is read back at its index and nowhere else. -/
theorem getElem?_memWrite {α : Type} (space : List α) (i j : Nat) (v : α) :
    (memWrite space i v)[j]? = if j = i ∧ i < space.length then some v else space[j]? := by
  unfold memWrite
  rw [List.getElem?_set]
  by_cases h : i = j
  · subst h
    by_cases hl : i < space.length
    · simp [hl]
    · simp [hl]
  · have : ¬ j = i := fun e => h e.symm
    simp [h, this]

@[simp] theorem memFill_length {α : Type} (n : Nat) (v : α) (space : List α) :
    (memFill n v space).length = space.length := by
  induction n generalizing space with
  | zero => rfl
  | succ n ih => cases space with
    | nil => rfl
    | cons x rest => simp [memFill, ih]

/-- A fill is read back at the indices below `n` that the space has, and nowhere else. -/
theorem getElem?_memFill {α : Type} (n : Nat) (v : α) (space : List α) (j : Nat) :
    (memFill n v space)[j]? = if j < n ∧ j < space.length then some v else space[j]? := by
  induction n generalizing space j with
  | zero => simp [memFill]
  | succ n ih => cases space with
    | nil => simp [memFill]
    | cons x rest => cases j with
      | zero => simp [memFill]
      | succ j => simp [memFill, ih]

/-- A fill of one more index is the fill and one write. -/
theorem memFill_succ {α : Type} (n : Nat) (v : α) (space : List α) :
    memFill (n + 1) v space = memWrite (memFill n v space) n v := by
  induction n generalizing space with
  | zero => cases space <;> rfl
  | succ n ih => cases space with
    | nil => rfl
    | cons x rest =>
      have := ih rest
      simp only [memFill, memWrite, List.set_cons_succ] at this ⊢
      rw [this]

/-! Callbacks. -/

/-- A callback emits one event per registered handler: none or one. -/
theorem callback_eq (slot : Slot) (event : HandlerId → Event) : callback slot event = slot.toList.map event := by
  cases slot <;> rfl

theorem mem_callback {slot : Slot} {event : HandlerId → Event} {e : Event} :
    e ∈ callback slot event ↔ ∃ h, slot = some h ∧ e = event h := by
  cases slot with
  | none => simp [callback]
  | some h => simp [callback]

/-! The roles of the frame buffers. -/

/-- A write to the `next` role touches the two buffers only. -/
theorem setNextBuf_eq (l : Led) (b : List Color) :
    l.setNextBuf b =
      { l with buf0 := if l.sel then b else l.buf0, buf1 := if l.sel then l.buf1 else b } := by
  cases h : l.sel <;> simp [Led.setNextBuf, h]

@[simp] theorem setNextBuf_sel (l : Led) (b : List Color) : (l.setNextBuf b).sel = l.sel := by rw [setNextBuf_eq]

@[simp] theorem nextBuf_setNextBuf (l : Led) (b : List Color) : (l.setNextBuf b).nextBuf = b := by
  cases h : l.sel <;> simp [setNextBuf_eq, Led.nextBuf, h]

@[simp] theorem currentBuf_setNextBuf (l : Led) (b : List Color) : (l.setNextBuf b).currentBuf = l.currentBuf := by
  cases h : l.sel <;> simp [setNextBuf_eq, Led.currentBuf, h]

/-- The swap: the roles flip and both buffers hold what `next` held (41_framebuffer.md R93, R94). -/
theorem swapAndCopy_eq (l : Led) :
    l.swapAndCopy = { l with sel := !l.sel, buf0 := l.nextBuf, buf1 := l.nextBuf } := by
  cases h : l.sel <;> simp [Led.swapAndCopy, Led.setNextBuf, Led.currentBuf, Led.nextBuf, h]

/-! The staging buffer and the refill. -/

/-- A staged half is read back inside the half; the other half is untouched. -/
theorem getElem_stageHalf (staging : Vector Byte 48) (h : Half) (v : Nat → Byte) (k : Fin 48) :
    (stageHalf staging h v)[k] =
      if h.base ≤ k.val ∧ k.val < h.base + 24 then v (k.val - h.base) else staging[k] := by
  simp only [stageHalf, Fin.getElem_fin, Vector.getElem_ofFn]

/-- A refill writes the staging buffer and exactly one of the two counters. -/
theorem refill_pixel {l : Led} (h : Half) (hp : l.pixelCursor.toNat < l.ledCount.toNat) :
    l.refill h =
      { l with
        staging := stageHalf l.staging h (encodePixel (memRead l.currentBuf l.pixelCursor.toNat Color.zero))
        pixelCursor := l.pixelCursor + 1 } := by
  simp [Led.refill, hp]

theorem refill_reset {l : Led} (h : Half) (hp : ¬ l.pixelCursor.toNat < l.ledCount.toNat) :
    l.refill h =
      { l with staging := stageHalf l.staging h (fun _ => dutyReset), resetCount := l.resetCount + 1 } := by
  simp [Led.refill, hp]

/-- What a refill can do: a pixel or the reset value. -/
theorem refill_cases (l : Led) (h : Half) :
    (l.pixelCursor.toNat < l.ledCount.toNat ∧
      l.refill h =
        { l with
          staging := stageHalf l.staging h (encodePixel (memRead l.currentBuf l.pixelCursor.toNat Color.zero))
          pixelCursor := l.pixelCursor + 1 }) ∨
    (¬ l.pixelCursor.toNat < l.ledCount.toNat ∧
      l.refill h =
        { l with staging := stageHalf l.staging h (fun _ => dutyReset), resetCount := l.resetCount + 1 }) := by
  by_cases hp : l.pixelCursor.toNat < l.ledCount.toNat
  · exact .inl ⟨hp, refill_pixel h hp⟩
  · exact .inr ⟨hp, refill_reset h hp⟩

/-- What a refill leaves: all registers but the staging buffer and the two counters. -/
theorem refill_frame (l : Led) (h : Half) :
    l.refill h =
      { l with
        staging := (l.refill h).staging, pixelCursor := (l.refill h).pixelCursor
        resetCount := (l.refill h).resetCount } := by
  obtain ⟨-, e⟩ | ⟨-, e⟩ := refill_cases l h <;> rw [e]

/-- What a reload handler can do after its refill: complete the transfer, or go on. -/
theorem reload_cases (c : Config) (h : Half) (l : Led) :
    (c.resetRefills ≤ (l.refill h).resetCount ∧
      l.reload c h = ((l.refill h).complete, callback l.tcCb .transferComplete)) ∨
    ((l.refill h).resetCount < c.resetRefills ∧ l.reload c h = (l.refill h, [])) := by
  have hcb : (l.refill h).tcCb = l.tcCb := by rw [refill_frame]
  by_cases hr : c.resetRefills ≤ (l.refill h).resetCount
  · exact .inl ⟨hr, by simp [Led.reload, hr, hcb]⟩
  · exact .inr ⟨by omega, by simp [Led.reload, hr]⟩

/-! The DMA. -/

theorem dmaNext_val (p : Fin 48) : (dmaNext p).val = (p.val + 1) % 48 := rfl

/-- The advance of the DMA is the circular successor. -/
theorem dmaNext_eq (p : Fin 48) : dmaNext p = p + 1 := by
  apply Fin.ext
  simp [dmaNext, Fin.val_add]

/-- The beat that overruns: the one that leaves a half while the refill of the half it enters is pending. -/
theorem overrun_eq_none {l : Led} :
    l.overrun = none ↔ ¬(l.dmaPos.val = 23 ∧ l.tcPend = true) ∧ ¬(l.dmaPos.val = 47 ∧ l.htPend = true) := by
  have := l.dmaPos.isLt
  unfold Led.overrun
  rw [dmaNext_val]
  have e1 : (l.dmaPos.val + 1) % 48 = 24 ↔ l.dmaPos.val = 23 := by omega
  have e2 : (l.dmaPos.val + 1) % 48 = 0 ↔ l.dmaPos.val = 47 := by omega
  simp only [e1, e2]
  split
  · simp_all
  · split <;> simp_all

theorem overrun_eq_some {l : Led} {h : Half} :
    l.overrun = some h ↔
      (h = .half1 ∧ l.dmaPos.val = 23 ∧ l.tcPend = true) ∨ (h = .half0 ∧ l.dmaPos.val = 47 ∧ l.htPend = true) := by
  have := l.dmaPos.isLt
  unfold Led.overrun
  rw [dmaNext_val]
  have e1 : (l.dmaPos.val + 1) % 48 = 24 ↔ l.dmaPos.val = 23 := by omega
  have e2 : (l.dmaPos.val + 1) % 48 = 0 ↔ l.dmaPos.val = 47 := by omega
  simp only [e1, e2]
  split
  · rename_i hc; constructor
    · intro e; cases e; exact .inl ⟨rfl, hc⟩
    · rintro (⟨rfl, -⟩ | ⟨rfl, h47, -⟩)
      · rfl
      · omega
  · rename_i hc; split
    · rename_i hd; constructor
      · intro e; cases e; exact .inr ⟨rfl, hd⟩
      · rintro (⟨rfl, h⟩ | ⟨rfl, -⟩)
        · exact absurd h hc
        · rfl
    · rename_i hd; constructor
      · intro e; cases e
      · rintro (⟨-, h⟩ | ⟨-, h⟩)
        · exact absurd h hc
        · exact absurd h hd

/-! The form of the storage. -/

theorem push_store_length (c : Config) (v : Byte) (f : Fifo) : (f.push c v).store.length = f.store.length := by
  unfold Fifo.push; split <;> simp

theorem pop_store (c : Config) (f : Fifo) : (f.pop c).store = f.store := by
  unfold Fifo.pop; split <;> rfl

theorem zeroed_store_length (c : Config) (f : Fifo) : (f.zeroed c).store.length = c.fifoN := by
  simp [Fifo.zeroed]

theorem setPixel_lengths (c : Config) (idx : U16) (color : Color) (l : Led) :
    (l.setPixel c idx color).buf0.length = l.buf0.length ∧ (l.setPixel c idx color).buf1.length = l.buf1.length := by
  unfold Led.setPixel
  split
  · cases h : l.sel <;> simp [setNextBuf_eq, Led.nextBuf, h]
  · simp

theorem setAll_lengths (c : Config) (n : U16) (color : Color) (l : Led) :
    (l.setAll c n color).buf0.length = l.buf0.length ∧ (l.setAll c n color).buf1.length = l.buf1.length := by
  cases h : l.sel <;> simp [Led.setAll, setNextBuf_eq, Led.nextBuf, h]

theorem refill_bufs (h : Half) (l : Led) : (l.refill h).buf0 = l.buf0 ∧ (l.refill h).buf1 = l.buf1 := by
  rw [refill_frame]; exact ⟨rfl, rfl⟩

theorem reload_bufs (c : Config) (h : Half) (l : Led) :
    (l.reload c h).1.buf0 = l.buf0 ∧ (l.reload c h).1.buf1 = l.buf1 := by
  obtain ⟨-, e⟩ | ⟨-, e⟩ := reload_cases c h l <;> rw [e] <;> exact refill_bufs h l

/-- A transfer starts with both buffers holding what `next` held. -/
theorem start_bufs (c : Config) (n : U16) (l : Led) :
    (l.start c n).buf0 = l.nextBuf ∧ (l.start c n).buf1 = l.nextBuf := by
  have e0 := refill_bufs .half1
    (({ l.swapAndCopy with
        ledCount := BitVec.ofNat 16 (clampCount n c.maxLeds), pixelCursor := 0, bitCursor := 0, resetCount := 0 } : Led).refill
      .half0)
  have e1 := refill_bufs .half0
    ({ l.swapAndCopy with
        ledCount := BitVec.ofNat 16 (clampCount n c.maxLeds), pixelCursor := 0, bitCursor := 0, resetCount := 0 } : Led)
  constructor
  · exact (e0.1.trans e1.1).trans (by simp [swapAndCopy_eq])
  · exact (e0.2.trans e1.2).trans (by simp [swapAndCopy_eq])

/-- The storage after reset has its form. -/
theorem resetWith_memory_wf (c : Config) : Memory.wf (State.resetWith c) := by
  simp [Memory.wf, State.resetWith, Fifo.atReset, Led.atReset]

end Sys2Proof.Machine
end

