-- ==== Sys2Proof/Laws/Exec.lean ====
section
/-! SUPPORT. What a transition with more than one case can do when it answers a next state, and what a refill writes. -/

namespace Sys2Proof.Machine

/-! The refill (42_encoder.md R108). -/

theorem getElem_stageHalf0 (staging : Vector Byte 48) (v : Nat → Byte) (k : Fin 48) :
    (stageHalf staging .half0 v)[k] = if 24 ≤ k.val then staging[k] else v k.val := by
  rw [getElem_stageHalf]
  by_cases h : 24 ≤ k.val
  · rw [if_pos h]; exact if_neg fun c => by have := c.2; simp only [Half.base] at this; omega
  · rw [if_neg h]; exact if_pos ⟨Nat.zero_le _, by simp only [Half.base]; omega⟩

theorem getElem_stageHalf1 (staging : Vector Byte 48) (v : Nat → Byte) (k : Fin 48) :
    (stageHalf staging .half1 v)[k] = if k.val < 24 then staging[k] else v (k.val - 24) := by
  rw [getElem_stageHalf]
  by_cases h : k.val < 24
  · rw [if_pos h]; exact if_neg fun c => by have := c.1; simp only [Half.base] at this; omega
  · rw [if_neg h]; exact if_pos ⟨by simp only [Half.base]; omega, by simp only [Half.base]; omega⟩

theorem refill_staging_half0 (l : Led) (k : Fin 48) :
    (l.refill .half0).staging[k] =
      if 24 ≤ k.val then l.staging[k]
      else if l.pixelCursor.toNat < l.ledCount.toNat then
        encodePixel (l.currentBuf.getD l.pixelCursor.toNat Color.zero) k.val
      else 0 := by
  obtain ⟨hp, e⟩ | ⟨hp, e⟩ := refill_cases l .half0 <;> rw [e] <;>
    simp only [getElem_stageHalf0, hp, if_true, if_false, memRead, dutyReset]

theorem refill_staging_half1 (l : Led) (k : Fin 48) :
    (l.refill .half1).staging[k] =
      if k.val < 24 then l.staging[k]
      else if l.pixelCursor.toNat < l.ledCount.toNat then
        encodePixel (l.currentBuf.getD l.pixelCursor.toNat Color.zero) (k.val - 24)
      else 0 := by
  obtain ⟨hp, e⟩ | ⟨hp, e⟩ := refill_cases l .half1 <;> rw [e] <;>
    simp only [getElem_stageHalf1, hp, if_true, if_false, memRead, dutyReset]

theorem refill_pixelCursor (l : Led) (h : Half) :
    (l.refill h).pixelCursor =
      (if l.pixelCursor.toNat < l.ledCount.toNat then l.pixelCursor + 1 else l.pixelCursor) := by
  obtain ⟨hp, e⟩ | ⟨hp, e⟩ := refill_cases l h <;> rw [e] <;> simp [hp]

theorem refill_resetCount (l : Led) (h : Half) :
    (l.refill h).resetCount =
      (if l.pixelCursor.toNat < l.ledCount.toNat then l.resetCount else l.resetCount + 1) := by
  obtain ⟨hp, e⟩ | ⟨hp, e⟩ := refill_cases l h <;> rw [e] <;> simp [hp]

/-! Transitions with a guard. -/

theorem dmaBeat_next {s t : State} (h : execDmaBeat s = .next t) :
    s.led.dmaEn = true ∧ s.led.overrun = none ∧
      t = { s with led := s.led.beat, trace := s.trace ++ [Event.duty s.led.staging[s.led.dmaPos]], rsp := none } := by
  simp only [execDmaBeat] at h
  split at h
  · rename_i h1
    split at h
    · cases h
    · rename_i h2; injection h with h; exact ⟨h1, h2, h.symm⟩
  · cases h

theorem irqHt_next {s t : State} (h : execIrqHt s = .next t) :
    s.led.htPend = true ∧
      t = { s with
        led := (Led.reload s.cfg .half0 { s.led with htPend := false }).1
        trace := s.trace ++ (Led.reload s.cfg .half0 { s.led with htPend := false }).2
        rsp := none } := by
  simp only [execIrqHt] at h
  split at h
  · rename_i h1; injection h with h; exact ⟨h1, h.symm⟩
  · cases h

theorem irqTc_next {s t : State} (h : execIrqTc s = .next t) :
    s.led.tcPend = true ∧
      t = { s with
        led := (Led.reload s.cfg .half1 { s.led with tcPend := false }).1
        trace := s.trace ++ (Led.reload s.cfg .half1 { s.led with tcPend := false }).2
        rsp := none } := by
  simp only [execIrqTc] at h
  split at h
  · rename_i h1; injection h with h; exact ⟨h1, h.symm⟩
  · cases h

theorem ledRefresh_next {n : U16} {s t : State} (h : execLedRefresh n s = .next t) :
    (s.led.busy = true ∧ t = { s with held := s.held ++ [n], rsp := none }) ∨
      (s.led.busy = false ∧ t = s.performRefresh n) := by
  simp only [execLedRefresh] at h
  split at h
  · rename_i h1; injection h with h; exact .inl ⟨h1, h.symm⟩
  · rename_i h1; injection h with h; exact .inr ⟨by simpa using h1, h.symm⟩

/-- What a reload handler writes: the staging buffer and the two counters, and at the end of the transfer the completion. -/
theorem reload_frame (c : Config) (h : Half) (l : Led) :
    (∃ e, l.reload c h =
      ({ l with
        staging := (l.refill h).staging, pixelCursor := (l.refill h).pixelCursor, resetCount := (l.refill h).resetCount },
        e)) ∨
    (∃ e, l.reload c h =
      ({ l with
        staging := (l.refill h).staging, pixelCursor := (l.refill h).pixelCursor, resetCount := (l.refill h).resetCount
        dmaEn := false, busy := false, htPend := false, tcPend := false, finished := true, line := none }, e)) := by
  have fr := refill_frame l h
  obtain ⟨-, e⟩ | ⟨-, e⟩ := reload_cases c h l
  · right
    rw [e]
    refine ⟨callback l.tcCb .transferComplete, ?_⟩
    congr 1
    generalize l.refill h = r at *
    rw [fr]; rfl
  · left
    rw [e]
    exact ⟨[], by rw [← fr]⟩

/-! How an instruction can stop. -/

/-- The only instruction that faults is a beat, and the fault names the half that `overrun` finds. -/
theorem exec_fault_cases {i : Instr} {s : State} {f : Fault} (h : exec i s = .fault f) :
    i = .dmaBeat ∧ s.led.dmaEn = true ∧ ∃ half, s.led.overrun = some half ∧ f = .reloadOverrun half := by
  cases i with
  | dmaBeat =>
    simp only [exec, execDmaBeat] at h
    split at h
    · rename_i h1
      split at h
      · rename_i half ho; cases h; exact ⟨rfl, h1, half, ho, rfl⟩
      · cases h
    · cases h
  | irqHt => simp only [exec, execIrqHt] at h; split at h <;> cases h
  | irqTc => simp only [exec, execIrqTc] at h; split at h <;> cases h
  | ledRefresh n => simp only [exec, execLedRefresh] at h; split at h <;> cases h
  | _ => cases h

/-- The only instructions that are refused are the three guarded events, each under its own name and with its guard false. -/
theorem exec_refused_cases {i : Instr} {s : State} {r : Refusal} (h : exec i s = .refused r) :
    (i = .dmaBeat ∧ r = .dmaNotEnabled ∧ s.led.dmaEn = false) ∨ (i = .irqHt ∧ r = .htNotPending ∧ s.led.htPend = false) ∨
      (i = .irqTc ∧ r = .tcNotPending ∧ s.led.tcPend = false) := by
  cases i with
  | dmaBeat =>
    simp only [exec, execDmaBeat] at h
    split at h
    · split at h <;> cases h
    · rename_i h1; cases h; exact .inl ⟨rfl, rfl, by simpa using h1⟩
  | irqHt =>
    simp only [exec, execIrqHt] at h
    split at h
    · cases h
    · rename_i h1; cases h; exact .inr (.inl ⟨rfl, rfl, by simpa using h1⟩)
  | irqTc =>
    simp only [exec, execIrqTc] at h
    split at h
    · cases h
    · rename_i h1; cases h; exact .inr (.inr ⟨rfl, rfl, by simpa using h1⟩)
  | ledRefresh n => simp only [exec, execLedRefresh] at h; split at h <;> cases h
  | _ => cases h

/-- No instruction touches what the environment will do. -/
theorem exec_input {i : Instr} {s t : State} (h : exec i s = .next t) : t.input = s.input := by
  cases i with
  | dmaBeat => obtain ⟨-, -, rfl⟩ := dmaBeat_next h; rfl
  | irqHt => obtain ⟨-, rfl⟩ := irqHt_next h; rfl
  | irqTc => obtain ⟨-, rfl⟩ := irqTc_next h; rfl
  | ledRefresh n => obtain ⟨-, rfl⟩ | ⟨-, rfl⟩ := ledRefresh_next h <;> rfl
  | _ => cases h; rfl

/-! A step. -/

/-- What a step can do when it answers a next state. -/
theorem step_next {s t : State} (h : step s = .next t) :
    (s.input = [] ∧ t = s) ∨
    (∃ w rest i, s.input = .request w :: rest ∧ decode w = .ok i ∧ exec i { s with input := rest } = .next t) ∨
    (∃ k rest, s.input = .resume k :: rest ∧ t = State.resumeHeld k { s with input := rest }) := by
  simp only [step, advance] at h
  split at h
  · rename_i hi; injection h with h; exact .inl ⟨hi, h.symm⟩
  · rename_i w rest hi
    right; left
    unfold runRequest at h
    split at h
    · cases h
    · rename_i i hd; exact ⟨w, rest, i, hi, hd, h⟩
  · rename_i k rest hi; injection h with h; exact .inr (.inr ⟨k, rest, hi, h.symm⟩)

/-- What scheduling a held requester again can do: nothing, or its refresh. -/
theorem resumeHeld_cases (k : Nat) (s : State) :
    State.resumeHeld k s = s.noResponse ∨
      (∃ n, s.held[k]? = some n ∧ s.led.busy = false ∧
        State.resumeHeld k s = State.performRefresh n { s with held := s.held.eraseIdx k }) := by
  unfold State.resumeHeld
  split
  · exact .inl rfl
  · rename_i n hn
    by_cases hb : s.led.busy = true
    · left; rw [if_pos hb]
    · right; exact ⟨n, hn, by simpa using hb, by rw [if_neg hb]⟩

/-! Sequences. -/

theorem execAll_append (is js : List Instr) {s t : State} (h : execAll is s = .next t) :
    execAll (is ++ js) s = execAll js t := by
  induction is generalizing s with
  | nil => simp only [execAll, Host.Outcome.next.injEq] at h; subst h; rfl
  | cons i is ih =>
    simp only [execAll, List.cons_append] at h ⊢
    cases he : exec i s with
    | next u => rw [he] at h; exact ih h
    | fault f => rw [he] at h; simp [andThen] at h
    | refused e => rw [he] at h; simp [andThen] at h

end Sys2Proof.Machine
end

