-- ==== Sys2Proof/Laws/Words.lean ====
section
/-! SUPPORT. The fields of a packed request word, and the packing of a colour. -/

namespace Sys2Proof

/-- A field inside the low part of an appended word is that field of the low part. -/
theorem extract_append_low {m n : Nat} (x : BitVec m) (y : BitVec n) (k l : Nat) (h : k + l ≤ n) :
    (x ++ y).extractLsb' k l = y.extractLsb' k l := by
  apply BitVec.eq_of_getLsbD_eq
  intro i hi
  have : k + i < n := by omega
  simp [BitVec.getLsbD_append, this]

/-- A field inside the high part of an appended word is that field of the high part. -/
theorem extract_append_high {m n : Nat} (x : BitVec m) (y : BitVec n) (k l : Nat) :
    (x ++ y).extractLsb' (n + k) l = x.extractLsb' k l := by
  apply BitVec.eq_of_getLsbD_eq
  intro i hi
  have h1 : ¬ n + k + i < n := by omega
  have h2 : n + k + i - n = k + i := by omega
  simp [BitVec.getLsbD_append, h1, h2]

/-- The whole word is a field of itself. -/
theorem extract_all {n : Nat} (x : BitVec n) : x.extractLsb' 0 n = x := by
  apply BitVec.eq_of_getLsbD_eq
  intro i hi
  simp [hi]

/-- Two adjacent fields, appended, are the field that spans them. -/
theorem append_extract {n : Nat} (x : BitVec n) (k l m : Nat) :
    x.extractLsb' (k + l) m ++ x.extractLsb' k l = x.extractLsb' k (m + l) := by
  apply BitVec.eq_of_getLsbD_eq
  intro i hi
  rw [BitVec.getLsbD_append]
  by_cases h : i < l
  · have : i < m + l := by omega
    simp [h, this]
  · have h1 : i - l < m := by omega
    have h2 : k + l + (i - l) = k + i := by omega
    simp [h, hi, h1, h2]

@[simp] theorem opOf_pack (op : Byte) (a : U32) (d : BitVec 24) : opOf (pack op a d) = op :=
  (extract_append_high (op ++ a) d 32 8).trans ((extract_append_high op a 0 8).trans (extract_all op))

@[simp] theorem aOf_pack (op : Byte) (a : U32) (d : BitVec 24) : aOf (pack op a d) = a :=
  (extract_append_high (op ++ a) d 0 32).trans ((extract_append_low op a 0 32 (by decide)).trans (extract_all a))

@[simp] theorem dOf_pack (op : Byte) (a : U32) (d : BitVec 24) : dOf (pack op a d) = d :=
  (extract_append_low (op ++ a) d 0 24 (by decide)).trans (extract_all d)

/-- A word is the packing of its own fields. -/
theorem pack_fields (w : Req) : pack (opOf w) (aOf w) (dOf w) = w := by
  have h1 : opOf w ++ aOf w = w.extractLsb' 24 40 := append_extract w 24 32 8
  have h2 : w.extractLsb' 24 40 ++ dOf w = w.extractLsb' 0 64 := append_extract w 0 24 40
  have h3 : pack (opOf w) (aOf w) (dOf w) = w.extractLsb' 24 40 ++ dOf w := by
    unfold pack; rw [h1]
  exact h3.trans (h2.trans (extract_all w))

/-! Masking a word masks its fields. -/

theorem opOf_and (w m : Req) : opOf (w &&& m) = opOf w &&& opOf m := by simp [opOf, BitVec.extractLsb'_and]

theorem aOf_and (w m : Req) : aOf (w &&& m) = aOf w &&& aOf m := by simp [aOf, BitVec.extractLsb'_and]

theorem dOf_and (w m : Req) : dOf (w &&& m) = dOf w &&& dOf m := by simp [dOf, BitVec.extractLsb'_and]

/-- Bit 24 of a word is `a[0]`. -/
theorem getLsbD_24 (w : Req) : w.getLsbD 24 = (aOf w).getLsbD 0 := by simp [aOf]

@[simp] theorem unpackColor_packColor (c : Color) : unpackColor (packColor c) = c := by
  obtain ⟨r, g, b⟩ := c
  have hr : (packColor ⟨r, g, b⟩).extractLsb' 16 8 = r :=
    (extract_append_high (r ++ g) b 8 8).trans ((extract_append_high r g 0 8).trans (extract_all r))
  have hg : (packColor ⟨r, g, b⟩).extractLsb' 8 8 = g :=
    (extract_append_high (r ++ g) b 0 8).trans ((extract_append_low r g 0 8 (by decide)).trans (extract_all g))
  have hb : (packColor ⟨r, g, b⟩).extractLsb' 0 8 = b :=
    (extract_append_low (r ++ g) b 0 8 (by decide)).trans (extract_all b)
  simp [unpackColor, hr, hg, hb]

theorem packColor_unpackColor (d : BitVec 24) : packColor (unpackColor d) = d := by
  have h1 : d.extractLsb' 16 8 ++ d.extractLsb' 8 8 = d.extractLsb' 8 16 := append_extract d 8 8 8
  have h2 : d.extractLsb' 8 16 ++ d.extractLsb' 0 8 = d.extractLsb' 0 24 := append_extract d 0 8 16
  have h3 : packColor (unpackColor d) = d.extractLsb' 8 16 ++ d.extractLsb' 0 8 := by
    unfold packColor unpackColor; rw [← h1]
  exact h3.trans (h2.trans (extract_all d))

/-- A zero-extended operand reads back whole, and its high part reads zero. -/
theorem extract_setWidth_low {m n : Nat} (x : BitVec m) (h : m ≤ n) : (x.setWidth n).extractLsb' 0 m = x := by
  apply BitVec.eq_of_getLsbD_eq
  intro i hi
  have : i < n := by omega
  simp [hi, this]

theorem extract_setWidth_high {m n : Nat} (x : BitVec m) (l : Nat) : (x.setWidth n).extractLsb' m l = 0 := by
  apply BitVec.eq_of_getLsbD_eq
  intro i hi
  rw [BitVec.getLsbD_extractLsb', BitVec.getLsbD_setWidth, BitVec.getLsbD_of_ge x (m + i) (by omega)]
  simp

/-- An operand whose high part is zero is the zero extension of its low part. -/
theorem setWidth_extract_low {m n : Nat} (x : BitVec n) (h : x.extractLsb' m (n - m) = 0) :
    (x.extractLsb' 0 m).setWidth n = x := by
  apply BitVec.eq_of_getLsbD_eq
  intro i hi
  by_cases him : i < m
  · simp [him, hi]
  · have hz : (x.extractLsb' m (n - m)).getLsbD (i - m) = false := by rw [h]; simp
    have h1 : i - m < n - m := by omega
    have h2 : m + (i - m) = i := by omega
    simp [h1, h2] at hz
    simp [him, hz]

end Sys2Proof
end

