-- ==== Sys2Proof/Laws/Fifo.lean ====
section
/-! SUPPORT. The FIFO's operations in terms of its abstract content (10_state.md R16, 40_fifo.md R82, R83). -/

namespace Sys2Proof.Machine

/-- The element of a push's request word (30_encoding.md R72). -/
theorem elementOf_setWidth (v : Byte) : elementOf (v.setWidth 24) = v := extract_setWidth_low v (by decide)

/-- The response of a successful pop: `ok = 1` and the byte. -/
theorem rspWord_byte (x : Byte) : rspWord true (x.setWidth 24) = 0x80000000 ||| x.setWidth 32 := by
  show 0x80#8 ++ x.setWidth 24 = _
  apply BitVec.eq_of_getLsbD_eq
  intro i hi
  rw [BitVec.getLsbD_or, BitVec.getLsbD_append]
  by_cases h : i < 24
  · have : ∀ j, j < 24 → (0x80000000 : BitVec 32).getLsbD j = false := by decide
    rw [if_pos h, this i h]; simp [h, hi]
  · have h1 := BitVec.getLsbD_of_ge x i (by omega)
    have : ∀ j, j < 32 → 24 ≤ j → (0x80#8).getLsbD (j - 24) = (0x80000000#32).getLsbD j := by decide
    simpa [h, h1, hi] using this i hi (by omega)

/-- A push's transition on a byte. -/
theorem execFifoPush_byte (v : Byte) (s : State) :
    execFifoPush (v.setWidth 24) s =
      .next ({ s with fifo := s.fifo.push s.cfg v }.respond (pushOk s.cfg s.fifo) 0) := by
  rw [execFifoPush, elementOf_setWidth]

@[simp] theorem queue_length (c : Config) (f : Fifo) : (f.queue c).length = f.count := by simp [Fifo.queue]

/-- Two offsets below `n` from one start name different slots. -/
theorem ring_offset_inj {t i j n : Nat} (hi : i < n) (hj : j < n) (h : (t + i) % n = (t + j) % n) : i = j :=
  Nat.ModEq.eq_of_lt_of_lt (Nat.ModEq.add_left_cancel' t h) hi hj

theorem push_inv (c : Config) (f : Fifo) (v : Byte) (hn : 1 ≤ c.fifoN) (hi : f.Inv c) : (f.push c v).Inv c := by
  obtain ⟨h1, h2, h3, h4⟩ := hi
  unfold Fifo.push
  split
  · rename_i hp
    have : f.count ≠ c.fifoN := by simpa [pushOk] using hp
    refine ⟨by show f.count + 1 ≤ _; omega, Nat.mod_lt _ (by omega), h3, ?_⟩
    show (f.head + 1) % _ = (f.tail + (f.count + 1)) % _
    rw [h4, Nat.mod_add_mod, Nat.add_assoc]
  · exact ⟨h1, h2, h3, h4⟩

theorem pop_inv (c : Config) (f : Fifo) (hn : 1 ≤ c.fifoN) (hi : f.Inv c) : (f.pop c).Inv c := by
  obtain ⟨h1, h2, h3, h4⟩ := hi
  unfold Fifo.pop
  split
  · rename_i hp
    have : f.count ≠ 0 := by simpa [popOk] using hp
    refine ⟨by show f.count - 1 ≤ _; omega, h2, Nat.mod_lt _ (by omega), ?_⟩
    show f.head = ((f.tail + 1) % _ + (f.count - 1)) % _
    rw [h4, Nat.mod_add_mod]; congr 1; omega
  · exact ⟨h1, h2, h3, h4⟩

theorem zeroed_inv (c : Config) (f : Fifo) (hn : 1 ≤ c.fifoN) : (f.zeroed c).Inv c := by
  refine ⟨Nat.zero_le _, ?_, ?_, ?_⟩ <;> simp [Fifo.zeroed] <;> omega

/-- A push onto a buffer that is not full appends to the content. -/
theorem queue_push (c : Config) (f : Fifo) (v : Byte) (hl : f.store.length = c.fifoN) (hi : f.Inv c)
    (h : f.count < c.fifoN) : (f.push c v).queue c = f.queue c ++ [v] := by
  obtain ⟨h1, h2, h3, h4⟩ := hi
  have hp : pushOk c f = true := by simp [pushOk]; omega
  rw [Fifo.push, if_pos hp]
  apply List.ext_getElem?
  intro i
  unfold Fifo.queue
  simp only [List.range_succ, List.map_append, List.map_cons, List.map_nil]
  by_cases hic : i < f.count
  · rw [List.getElem?_append_left (by simpa using hic), List.getElem?_append_left (by simpa using hic)]
    simp only [List.getElem?_map, List.getElem?_range hic, Option.map_some, memRead, List.getD_eq_getElem?_getD]
    have : ¬ (f.tail + i) % c.fifoN = f.head := by
      rw [h4]; intro e
      have := ring_offset_inj (by omega) h e
      omega
    simp [getElem?_memWrite, this]
  · by_cases hie : i = f.count
    · subst hie
      rw [List.getElem?_append_right (by simp), List.getElem?_append_right (by simp)]
      simp only [memRead, List.getD_eq_getElem?_getD, getElem?_memWrite, ← h4, hl, h2]
      simp
    · rw [List.getElem?_eq_none (by simp; omega), List.getElem?_eq_none (by simp; omega)]

/-- A pop from a buffer that is not empty takes the front of the content. -/
theorem queue_pop (c : Config) (f : Fifo) (hi : f.Inv c) (h : f.count ≠ 0) :
    f.queue c = f.oldest :: (f.pop c).queue c := by
  obtain ⟨h1, h2, h3, h4⟩ := hi
  have hp : popOk f = true := by simp [popOk, h]
  obtain ⟨k, hk⟩ := Nat.exists_eq_succ_of_ne_zero h
  have e : f.pop c = { f with out := f.oldest, tail := ringNext f.tail c.fifoN, count := k } := by
    simp [Fifo.pop, hp, hk]
  rw [e]
  unfold Fifo.queue
  simp only [hk, Nat.succ_eq_add_one, List.range_succ_eq_map, List.map_cons, Fifo.oldest, Nat.add_zero,
    Nat.mod_eq_of_lt h3, List.map_map]
  congr 1
  apply List.map_congr_left
  intro a _
  simp only [Function.comp, ringNext]
  congr 1
  rw [Nat.mod_add_mod]; congr 1; omega

end Sys2Proof.Machine
end

