-- ==== Sys2Proof/Laws/Led.lean ====
section
/-! SUPPORT. What a refill keeps of the engine's invariant (42_encoder.md R108, 10_state.md R20, R21). -/

namespace Sys2Proof.Machine

/-- A cursor below a count does not wrap when it advances (30_encoding.md R73). -/
theorem toNat_succ_of_lt {a b : U16} (h : a.toNat < b.toNat) : (a + 1).toNat = a.toNat + 1 := by
  have := b.isLt
  rw [BitVec.toNat_add]; simp; omega

/-- A staged bit is `DUTY_ONE` or `DUTY_ZERO`. -/
theorem encodePixel_legal (c : Color) (i : Nat) : legalDuty (encodePixel c i) := by
  unfold encodePixel encodeBit legalDuty; split <;> simp

/-- A refill writes legal duty values only. -/
theorem refill_legal (l : Led) (h : Half) (hl : ∀ k : Fin 48, legalDuty l.staging[k]) (k : Fin 48) :
    legalDuty (l.refill h).staging[k] := by
  cases h
  · rw [refill_staging_half0]
    split
    · exact hl k
    · split
      · exact encodePixel_legal _ _
      · exact .inr (.inr rfl)
  · rw [refill_staging_half1]
    split
    · exact hl k
    · split
      · exact encodePixel_legal _ _
      · exact .inr (.inr rfl)

/-- After a reset refill its half holds the reset value, and the other half holds what it held. -/
theorem refill_halfIsReset (l : Led) (h g : Half) (hp : ¬ l.pixelCursor.toNat < l.ledCount.toNat)
    (hg : h ≠ g → halfIsReset l.staging g) : halfIsReset (l.refill h).staging g := by
  intro k h1 h2
  cases h
  · rw [refill_staging_half0]
    cases g
    · rw [if_neg (by simp [Half.base] at h2; omega), if_neg hp]; rfl
    · rw [if_pos (by simpa [Half.base] using h1)]; exact hg (by decide) k h1 h2
  · rw [refill_staging_half1]
    cases g
    · rw [if_pos (by simpa [Half.base] using h2)]; exact hg (by decide) k h1 h2
    · rw [if_neg (by simp [Half.base] at h1; omega), if_neg hp]; rfl

/-- The counters after a refill: a pixel refill advances the cursor and leaves the reset count at 0, a reset refill counts. -/
theorem refill_counters (l : Led) (h : Half) (h1 : l.pixelCursor.toNat ≤ l.ledCount.toNat)
    (h2 : l.resetCount ≠ 0 → l.pixelCursor = l.ledCount) :
    (l.refill h).pixelCursor.toNat ≤ l.ledCount.toNat ∧
      ((l.refill h).resetCount ≠ 0 → (l.refill h).pixelCursor = l.ledCount) ∧
      ((l.refill h).resetCount = l.resetCount ∧ l.pixelCursor.toNat < l.ledCount.toNat ∧ l.resetCount = 0 ∨
        (l.refill h).resetCount = l.resetCount + 1 ∧ ¬ l.pixelCursor.toNat < l.ledCount.toNat) := by
  obtain ⟨hp, e⟩ | ⟨hp, e⟩ := refill_cases l h <;> rw [e]
  · have hz : l.resetCount = 0 := by
      by_contra hne; rw [h2 hne] at hp; omega
    refine ⟨?_, fun hne => absurd hz hne, .inl ⟨rfl, hp, hz⟩⟩
    show (l.pixelCursor + 1).toNat ≤ _
    rw [toNat_succ_of_lt hp]; omega
  · exact ⟨h1, fun _ => BitVec.eq_of_toNat_eq (by show l.pixelCursor.toNat = _; omega), .inr ⟨rfl, hp⟩⟩

/-- The two buffers have the frame's size when the storage has its form. -/
theorem nextBuf_length {s : State} (h : Memory.wf s) : s.led.nextBuf.length = s.cfg.maxLeds := by
  obtain ⟨-, h0, h1⟩ := h
  cases hs : s.led.sel <;> simp [Led.nextBuf, hs, h0, h1]

theorem currentBuf_length {s : State} (h : Memory.wf s) : s.led.currentBuf.length = s.cfg.maxLeds := by
  obtain ⟨-, h0, h1⟩ := h
  cases hs : s.led.sel <;> simp [Led.currentBuf, hs, h0, h1]

end Sys2Proof.Machine
end

