-- ==== Sys2Proof/Laws/Parsers.lean ====
section
/-! SUPPORT. The timeout steps and the transition tables of the parsers (43_parser_edge.md R126, 44_parser_header.md R136,
R137), and the big-endian length (30_encoding.md R72). -/

namespace Sys2Proof.Machine

/-- No timeout: only the timestamp changes. -/
theorem Ep.arrive_within {now : U32} {e : Ep} (h : timedOut now e.lastT = false) : e.arrive now = { e with lastT := now } := by
  simp [Ep.arrive, h]

theorem Ep.arrive_after {now : U32} {e : Ep} (h : timedOut now e.lastT = true) :
    e.arrive now = { e with cyc := .green, pixIdx := 0, pend := Color.zero, lastT := now } := by
  simp [Ep.arrive, h]

theorem Hp.arrive_within {now : U32} {p : Hp} (h : timedOut now p.lastT = false) : p.arrive now = { p with lastT := now } := by
  simp [Hp.arrive, h]

theorem Hp.arrive_after {now : U32} {p : Hp} (h : timedOut now p.lastT = true) :
    p.arrive now = { p with st := .header .magicByte1, pixIdx := 0, pend := Color.zero, lastT := now } := by
  simp [Hp.arrive, h]

/-- The timeout step keeps the handler slots. -/
theorem Ep.arrive_slots (now : U32) (e : Ep) :
    (e.arrive now).cbColor = e.cbColor ∧ (e.arrive now).cbFrame = e.cbFrame ∧ (e.arrive now).lastT = now := by
  unfold Ep.arrive; split <;> exact ⟨rfl, rfl, rfl⟩

theorem Hp.arrive_slots (now : U32) (p : Hp) :
    (p.arrive now).cbColor = p.cbColor ∧ (p.arrive now).cbFrame = p.cbFrame ∧ (p.arrive now).lastT = now := by
  unfold Hp.arrive; split <;> exact ⟨rfl, rfl, rfl⟩

/-- Every event of `EP.BYTE` is a pixel reported to the registered handler. -/
theorem Ep.mem_byte {e : Ep} {b : Byte} {now : U32} {x : Event} (h : x ∈ (e.byte now b).2) :
    ∃ id i c, e.cbColor = some id ∧ x = .colorUpdated .ep id i c := by
  have hc := (Ep.arrive_slots now e).1
  unfold Ep.byte at h
  rw [← hc]
  generalize e.arrive now = q at *
  unfold Ep.assign at h
  split at h
  · simp at h
  · simp at h
  · obtain ⟨id, h1, h2⟩ := mem_callback.mp h; exact ⟨id, _, _, h1, h2⟩

/-- Every event of `HP.BYTE` is a pixel or a frame reported to the registered handler. -/
theorem Hp.mem_byte {p : Hp} {b : Byte} {now : U32} {x : Event} (h : x ∈ (p.byte now b).2) :
    (∃ id i c, p.cbColor = some id ∧ x = .colorUpdated .hp id i c) ∨ (∃ id, p.cbFrame = some id ∧ x = .frameComplete .hp id) := by
  obtain ⟨hc, hf, -⟩ := Hp.arrive_slots now p
  unfold Hp.byte at h
  rw [← hc, ← hf]
  generalize p.arrive now = q at *
  unfold Hp.assign at h
  split at h <;> try (simp at h)
  unfold Hp.finishPixel at h
  split at h
  · obtain ⟨id, h1, h2⟩ := mem_callback.mp h; exact .inl ⟨id, _, _, h1, h2⟩
  · rcases List.mem_append.mp h with h | h
    · obtain ⟨id, h1, h2⟩ := mem_callback.mp h; exact .inl ⟨id, _, _, h1, h2⟩
    · obtain ⟨id, h1, h2⟩ := mem_callback.mp h; exact .inr ⟨id, h1, h2⟩

/-- Every event of a reload handler is the completion reported to the registered handler. -/
theorem mem_reload {c : Config} {h : Half} {l : Led} {e : Event} (he : e ∈ (l.reload c h).2) :
    ∃ id, l.tcCb = some id ∧ e = .transferComplete id := by
  obtain ⟨-, h⟩ | ⟨-, h⟩ := reload_cases c h l <;> rw [h] at he
  · exact mem_callback.mp he
  · simp at he

/-- `256 * len_hi + len_lo` is the two bytes in big-endian order. -/
theorem lengthOf_eq (hi lo : Byte) : lengthOf hi lo = BitVec.ofNat 16 (256 * hi.toNat + lo.toNat) := by
  apply BitVec.eq_of_toNat_eq
  have := hi.isLt
  have := lo.isLt
  simp only [lengthOf, BitVec.toNat_append, BitVec.toNat_ofNat]
  rw [Nat.shiftLeft_eq, Nat.mul_comm, ← Nat.two_pow_add_eq_or_of_lt (by omega)]; omega

end Sys2Proof.Machine
end

