-- ==== Sys2Proof/Laws/Rows.lean ====
section
/-! SUPPORT. What each shape of row accepts, and the word it then came from. -/

namespace Sys2Proof

/-- No word matches two rows of the opcode table: any two rows differ in a bit that both masks hold. -/
theorem rows_do_not_overlap :
    opcodeTable.Pairwise fun r q => r.mask &&& q.mask &&& (r.matchWord ^^^ q.matchWord) ≠ 0 := by decide

theorem rowBare_ok {w : Req} {i j : Instr} : rowBare w i = .ok j ↔ j = i ∧ aOf w = 0 ∧ dOf w = 0 := by
  unfold rowBare
  split
  · rename_i h; simp [h, eq_comm]
  · rename_i h
    simp only [reduceCtorEq, false_iff]
    exact fun c => h c.2

theorem rowIdx_ok {w : Req} {k : U16 → Instr} {j : Instr} :
    rowIdx w k = .ok j ↔ j = k (idxOf w) ∧ aOf w = (idxOf w).setWidth 32 ∧ dOf w = 0 := by
  have back : (aOf w).extractLsb' 16 16 = 0 ↔ aOf w = (idxOf w).setWidth 32 :=
    ⟨fun h => (setWidth_extract_low (m := 16) (aOf w) h).symm, fun h => by rw [h]; exact extract_setWidth_high (idxOf w) 16⟩
  unfold rowIdx
  split
  · rename_i h; simp [h, back.mp h.1, eq_comm]
  · rename_i h
    simp only [reduceCtorEq, false_iff]
    rintro ⟨-, ha, hd⟩
    exact h ⟨back.mpr ha, hd⟩

theorem rowIdxColor_ok {w : Req} {k : U16 → Color → Instr} {j : Instr} :
    rowIdxColor w k = .ok j ↔ j = k (idxOf w) (unpackColor (dOf w)) ∧ aOf w = (idxOf w).setWidth 32 := by
  have back : (aOf w).extractLsb' 16 16 = 0 ↔ aOf w = (idxOf w).setWidth 32 :=
    ⟨fun h => (setWidth_extract_low (m := 16) (aOf w) h).symm, fun h => by rw [h]; exact extract_setWidth_high (idxOf w) 16⟩
  unfold rowIdxColor
  split
  · rename_i h; simp [back.mp h, eq_comm]
  · rename_i h
    simp only [reduceCtorEq, false_iff]
    rintro ⟨-, ha⟩
    exact h (back.mpr ha)

theorem rowTimedByte_ok {w : Req} {k : U32 → Byte → Instr} {j : Instr} :
    rowTimedByte w k = .ok j ↔ j = k (aOf w) (byteOf w) ∧ dOf w = (byteOf w).setWidth 24 := by
  have back : (dOf w).extractLsb' 8 16 = 0 ↔ dOf w = (byteOf w).setWidth 24 :=
    ⟨fun h => (setWidth_extract_low (m := 8) (dOf w) h).symm, fun h => by rw [h]; exact extract_setWidth_high (byteOf w) 16⟩
  unfold rowTimedByte
  split
  · rename_i h; simp [back.mp h, eq_comm]
  · rename_i h
    simp only [reduceCtorEq, false_iff]
    rintro ⟨-, hd⟩
    exact h (back.mpr hd)

theorem rowSlot_ok {w : Req} {k : Slot → Instr} {j : Instr} :
    rowSlot w k = .ok j ↔ (aOf w = 1 ∧ j = k (some (dOf w))) ∨ (aOf w = 0 ∧ dOf w = 0 ∧ j = k none) := by
  unfold rowSlot
  split
  · rename_i h; simp [h, eq_comm]
  · rename_i h
    split
    · rename_i h0
      split
      · rename_i hd; simp [h0, hd, eq_comm]
      · rename_i hd
        simp only [reduceCtorEq, false_iff]
        rintro (⟨h1, -⟩ | ⟨-, h2, -⟩)
        · exact h h1
        · exact hd h2
    · rename_i h0
      simp only [reduceCtorEq, false_iff]
      rintro (⟨h1, -⟩ | ⟨h1, -⟩)
      · exact h h1
      · exact h0 h1

theorem rowElement_ok {w : Req} {j : Instr} :
    rowElement w = .ok j ↔ j = .fifoPush (dOf w) ∧ aOf w = 0 ∧ (dOf w).toNat < 2 ^ elemBits := by
  unfold rowElement
  split
  · rename_i h
    split
    · rename_i hd; simp [h, hd, eq_comm]
    · rename_i hd; simp [hd]
  · rename_i h
    simp only [reduceCtorEq, false_iff]
    exact fun c => h c.2.1

end Sys2Proof
end

