-- ==== Sys2Proof/Laws/PerInstr.lean ====
section
/-! SUPPORT. The laws stated for every transition, one lemma per constructor: `RowMatch`, the request word of a well-formed
transition matches the row of spec/opcode_table.json that has its mnemonic (30_encoding.md R62, R63). -/

namespace Sys2Proof.Laws

/-- Masking a packed word masks its fields. -/
theorem pack_and (op op' : Byte) (a a' : U32) (d d' : BitVec 24) :
    pack op a d &&& pack op' a' d' = pack (op &&& op') (a &&& a') (d &&& d') := by
  have h1 : (op ++ a ++ d) &&& (op' ++ a' ++ d') = ((op ++ a) &&& (op' ++ a')) ++ (d &&& d') := BitVec.and_append
  have h2 : (op ++ a) &&& (op' ++ a') = (op &&& op') ++ (a &&& a') := BitVec.and_append
  rw [h2] at h1
  exact h1

/-- A 16-bit operand in `a` passes the mask of its row. -/
theorem idx_masked (x : U16) : x.setWidth 32 &&& (0xFFFF0000 : U32) = 0 := by
  apply BitVec.eq_of_getLsbD_eq
  intro i hi
  rw [BitVec.getLsbD_and, BitVec.getLsbD_setWidth]
  by_cases h : i < 16
  · have : ∀ j, j < 16 → (0xFFFF0000 : U32).getLsbD j = false := by decide
    rw [this i h, Bool.and_false]; simp
  · simp [BitVec.getLsbD_of_ge x i (by omega)]

/-- A byte in `d` passes the mask of its row. -/
theorem byte_masked (x : Byte) : x.setWidth 24 &&& (0xFFFF00 : BitVec 24) = 0 := by
  apply BitVec.eq_of_getLsbD_eq
  intro i hi
  rw [BitVec.getLsbD_and, BitVec.getLsbD_setWidth]
  by_cases h : i < 8
  · have : ∀ j, j < 8 → (0xFFFF00 : BitVec 24).getLsbD j = false := by decide
    rw [this i h, Bool.and_false]; simp
  · simp [BitVec.getLsbD_of_ge x i (by omega)]

/-- The `n`-th row of the table, with its mnemonic and mask, is matched by the word. -/
theorem row_of (n : Nat) (i : Instr) (row : OpcodeRow) (hr : opcodeTable[n]? = some row) (hm : row.mnemonic = i.mnemonic)
    (h : i.wf = true → row.matches (encode i) = true) :
    ∃ row ∈ opcodeTable, row.mnemonic = i.mnemonic ∧ (i.wf = true → row.matches (encode i) = true) :=
  ⟨row, List.mem_of_getElem? hr, hm, h⟩

/-- A row is matched when the masked word is its match and its condition holds. -/
theorem matches_of {row : OpcodeRow} {w : Req} (hm : w &&& row.mask = row.matchWord) (hc : row.condition.holdsOf w = true) :
    row.matches w = true := by
  rw [OpcodeRow.matches, Bool.and_eq_true]
  exact ⟨decide_eq_true hm, hc⟩

/-- A `SETCB*` word matches its row, with and without a handler. -/
theorem slot_matches (name : String) (op : Byte) (h : Slot) :
    (OpcodeRow.mk name (pack op 0 0) (pack 0xFF 0xFFFFFFFE 0) .noneHasNoHandler).matches (packSlot op h) = true := by
  have hop : op &&& 0xFF = op := BitVec.and_allOnes
  cases h with
  | none =>
    refine matches_of ?_ (decide_eq_true (.inr (dOf_pack op 0 0)))
    show pack op 0 0 &&& pack 0xFF 0xFFFFFFFE 0 = pack op 0 0
    rw [pack_and, hop]; rfl
  | some id =>
    refine matches_of ?_ (decide_eq_true (.inl ?_))
    · show pack op 1 id &&& pack 0xFF 0xFFFFFFFE 0 = pack op 0 0
      have hd : id &&& 0 = 0 := BitVec.and_zero
      rw [pack_and, hop, hd]; rfl
    · show (pack op 1 id).getLsbD 24 = true
      have := congrArg (fun x : U32 => x.getLsbD 0) (aOf_pack op 1 id)
      simpa [aOf, BitVec.getLsbD_extractLsb'] using this

namespace RowMatch

/-- The law. -/
def Statement (i : Instr) : Prop :=
  ∃ row ∈ opcodeTable, row.mnemonic = i.mnemonic ∧ (i.wf = true → row.matches (encode i) = true)

theorem fifoInit : Statement .fifoInit := row_of 0 _ _ rfl rfl (by decide)
theorem fifoClear : Statement .fifoClear := row_of 1 _ _ rfl rfl (by decide)

theorem fifoPush (v : BitVec 24) : Statement (.fifoPush v) := by
  refine row_of 2 _ _ rfl rfl fun h => ?_
  have hm : pack 0x02 0 v &&& pack 0xFF 0xFFFFFFFF 0 = pack 0x02 0 0 := by rw [pack_and]; simp
  have hd : dOf (pack 0x02 0 v) = v := dOf_pack _ _ _
  exact matches_of hm (by simpa [RowCondition.holdsOf, encode, hd, Instr.wf] using h)

theorem fifoPop : Statement .fifoPop := row_of 3 _ _ rfl rfl (by decide)
theorem fifoIsEmpty : Statement .fifoIsEmpty := row_of 4 _ _ rfl rfl (by decide)

theorem ledSetPix (idx : U16) (c : Color) : Statement (.ledSetPix idx c) := by
  refine row_of 5 _ _ rfl rfl fun _ => ?_
  have hm : pack 0x10 (idx.setWidth 32) (packColor c) &&& pack 0xFF 0xFFFF0000 0 = pack 0x10 0 0 := by
    rw [pack_and, idx_masked]; simp
  exact matches_of hm rfl

theorem ledSetAll (n : U16) (c : Color) : Statement (.ledSetAll n c) := by
  refine row_of 6 _ _ rfl rfl fun _ => ?_
  have hm : pack 0x11 (n.setWidth 32) (packColor c) &&& pack 0xFF 0xFFFF0000 0 = pack 0x11 0 0 := by
    rw [pack_and, idx_masked]; simp
  exact matches_of hm rfl

theorem ledGetPix (idx : U16) : Statement (.ledGetPix idx) := by
  refine row_of 7 _ _ rfl rfl fun _ => ?_
  have hm : pack 0x12 (idx.setWidth 32) 0 &&& pack 0xFF 0xFFFF0000 0xFFFFFF = pack 0x12 0 0 := by
    rw [pack_and, idx_masked]; simp
  exact matches_of hm rfl

theorem ledRefresh (n : U16) : Statement (.ledRefresh n) := by
  refine row_of 8 _ _ rfl rfl fun _ => ?_
  have hm : pack 0x13 (n.setWidth 32) 0 &&& pack 0xFF 0xFFFF0000 0xFFFFFF = pack 0x13 0 0 := by
    rw [pack_and, idx_masked]; simp
  exact matches_of hm rfl

theorem ledTcPoll : Statement .ledTcPoll := row_of 9 _ _ rfl rfl (by decide)
theorem ledSetCb (h : Slot) : Statement (.ledSetCb h) := row_of 10 _ _ rfl rfl fun _ => slot_matches _ 0x15 h
theorem dmaBeat : Statement .dmaBeat := row_of 11 _ _ rfl rfl (by decide)
theorem irqHt : Statement .irqHt := row_of 12 _ _ rfl rfl (by decide)
theorem irqTc : Statement .irqTc := row_of 13 _ _ rfl rfl (by decide)

theorem epByte (t : U32) (b : Byte) : Statement (.epByte t b) := by
  refine row_of 14 _ _ rfl rfl fun _ => ?_
  have hm : pack 0x20 t (b.setWidth 24) &&& pack 0xFF 0 0xFFFF00 = pack 0x20 0 0 := by
    rw [pack_and, byte_masked]; simp
  exact matches_of hm rfl

theorem epEdge : Statement .epEdge := row_of 15 _ _ rfl rfl (by decide)
theorem epSetCbC (h : Slot) : Statement (.epSetCbC h) := row_of 16 _ _ rfl rfl fun _ => slot_matches _ 0x22 h
theorem epSetCbF (h : Slot) : Statement (.epSetCbF h) := row_of 17 _ _ rfl rfl fun _ => slot_matches _ 0x23 h
theorem epGetCount : Statement .epGetCount := row_of 18 _ _ rfl rfl (by decide)

theorem hpByte (t : U32) (b : Byte) : Statement (.hpByte t b) := by
  refine row_of 19 _ _ rfl rfl fun _ => ?_
  have hm : pack 0x30 t (b.setWidth 24) &&& pack 0xFF 0 0xFFFF00 = pack 0x30 0 0 := by
    rw [pack_and, byte_masked]; simp
  exact matches_of hm rfl

theorem hpSetCbC (h : Slot) : Statement (.hpSetCbC h) := row_of 20 _ _ rfl rfl fun _ => slot_matches _ 0x32 h
theorem hpSetCbF (h : Slot) : Statement (.hpSetCbF h) := row_of 21 _ _ rfl rfl fun _ => slot_matches _ 0x33 h
theorem hpInit : Statement .hpInit := row_of 22 _ _ rfl rfl (by decide)
theorem sysReset : Statement .sysReset := row_of 23 _ _ rfl rfl (by decide)

end RowMatch

end Sys2Proof.Laws
end

