-- ==== Sys2Proof/Laws/Premises.lean ====
section
/-! SUPPORT. What a run under a schedule does, one act at a time. -/

namespace Sys2Proof.Machine

@[simp] theorem under_input (acts : List Act) (s : State) : (s.under acts).input = acts.map Act.stimulus := rfl
@[simp] theorem under_led (acts : List Act) (s : State) : (s.under acts).led = s.led := rfl
@[simp] theorem under_under (acts bs : List Act) (s : State) : (s.under acts).under bs = s.under bs := rfl

/-- A stimulus asks for a legal instruction, or schedules a held requester. -/
theorem legal_cases {x : Stimulus} (h : x.legal = true) :
    (∃ w i, x = .request w ∧ decode w = .ok i) ∨ ∃ k, x = .resume k := by
  cases x with
  | resume k => exact .inr ⟨k, rfl⟩
  | request w =>
    cases hd : decode w with
    | ok i => exact .inl ⟨w, i, rfl, hd⟩
    | error e => simp [Stimulus.legal, hd] at h

theorem step_request {w : Req} {rest : List Stimulus} {i : Instr} {s : State} (hi : s.input = .request w :: rest)
    (hd : decode w = .ok i) : step s = exec i { s with input := rest } := by
  simp only [step, advance, hi, runRequest, hd]

theorem step_resume {k : Nat} {rest : List Stimulus} {s : State} (hi : s.input = .resume k :: rest) :
    step s = .next (State.resumeHeld k { s with input := rest }) := by
  simp only [step, advance, hi]

/-- Scheduling a held requester touches nothing else of what the environment will do. -/
theorem resumeHeld_input (k : Nat) (s : State) : (State.resumeHeld k s).input = s.input := by
  obtain h | ⟨n, -, -, h⟩ := resumeHeld_cases k s <;> rw [h] <;> rfl

/-- A step takes exactly one stimulus, and leaves the list empty when it is. -/
theorem step_input {s t : State} (h : step s = .next t) : t.input = s.input.tail := by
  obtain ⟨h1, rfl⟩ | ⟨w, rest, i, h1, -, h3⟩ | ⟨k, rest, h1, rfl⟩ := step_next h
  · rw [h1]; rfl
  · rw [exec_input h3, h1]; rfl
  · rw [resumeHeld_input, h1]; rfl

end Sys2Proof.Machine
end

