-- ==== Sys2Proof/Machine/LineText.lean ====
section
/-! DEFINITION. The line form of a transition (30_encoding.md R75): one transition per line, `MNEMONIC operands`, operands
separated by commas, numbers decimal or `0x` hexadecimal, `;` starts a comment. -/

namespace Sys2Proof.Machine

/-! Writing a line: numbers decimal. -/

/-- A number as the line form writes it. -/
def operandText (n : Nat) : String := toString n

/-- A colour's operands, in the order `r, g, b`. -/
def colorText (c : Color) : List String := [operandText c.r.toNat, operandText c.g.toNat, operandText c.b.toNat]

/-- A handler's operand: the identifier, or `none`. -/
def slotText : Slot → String
  | none => "none"
  | some h => operandText h.toNat

/-- The operands of a transition, in the order of R75's table. -/
def operandTexts : Instr → List String
  | .fifoInit => []
  | .fifoClear => []
  | .fifoPush v => [operandText v.toNat]
  | .fifoPop => []
  | .fifoIsEmpty => []
  | .ledSetPix idx c => operandText idx.toNat :: colorText c
  | .ledSetAll n c => operandText n.toNat :: colorText c
  | .ledGetPix idx => [operandText idx.toNat]
  | .ledRefresh n => [operandText n.toNat]
  | .ledTcPoll => []
  | .ledSetCb h => [slotText h]
  | .dmaBeat => []
  | .irqHt => []
  | .irqTc => []
  | .epByte t b => [operandText t.toNat, operandText b.toNat]
  | .epEdge => []
  | .epSetCbC h => [slotText h]
  | .epSetCbF h => [slotText h]
  | .epGetCount => []
  | .hpByte t b => [operandText t.toNat, operandText b.toNat]
  | .hpSetCbC h => [slotText h]
  | .hpSetCbF h => [slotText h]
  | .hpInit => []
  | .sysReset => []

/-- The line of a transition. -/
def lineText (i : Instr) : String :=
  match operandTexts i with
  | [] => i.mnemonic
  | operands => i.mnemonic ++ " " ++ String.intercalate ", " operands

/-! Reading a line. -/

/-- The value of a digit character, or 16 where it is none. -/
def digitValue (c : Char) : Nat :=
  if '0' ≤ c ∧ c ≤ '9' then c.toNat - 48
  else if 'A' ≤ c ∧ c ≤ 'F' then c.toNat - 55
  else if 'a' ≤ c ∧ c ≤ 'f' then c.toNat - 87
  else 16

/-- The number that digits to a base spell after `soFar`. -/
def readDigits (base : Nat) : Nat → List Char → Option Nat
  | soFar, [] => some soFar
  | soFar, c :: rest => if digitValue c < base then readDigits base (base * soFar + digitValue c) rest else none

/-- A number: decimal, or hexadecimal after `0x`. -/
def readNumber : List Char → Option Nat
  | [] => none
  | ['0', 'x'] => none
  | '0' :: 'x' :: digits => readDigits 16 0 digits
  | digits => readDigits 10 0 digits

/-- A number below `2 ^ bits`, as a word of that width. -/
def readWord (bits : Nat) (text : List Char) : Option (BitVec bits) :=
  match readNumber text with
  | none => none
  | some n => if n < 2 ^ bits then some (BitVec.ofNat bits n) else none

/-- A handler's operand. -/
def readSlot (text : List Char) : Option Slot :=
  if text = "none".toList then some none else (readWord 24 text).map some

/-- What stands before the comment. -/
def withoutComment (line : List Char) : List Char := line.takeWhile fun c => !decide (c = ';')

/-- The text without the spaces around it. -/
def trimmed (text : List Char) : List Char :=
  let blank : Char → Bool := fun c => decide (c = ' ')
  ((text.dropWhile blank).reverse.dropWhile blank).reverse

/-- The text cut at every comma. -/
def cutAtCommas : List Char → List (List Char)
  | [] => [[]]
  | c :: rest =>
    match cutAtCommas rest with
    | [] => [[c]]
    | first :: others => if c = ',' then [] :: first :: others else (c :: first) :: others

/-- A colour from its three operands. -/
def readColor (r g b : List Char) : Option Color :=
  match readWord 8 r, readWord 8 g, readWord 8 b with
  | some r, some g, some b => some { r := r, g := g, b := b }
  | _, _, _ => none

/-- The transition of a mnemonic without operands. -/
def readBare (mnemonic : List Char) : Option Instr :=
  [Instr.fifoInit, .fifoClear, .fifoPop, .fifoIsEmpty, .ledTcPoll, .dmaBeat, .irqHt, .irqTc, .epEdge, .epGetCount, .hpInit,
    .sysReset].find? fun i => decide (i.mnemonic.toList = mnemonic)

/-- The transition of a mnemonic with one operand. -/
def readOne (mnemonic x : List Char) : Option Instr :=
  if mnemonic = "FIFO.PUSH".toList then (readWord 24 x).map .fifoPush
  else if mnemonic = "LED.GETPIX".toList then (readWord 16 x).map .ledGetPix
  else if mnemonic = "LED.REFRESH".toList then (readWord 16 x).map .ledRefresh
  else if mnemonic = "LED.SETCB".toList then (readSlot x).map .ledSetCb
  else if mnemonic = "EP.SETCBC".toList then (readSlot x).map .epSetCbC
  else if mnemonic = "EP.SETCBF".toList then (readSlot x).map .epSetCbF
  else if mnemonic = "HP.SETCBC".toList then (readSlot x).map .hpSetCbC
  else if mnemonic = "HP.SETCBF".toList then (readSlot x).map .hpSetCbF
  else none

/-- The transition of a mnemonic with a clock value and a byte. -/
def readTimed (mnemonic t b : List Char) : Option Instr :=
  match readWord 32 t, readWord 8 b with
  | some t, some b =>
    if mnemonic = "EP.BYTE".toList then some (.epByte t b)
    else if mnemonic = "HP.BYTE".toList then some (.hpByte t b)
    else none
  | _, _ => none

/-- The transition of a mnemonic with an index or a count and a colour. -/
def readPixel (mnemonic n r g b : List Char) : Option Instr :=
  match readWord 16 n, readColor r g b with
  | some n, some color =>
    if mnemonic = "LED.SETPIX".toList then some (.ledSetPix n color)
    else if mnemonic = "LED.SETALL".toList then some (.ledSetAll n color)
    else none
  | _, _ => none

/-- The transition a line names: `none` where the line names none. A value that the request word cannot carry is none. -/
def readLine (line : List Char) : Option Instr :=
  let text := trimmed (withoutComment line)
  let mnemonic := text.takeWhile fun c => !decide (c = ' ')
  let rest := trimmed (text.dropWhile fun c => !decide (c = ' '))
  let i : Option Instr :=
    if rest = [] then readBare mnemonic
    else
      match (cutAtCommas rest).map trimmed with
      | [x] => readOne mnemonic x
      | [t, b] => readTimed mnemonic t b
      | [n, r, g, b] => readPixel mnemonic n r g b
      | _ => none
  i.filter Instr.wf

end Sys2Proof.Machine
end

