-- ==== Sys2Proof/Tests/Slice0.lean ====
section
/-! SUPPORT. The tests: decoding of words written out from the spec's encodings, small steps with the results of
95_test_vectors.md, and for every statement with hypotheses a witness that meets them. -/

namespace Sys2Proof.Tests

open Sys2Proof Sys2Proof.Machine

/-! Helpers: the outcome as comparable data, and small states. -/

def nextOf (o : Host.Outcome State Fault Refusal) : Option State :=
  match o with
  | .next s => some s
  | .fault _ => none
  | .refused _ => none

def faultOf (o : Host.Outcome State Fault Refusal) : Option Fault :=
  match o with
  | .next _ => none
  | .fault f => some f
  | .refused _ => none

def refusalOf (o : Host.Outcome State Fault Refusal) : Option Refusal :=
  match o with
  | .next _ => none
  | .fault _ => none
  | .refused r => some r

def decoded (w : Req) : Option Instr := decodeTableWord 64 w.toNat

def illegal (w : Req) : Option Illegal :=
  match decode w with
  | .ok _ => none
  | .error e => some e

/-- The reset state with this FIFO. -/
def withFifo (store : List Byte) (head tail count : Nat) : State :=
  { State.reset with fifo := { store := store, head := head, tail := tail, count := count, out := 0xEE } }

def withLed (f : Led → Led) : State := { State.reset with led := f State.reset.led }

def withEp (f : Ep → Ep) : State := { State.reset with ep := f State.reset.ep }

def withHp (f : Hp → Hp) : State := { State.reset with hp := f State.reset.hp }

/-- The FIFO part and the response of a transition. -/
def fifoAfter (i : Instr) (s : State) : Option (Fifo × Option Rsp) := (nextOf (exec i s)).map fun t => (t.fifo, t.rsp)

/-- A transfer of no pixel (95_test_vectors.md V40): both halves reset values, the DMA at its start. -/
def emptyTransfer : State := withLed fun l => { l with sel := true, resetCount := 2, dmaEn := true, busy := true }

/-! WellFormed: what it refuses (30_encoding.md R63, V39c). -/

theorem test_wf_refuses_wide_element : (Instr.fifoPush 0x141).wf = false := by decide
theorem test_wf_refuses_least_wide_element : (Instr.fifoPush 0x100).wf = false := by decide
theorem test_wf_accepts_widest_byte : (Instr.fifoPush 0xFF).wf = true := by decide

/-! Decoding, each word from 30_encoding.md R62, the family files or 95_test_vectors.md. -/

theorem test_decode_fifoInit : decoded 0x0000000000000000 = some .fifoInit := by decide
theorem test_decode_fifoClear : decoded 0x0100000000000000 = some .fifoClear := by decide
theorem test_decode_fifoPush : decoded 0x0200000000000041 = some (.fifoPush 0x41) := by decide
theorem test_decode_fifoPop : decoded 0x0300000000000000 = some .fifoPop := by decide
theorem test_decode_fifoIsEmpty : decoded 0x0400000000000000 = some .fifoIsEmpty := by decide
theorem test_decode_ledSetPix : decoded 0x1000000003FF8000 = some (.ledSetPix 3 { r := 0xFF, g := 0x80, b := 0x00 }) := by decide
theorem test_decode_ledSetPix_ones :
    decoded 0x100000FFFFFFFFFF = some (.ledSetPix 0xFFFF { r := 0xFF, g := 0xFF, b := 0xFF }) := by decide
theorem test_decode_ledSetAll : decoded 0x110000000400FF00 = some (.ledSetAll 4 { r := 0, g := 0xFF, b := 0 }) := by decide
theorem test_decode_ledGetPix : decoded 0x1200000009000000 = some (.ledGetPix 9) := by decide
theorem test_decode_ledRefresh : decoded 0x1300000003000000 = some (.ledRefresh 3) := by decide
theorem test_decode_ledTcPoll : decoded 0x1400000000000000 = some .ledTcPoll := by decide
theorem test_decode_ledSetCb : decoded 0x1500000001000007 = some (.ledSetCb (some 7)) := by decide
theorem test_decode_ledSetCb_none : decoded 0x1500000000000000 = some (.ledSetCb none) := by decide
theorem test_decode_dmaBeat : decoded 0x1800000000000000 = some .dmaBeat := by decide
theorem test_decode_irqHt : decoded 0x1900000000000000 = some .irqHt := by decide
theorem test_decode_irqTc : decoded 0x1A00000000000000 = some .irqTc := by decide
theorem test_decode_epByte : decoded 0x200000006400007F = some (.epByte 100 0x7F) := by decide
theorem test_decode_epEdge : decoded 0x2100000000000000 = some .epEdge := by decide
theorem test_decode_epSetCbC : decoded 0x2200000001000001 = some (.epSetCbC (some 1)) := by decide
theorem test_decode_epSetCbF : decoded 0x2300000001000002 = some (.epSetCbF (some 2)) := by decide
theorem test_decode_epGetCount : decoded 0x2400000000000000 = some .epGetCount := by decide
theorem test_decode_hpByte : decoded 0x300000000A000050 = some (.hpByte 10 0x50) := by decide
theorem test_decode_hpSetCbC : decoded 0x3200000001000001 = some (.hpSetCbC (some 1)) := by decide
theorem test_decode_hpSetCbF : decoded 0x3300000001000002 = some (.hpSetCbF (some 2)) := by decide
theorem test_decode_hpInit : decoded 0x3400000000000000 = some .hpInit := by decide
theorem test_decode_sysReset : decoded 0xFF00000000000000 = some .sysReset := by decide

/-! Refused words (V37 to V39c, R63, R64). -/

theorem test_refuse_reserved : illegal 0x0500000000000000 = some (.reservedOpcode 0x05) := by decide
theorem test_refuse_pop_operand : illegal 0x0300000000000001 = some (.unusedBits 0x03) := by decide
theorem test_refuse_refresh_high : illegal 0x1300010000000000 = some (.unusedBits 0x13) := by decide
theorem test_refuse_none_with_handler : illegal 0x1500000000000007 = some (.handlerWhereNone 0x15) := by decide
theorem test_refuse_wide_element : illegal 0x0200000000000141 = some .elementTooWide := by decide
theorem test_refuse_slot_flag : illegal 0x2200000002000000 = some (.unusedBits 0x22) := by decide
theorem test_refuse_byte_high : illegal 0x2000000064000100 = some (.unusedBits 0x20) := by decide

/-! The FIFO (V1 to V9). -/

theorem test_fifoInit : fifoAfter .fifoInit (withFifo [9, 8, 7, 6] 2 1 1) =
    some ({ store := [0, 0, 0, 0], head := 0, tail := 0, count := 0, out := 0xEE }, some 0) := by decide
theorem test_fifoClear_v6 : fifoAfter .fifoClear (withFifo [1, 2, 3, 4] 1 3 2) =
    some ({ store := [0, 0, 0, 0], head := 0, tail := 0, count := 0, out := 0xEE }, some 0) := by decide
theorem test_fifoPush_full_v2 : fifoAfter (.fifoPush 0x0E) (withFifo [0x0A, 0x0B, 0x0C, 0x0D] 0 0 4) =
    some ({ store := [0x0A, 0x0B, 0x0C, 0x0D], head := 0, tail := 0, count := 4, out := 0xEE }, some 0) := by decide
theorem test_fifoPush_v4 : fifoAfter (.fifoPush 0x0E) (withFifo [0x0A, 0x0B, 0x0C, 0x0D] 0 1 3) =
    some ({ store := [0x0E, 0x0B, 0x0C, 0x0D], head := 1, tail := 1, count := 4, out := 0xEE }, some 0x80000000) := by decide
theorem test_fifoPop_empty_v1 : fifoAfter .fifoPop (withFifo [0, 0, 0, 0] 0 0 0) =
    some ({ store := [0, 0, 0, 0], head := 0, tail := 0, count := 0, out := 0xEE }, some 0) := by decide
theorem test_fifoPop_wrap_v7 : fifoAfter .fifoPop (withFifo [0, 0, 0, 0x0D] 0 3 1) =
    some ({ store := [0, 0, 0, 0x0D], head := 0, tail := 0, count := 0, out := 0x0D }, some 0x8000000D) := by decide
theorem test_fifoIsEmpty_v5 : fifoAfter .fifoIsEmpty (withFifo [0x0E, 0x0B, 0x0C, 0x0D] 1 1 0) =
    some ({ store := [0x0E, 0x0B, 0x0C, 0x0D], head := 1, tail := 1, count := 0, out := 0xEE }, some 0x80000000) := by decide

/-! The frame store (V15 to V20e). -/

theorem test_ledSetPix_v15 :
    (nextOf (exec (.ledSetPix 3 { r := 0xFF, g := 0x80, b := 0 }) State.reset)).map (fun t => (t.led.buf0, t.led.buf1)) =
      some (List.replicate 4 Color.zero, [Color.zero, Color.zero, Color.zero, { r := 0xFF, g := 0x80, b := 0 }]) := by decide
theorem test_ledSetPix_v16 :
    (nextOf (exec (.ledSetPix 4 { r := 1, g := 1, b := 1 }) State.reset)).map (fun t => (t.led.buf0, t.led.buf1)) =
      some (List.replicate 4 Color.zero, List.replicate 4 Color.zero) := by decide
theorem test_ledSetAll_v18 :
    (nextOf (exec (.ledSetAll 2 { r := 9, g := 9, b := 9 }) State.reset)).map (fun t => (t.led.buf0, t.led.buf1)) =
      some (List.replicate 4 Color.zero, [{ r := 9, g := 9, b := 9 }, { r := 9, g := 9, b := 9 }, Color.zero, Color.zero]) := by
  decide
theorem test_ledSetAll_v19 :
    (nextOf (exec (.ledSetAll 100 { r := 1, g := 2, b := 3 }) State.reset)).map (fun t => t.led.buf1) =
      some (List.replicate 4 { r := 1, g := 2, b := 3 }) := by decide

/-- The reset state after V15. -/
def afterV15 : State :=
  withLed fun l => { l with buf1 := [Color.zero, Color.zero, Color.zero, { r := 0xFF, g := 0x80, b := 0 }] }

theorem test_ledGetPix_v20b : (nextOf (exec (.ledGetPix 3) afterV15)).map (fun t => t.rsp) = some (some 0x80FF8000) := by decide
theorem test_ledGetPix_v20b_out :
    (nextOf (exec (.ledGetPix 4) afterV15)).map (fun t => t.rsp) = some (some 0x80000000) := by decide
theorem test_ledRefresh_v20c :
    (nextOf (exec (.ledRefresh 4) afterV15)).map (fun t =>
      (t.led.sel, decide (t.led.buf0 = t.led.buf1), t.led.pixelCursor, t.led.resetCount, t.led.busy)) =
      some (true, true, 2, 0, true) := by decide
theorem test_ledRefresh_clamped_v20e :
    (nextOf (exec (.ledRefresh 9) State.reset)).map (fun t => (t.led.ledCount, t.rsp)) = some (4, some 0x80000000) := by decide
theorem test_ledTcPoll_v20d :
    (nextOf (exec .ledTcPoll State.reset)).map (fun t => (t.led.finished, t.rsp)) = some (false, some 0) := by decide
theorem test_ledTcPoll_set :
    (nextOf (exec .ledTcPoll (withLed fun l => { l with finished := true }))).map (fun t => (t.led.finished, t.rsp)) =
      some (false, some 0x80000000) := by decide
theorem test_ledSetCb : (nextOf (exec (.ledSetCb (some 7)) State.reset)).map (fun t => t.led.tcCb) = some (some 7) := by decide

/-! The encoder (V10, V13, V14) and the wire (30_encoding.md R68, R70). -/

theorem test_pixelDuties_v10 : pixelDuties { r := 0xFF, g := 0xA5, b := 0x00 } =
    [57, 34, 57, 34, 34, 57, 34, 57, 57, 57, 57, 57, 57, 57, 57, 57, 34, 34, 34, 34, 34, 34, 34, 34] := by decide
theorem test_pixelDuties_v13 : pixelDuties { r := 0x01, g := 0x80, b := 0x55 } =
    [57, 34, 34, 34, 34, 34, 34, 34, 34, 34, 34, 34, 34, 34, 34, 57, 34, 57, 34, 57, 34, 57, 34, 57] := by decide
theorem test_checksum : [checksumOf 0x00 0x02, checksumOf 0x01 0x2C, checksumOf 0xFF 0xFF, checksumOf 0x55 0x00] =
    [0x57, 0x78, 0x55, 0x00] := by decide
theorem test_bitPeriod : bitPeriod 34 = List.replicate 34 true ++ List.replicate 56 false := by decide
theorem test_bitPeriod_reset : bitPeriod 0 = List.replicate 90 false := by decide

/-! The engine's events (42_encoder.md, the examples of R110, R111, R114; V50). -/

theorem test_dmaBeat :
    (nextOf (exec .dmaBeat (withLed fun l =>
      { l with dmaEn := true, busy := true, dmaPos := 23, staging := Vector.replicate 48 57 }))).map
      (fun t => (t.led.dmaPos, t.led.htPend, t.led.tcPend, t.led.line, t.trace)) =
      some (24, true, false, some 57, [.duty 57]) := by decide
theorem test_dmaBeat_overrun_v50 :
    faultOf (exec .dmaBeat (withLed fun l => { l with dmaEn := true, busy := true, dmaPos := 47, htPend := true })) =
      some (.reloadOverrun .half0) := by decide
theorem test_irqHt :
    (nextOf (exec .irqHt (withLed fun l =>
      { l with busy := true, dmaEn := true, dmaPos := 24, ledCount := 2, pixelCursor := 2, htPend := true
               staging := Vector.replicate 48 57 }))).map
      (fun t => (t.led.staging[0], t.led.staging[23], t.led.staging[24], t.led.resetCount, t.led.htPend, t.led.busy)) =
      some (0, 0, 57, 1, false, true) := by decide
theorem test_irqTc :
    (nextOf (exec .irqTc (withLed fun l =>
      { l with busy := true, dmaEn := true, ledCount := 2, pixelCursor := 2, resetCount := 3, tcPend := true
               tcCb := some 7 }))).map
      (fun t => (t.led.resetCount, t.led.busy, t.led.finished, t.led.line, t.trace)) =
      some (4, false, true, none, [.transferComplete 7]) := by decide
theorem test_irqHt_not_pending : refusalOf (exec .irqHt State.reset) = some .htNotPending := by decide
theorem test_irqTc_not_pending : refusalOf (exec .irqTc State.reset) = some .tcNotPending := by decide

/-! The edge-triggered parser (V31 to V35, P3). -/

theorem test_epByte_exactly_ten_v31 :
    (nextOf (exec (.epByte 15 0x02) (withEp fun e => { e with cyc := .red, lastT := 5, pend := { r := 0, g := 1, b := 0 } }))).map
      (fun t => (t.ep.cyc, t.ep.pend, t.ep.lastT)) = some (.blue, { r := 2, g := 1, b := 0 }, 15) := by decide
theorem test_epByte_blue_p3 :
    (nextOf (exec (.epByte 102 0x33) (withEp fun e =>
      { e with cyc := .blue, lastT := 101, pend := { r := 0x22, g := 0x11, b := 0 }, cbColor := some 1 }))).map
      (fun t => (t.ep.cyc, t.ep.pixIdx, t.ep.pend, t.trace)) =
      some (.green, 1, Color.zero, [.colorUpdated .ep 1 0 { r := 0x22, g := 0x11, b := 0x33 }]) := by decide
theorem test_epByte_wrapped_clock_v32 :
    (nextOf (exec (.epByte 3 0x02) (withEp fun e => { e with cyc := .red, lastT := 0xFFFFFFFE }))).map
      (fun t => t.ep.cyc) = some .blue := by decide
theorem test_epEdge_v34 :
    (nextOf (exec .epEdge (withEp fun e =>
      { e with cyc := .blue, pixIdx := 2, pend := { r := 0x20, g := 0x10, b := 0 }, cbFrame := some 2 }))).map
      (fun t => (t.ep.cyc, t.ep.pixIdx, t.ep.frameCount, t.trace)) = some (.green, 0, 2, [.frameComplete .ep 2]) := by decide
theorem test_epEdge_no_handler_v35 :
    (nextOf (exec .epEdge (withEp fun e => { e with pixIdx := 1 }))).map (fun t => (t.ep.frameCount, t.trace)) =
      some (1, []) := by decide
theorem test_epSetCbC : (nextOf (exec (.epSetCbC (some 1)) State.reset)).map (fun t => (t.ep.cbColor, t.ep.cbFrame)) =
    some (some 1, none) := by decide
theorem test_epSetCbF : (nextOf (exec (.epSetCbF (some 2)) State.reset)).map (fun t => (t.ep.cbColor, t.ep.cbFrame)) =
    some (none, some 2) := by decide
theorem test_epGetCount : (nextOf (exec .epGetCount (withEp fun e => { e with frameCount := 2 }))).map (fun t => t.rsp) =
    some (some 0x80000002) := by decide

/-! The header-framed parser (V21 to V28, P2). -/

theorem test_hpByte_mismatch_v23 :
    (nextOf (exec (.hpByte 1 0x41) (withHp fun p => { p with st := .header .magicByte2 }))).map (fun t => t.hp.st) =
      some (.header .magicByte1) := by decide
theorem test_hpByte_checksum_v27 :
    (nextOf (exec (.hpByte 5 0x78) (withHp fun p =>
      { p with st := .header .checksum, lenHi := 0x01, lenLo := 0x2C }))).map (fun t => (t.hp.st, t.hp.cnt)) =
      some (.ledGreen, 300) := by decide
theorem test_hpByte_last_blue_p2 :
    (nextOf (exec (.hpByte 11 0x60) (withHp fun p =>
      { p with st := .ledBlue, lastT := 10, cnt := 2, pixIdx := 1, pend := { r := 0x50, g := 0x40, b := 0 }
               cbColor := some 1, cbFrame := some 2 }))).map (fun t => (t.hp.st, t.hp.pixIdx, t.trace)) =
      some (.header .magicByte1, 0,
        [.colorUpdated .hp 1 1 { r := 0x50, g := 0x40, b := 0x60 }, .frameComplete .hp 2]) := by decide
theorem test_hpByte_timeout_v24 :
    (nextOf (exec (.hpByte 12 0x61) (withHp fun p => { p with st := .header .magicByte3, lastT := 1 }))).map
      (fun t => t.hp.st) = some (.header .magicByte1) := by decide
theorem test_hpSetCbC : (nextOf (exec (.hpSetCbC (some 1)) State.reset)).map (fun t => (t.hp.cbColor, t.hp.cbFrame)) =
    some (some 1, none) := by decide
theorem test_hpSetCbF : (nextOf (exec (.hpSetCbF (some 2)) State.reset)).map (fun t => (t.hp.cbColor, t.hp.cbFrame)) =
    some (none, some 2) := by decide
theorem test_hpInit_v36 : (nextOf (exec .hpInit State.reset)).map (fun t => (t.hp.st, t.trace)) =
    some (.header .magicByte1, [.sink 0x41, .sink 0x64, .sink 0x61, .sink 0x0A]) := by decide

/-! Reset, the step, the Bridge and the sink. -/

theorem test_sysReset_during_transfer :
    (nextOf (exec .sysReset { emptyTransfer with trace := [.duty 57] })).map (fun t =>
      (decide (t.led = State.reset.led), t.trace, t.fifo.count)) = some (true, [], 0) := by decide
theorem test_withFetchWord :
    (nextOf (step (State.reset.withFetchWord 64 0x1000000003FF8000))).map (fun t => (t.led.buf1[3]?, t.input)) =
      some (some { r := 0xFF, g := 0x80, b := 0 }, []) := by decide
theorem test_bridge_p2 :
    bridgeRequests .hp 2 (.colorUpdated .hp 1 0 { r := 0x20, g := 0x10, b := 0x30 }) =
      [.ledSetPix 0 { r := 0x20, g := 0x10, b := 0x30 }] ∧
    bridgeRequests .hp 2 (.frameComplete .hp 2) = [.ledRefresh 2] := by decide
theorem test_sink_v36 : sinkRequests (.sink 0x41) = [.fifoPush 0x41] := by decide

/-! The line form (30_encoding.md R75). -/

theorem test_lineText : lineText (.ledSetPix 1 { r := 10, g := 20, b := 30 }) = "LED.SETPIX 1, 10, 20, 30" := by decide
theorem test_lineText_none : lineText (.ledSetCb none) = "LED.SETCB none" := by decide
theorem test_readLine : readLine "HP.BYTE 5, 0x57 ; checksum".toList = some (.hpByte 5 0x57) := by decide
theorem test_readLine_too_wide : readLine "FIFO.PUSH 256".toList = none := by decide

/-! Witnesses: states and operands that meet the hypotheses of the statements, one per clause. -/

/-- The reset state with these stimuli. -/
def asked (stimuli : List Stimulus) : State := { State.reset with input := stimuli }

/-- A full FIFO, an empty one that has wrapped, and one in between. -/
def fullFifo : State := withFifo [0x0A, 0x0B, 0x0C, 0x0D] 0 0 4

def emptyFifo : State := withFifo [0x0E, 0x0B, 0x0C, 0x0D] 1 1 0

def someFifo : State := withFifo [1, 2, 3, 4] 1 3 2

/-- A transfer of one pixel, 23 beats into its first half, and 24 beats into it with the half-transfer interrupt pending. -/
def beforeHalf : State :=
  withLed fun l => { l with ledCount := 1, pixelCursor := 1, resetCount := 1, dmaEn := true, busy := true, dmaPos := 23 }

def atHalf : State :=
  withLed fun l =>
    { l with ledCount := 1, pixelCursor := 1, resetCount := 1, dmaEn := true, busy := true, dmaPos := 24, htPend := true }

/-- The same in the second half, one refill before the end. -/
def atFull : State :=
  withLed fun l =>
    { l with ledCount := 1, pixelCursor := 1, resetCount := 3, dmaEn := true, busy := true, dmaPos := 0, tcPend := true }

/-- The invariant from its parts, while the staging buffer holds reset values, the wire is low and the header parser looks for a
header. -/
theorem inv_of {s : State}
    (h1 : s.cfg.wf ∧ Memory.wf s ∧ s.fifo.Inv s.cfg ∧ s.led.CountersInv s.cfg ∧ s.led.DmaInv)
    (h2 : s.led.staging = Vector.replicate 48 dutyReset) (h3 : s.led.line = none)
    (h4 : s.hp.st = .header .magicByte1) (h5 : s.hp.pixIdx = 0) : s.Inv := by
  obtain ⟨a, b, c, d, e⟩ := h1
  have z : ∀ k : Fin 48, s.led.staging[k] = dutyReset := by rw [h2]; simp
  refine ⟨a, b, c, d, e, ⟨fun k => .inr (.inr (z k)), ?_, fun _ => h3, fun _ _ k _ _ => z k, fun _ _ =>
    ⟨fun k _ _ => z k, fun k _ _ => z k⟩⟩, ?_⟩
  · rw [h3]; simp
  · simp only [Hp.Inv, h4, h5]

theorem reset_inv : State.reset.Inv := inv_of (by decide) rfl rfl rfl rfl
theorem afterV15_inv : afterV15.Inv := inv_of (by decide) rfl rfl rfl rfl
theorem emptyTransfer_inv : emptyTransfer.Inv := inv_of (by decide) rfl rfl rfl rfl

theorem witness_DecodeEncodeRoundTrip : (Instr.fifoPush 0xFF).wf = true ∧ (Instr.epByte 0xFFFFFFFF 0xFF).wf = true := by decide
theorem witness_LegalWordIsItsEncoding : decode 0x02000000000000FF = .ok (.fifoPush 0xFF) := by rfl
theorem witness_WordIsLegalIffItMatchesARow :
    decode 0x1500000001FFFFFF = .ok (.ledSetCb (some 0xFFFFFF)) ∧
      ∃ row ∈ opcodeTable, row.matches 0x1500000001FFFFFF = true := ⟨rfl, by decide⟩
theorem witness_IllegalWordIsRefused :
    (asked [.request 0x0500000000000000]).input = [.request 0x0500000000000000] ∧
      decode 0x0500000000000000 = .error (.reservedOpcode 0x05) := ⟨rfl, rfl⟩
theorem witness_IllegalWordIsRefused_opcodes :
    [0x05, 0x0F, 0x16, 0x17, 0x1B, 0x1F, 0x25, 0x2F, 0x31, 0x35, 0xFE].map (fun op : Byte => illegal (op ++ 0#56)) =
      [0x05, 0x0F, 0x16, 0x17, 0x1B, 0x1F, 0x25, 0x2F, 0x31, 0x35, 0xFE].map (fun op => some (.reservedOpcode op)) := by decide
theorem witness_StepRunsTheDecodedRequest :
    (asked [.request 0x0300000000000000, .resume 0]).input = .request 0x0300000000000000 :: [.resume 0] ∧
      decode 0x0300000000000000 = .ok .fifoPop := ⟨rfl, rfl⟩
theorem witness_StepIdlesWithoutARequest : State.reset.input = [] := by decide
theorem witness_HeldRefreshIsReleasedWhenFree :
    (∃ s : State, s.input = .resume 1 :: [] ∧ s.held[1]? = some 3 ∧ s.led.busy = false) ∧
      ∃ s : State, s.input = .resume 1 :: [] ∧ s.held[1]? = some 3 ∧ s.led.busy = true :=
  ⟨⟨{ asked [.resume 1] with held := [1, 3] }, by decide⟩, ⟨{ emptyTransfer with held := [1, 3], input := [.resume 1] }, by decide⟩⟩
theorem witness_PushAppendsUnlessFull :
    someFifo.fifo.count ≠ someFifo.cfg.fifoN ∧ fullFifo.fifo.count = fullFifo.cfg.fifoN := by decide
theorem witness_PopTakesTheOldestUnlessEmpty : someFifo.fifo.count ≠ 0 ∧ emptyFifo.fifo.count = 0 := by decide
theorem witness_FifoIsABoundedQueue :
    (someFifo.cfg.wf ∧ Memory.wf someFifo ∧ someFifo.fifo.Inv someFifo.cfg) ∧
      (someFifo.fifo.queue someFifo.cfg).length < someFifo.cfg.fifoN ∧ someFifo.fifo.queue someFifo.cfg = 4 :: [1] := by decide
theorem witness_FifoIsABoundedQueue_full :
    (fullFifo.cfg.wf ∧ Memory.wf fullFifo ∧ fullFifo.fifo.Inv fullFifo.cfg) ∧
      (fullFifo.fifo.queue fullFifo.cfg).length = fullFifo.cfg.fifoN := by decide
theorem witness_FifoIsABoundedQueue_empty :
    (emptyFifo.cfg.wf ∧ Memory.wf emptyFifo ∧ emptyFifo.fifo.Inv emptyFifo.cfg) ∧
      emptyFifo.fifo.queue emptyFifo.cfg = [] ∧ emptyFifo.fifo.count = 0 ∧ [1, 2, 3, 4].length = emptyFifo.cfg.fifoN := by decide
theorem witness_PushAndPopInEitherOrder :
    fullFifo.fifo.count = fullFifo.cfg.fifoN ∧ emptyFifo.fifo.count = 0 ∧
      0 < someFifo.fifo.count ∧ someFifo.fifo.count < someFifo.cfg.fifoN := by decide
theorem witness_SetPixWritesOnePixelOfNext :
    Memory.wf State.reset ∧ (3 : U16).toNat < State.reset.cfg.maxLeds ∧ ¬ (4 : U16).toNat < State.reset.cfg.maxLeds := by decide
theorem witness_SetAllWritesTheFirstPixelsOfNext : Memory.wf afterV15 := by decide
theorem witness_SetAllIsSetPixRepeated : afterV15.cfg.wf ∧ Memory.wf afterV15 := by decide
theorem witness_GetPixReadsNext :
    Memory.wf afterV15 ∧ afterV15.led.nextBuf[(3 : U16).toNat]? = some { r := 0xFF, g := 0x80, b := 0 } ∧
      afterV15.cfg.maxLeds ≤ (4 : U16).toNat := by decide
theorem witness_RefreshIsHeldWhileBusy : emptyTransfer.led.busy = true := by decide
theorem witness_RefreshSwapsStagesAndStarts :
    afterV15.cfg.wf ∧ Memory.wf afterV15 ∧ afterV15.led.busy = false := by decide
theorem witness_OnlyRefreshChangesTheCurrentFrame :
    (∃ t, exec (.ledSetPix 0 Color.zero) afterV15 = .next t) ∧ (∀ n, Instr.ledSetPix 0 Color.zero ≠ .ledRefresh n) ∧
      (∃ t, exec (.ledRefresh 1) emptyTransfer = .next t) ∧ emptyTransfer.led.busy = true :=
  ⟨⟨_, rfl⟩, by simp, ⟨_, rfl⟩, rfl⟩
theorem witness_WhoWritesBusyAndFinished_rises :
    ∃ t, exec (.ledRefresh 1) State.reset = .next t ∧ State.reset.led.busy = false ∧ t.led.busy = true :=
  ⟨State.performRefresh 1 State.reset, rfl, rfl, rfl⟩
theorem witness_WhoWritesBusyAndFinished_falls :
    (nextOf (exec .irqTc atFull)).map (fun t => (t.led.busy, t.led.finished)) = some (false, true) ∧
      atFull.led.busy = true ∧ atFull.led.finished = false := by decide
theorem witness_WhoWritesBusyAndFinished_polled :
    ∃ s t : State, exec .ledTcPoll s = .next t ∧ s.led.finished = true ∧ t.led.finished = false :=
  ⟨withLed fun l => { l with finished := true }, _, rfl, rfl, rfl⟩
theorem witness_BeatEmitsOneDutyValue_overrun1 :
    ∃ s : State, s.led.dmaEn = true ∧ s.led.dmaPos.val = 23 ∧ s.led.tcPend = true :=
  ⟨withLed fun l => { l with dmaEn := true, dmaPos := 23, tcPend := true }, by decide⟩
theorem witness_BeatEmitsOneDutyValue_overrun0 :
    ∃ s : State, s.led.dmaEn = true ∧ s.led.dmaPos.val = 47 ∧ s.led.htPend = true :=
  ⟨withLed fun l => { l with dmaEn := true, dmaPos := 47, htPend := true }, by decide⟩
theorem witness_BeatEmitsOneDutyValue_beat :
    beforeHalf.led.dmaEn = true ∧ (beforeHalf.led.dmaPos.val = 23 → beforeHalf.led.tcPend = false) ∧
      (beforeHalf.led.dmaPos.val = 47 → beforeHalf.led.htPend = false) := by decide
theorem witness_BeatEmitsOneDutyValue_idle : State.reset.led.dmaEn = false := by decide
theorem witness_HalfTransferRefillsHalfZero : State.reset.led.htPend = false ∧ atHalf.led.htPend = true := by decide
theorem witness_HalfTransferRefillsHalfZero_completes :
    ∃ s t : State, s.led.htPend = true ∧ exec .irqHt s = .next t ∧ s.cfg.resetRefills ≤ t.led.resetCount :=
  ⟨withLed fun l => { l with busy := true, dmaEn := true, dmaPos := 24, resetCount := 3, htPend := true }, _, rfl, rfl, by decide⟩
theorem witness_FullTransferRefillsHalfOne : State.reset.led.tcPend = false ∧ atFull.led.tcPend = true := by decide
theorem witness_WireLevelFollowsTheDutyValue :
    (∃ t, exec .dmaBeat beforeHalf = .next t) ∧ State.reset.led.dmaEn = false := ⟨⟨_, rfl⟩, rfl⟩
theorem witness_BeatsAfterTwoResetRefillsEmitReset :
    (∃ t, exec .dmaBeat emptyTransfer = .next t) ∧ emptyTransfer.Inv ∧ 2 ≤ emptyTransfer.led.resetCount :=
  ⟨⟨_, rfl⟩, emptyTransfer_inv, by decide⟩
theorem witness_TransferEmitsTheWholeFrame : afterV15.Inv ∧ afterV15.led.busy = false := ⟨afterV15_inv, rfl⟩
theorem witness_EpByteBuildsPixels :
    10 < ((11 : U32) - State.reset.ep.lastT).toNat ∧ ((10 : U32) - State.reset.ep.lastT).toNat ≤ 10 ∧
      State.reset.ep.cyc = .green ∧ (withEp fun e => { e with cyc := .red }).ep.cyc = .red ∧
      (withEp fun e => { e with cyc := .blue }).ep.cyc = .blue := by decide

/-- One pixel for each parser, the bytes exactly 10 ms apart, and a header with a bad checksum and one with a count of 0. -/
def edgeBytes : List (U32 × Byte) := [(100, 0x11), (110, 0x22), (120, 0x33)]

def headerBytes : List (U32 × Byte) :=
  [(0, 0x41), (10, 0x64), (20, 0x61), (30, 0x00), (40, 0x01), (50, 0x54), (60, 0x10), (70, 0x20), (80, 0x30)]

def badHeaderBytes : List (U32 × Byte) := [(0, 0x41), (1, 0x64), (2, 0x61), (3, 0x00), (4, 0x02), (5, 0x56)]

def zeroCountBytes : List (U32 × Byte) :=
  [(0, 0x41), (1, 0x64), (2, 0x61), (3, 0x00), (4, 0x00), (5, 0x55), (6, 0x09), (7, 0x08), (8, 0x07)]

theorem witness_EdgeFrameIsReported :
    State.reset.ep.cyc = .green ∧ State.reset.ep.pixIdx = 0 ∧ [({ r := 0x22, g := 0x11, b := 0x33 } : Color)].length ≤ 65535 ∧
      edgeBytes.map Prod.snd = edgeFrame [{ r := 0x22, g := 0x11, b := 0x33 }] ∧ steady edgeBytes = true := by decide
theorem witness_HpByteTakesOneRow_timeout : 10 < ((11 : U32) - State.reset.hp.lastT).toNat := by decide
theorem witness_HpByteTakesOneRow_rows (st : HpSt) :
    (withHp fun p => { p with st := st }).hp.st = st ∧
      ((10 : U32) - (withHp fun p => { p with st := st }).hp.lastT).toNat ≤ 10 :=
  ⟨rfl, by show ((10 : U32) - 0).toNat ≤ 10; decide⟩
theorem witness_HpByteTakesOneRow_boundaries :
    ((0 : U16) + 1).toNat < (2 : U16).toNat ∧ (2 : U16).toNat ≤ ((1 : U16) + 1).toNat ∧
      (0x57 : Byte) = 0x00 ^^^ 0x02 ^^^ 0x55 ∧ (0x56 : Byte) ≠ 0x00 ^^^ 0x02 ^^^ 0x55 := by decide
theorem witness_HeaderFrameIsReported :
    State.reset.hp.st = .header .magicByte1 ∧ 1 ≤ [({ r := 0x20, g := 0x10, b := 0x30 } : Color)].length ∧
      [({ r := 0x20, g := 0x10, b := 0x30 } : Color)].length ≤ 65535 ∧
      headerBytes.map Prod.snd = headerFrame [{ r := 0x20, g := 0x10, b := 0x30 }] ∧ steady headerBytes = true := by decide
theorem witness_BadChecksumRestartsTheSearch :
    State.reset.hp.st = .header .magicByte1 ∧ (0x56 : Byte) ≠ 0x00 ^^^ 0x02 ^^^ 0x55 ∧
      badHeaderBytes.map Prod.snd = [0x41, 0x64, 0x61, 0x00, 0x02, 0x56] ∧ steady badHeaderBytes = true := by decide
theorem witness_ZeroCountBehavesAsOne :
    State.reset.hp.st = .header .magicByte1 ∧
      zeroCountBytes.map Prod.snd = [0x41, 0x64, 0x61, 0x00, 0x00, 0x55, 0x09, 0x08, 0x07] ∧ steady zeroCountBytes = true := by
  decide
theorem witness_ResetMeetsTheInvariant :
    Config.wf { fifoN := 1, maxLeds := 65535, resetRefills := 2, announce := [] } ∧ Config.wf Config.atReset := by decide
theorem witness_StepKeepsTheInvariant :
    State.Inv { emptyTransfer with input := [.request 0x1800000000000000] } ∧
      ∃ t, step { emptyTransfer with input := [.request 0x1800000000000000] } = .next t :=
  ⟨emptyTransfer_inv, ⟨_, rfl⟩⟩
theorem witness_StepKeepsTheStorageForm :
    Memory.wf (asked [.request 0x0200000000000041]) ∧ ∃ t, step (asked [.request 0x0200000000000041]) = .next t :=
  ⟨by decide, ⟨_, rfl⟩⟩
theorem witness_ParametersNeverChange : ∃ t, step (asked [.request 0xFF00000000000000]) = .next t := ⟨_, rfl⟩
theorem witness_NoBlockWritesAnother : ∃ t, exec (.fifoPush 0x41) State.reset = .next t := ⟨_, rfl⟩
theorem witness_NoBlockReadsAnother :
    State.reset.cfg = emptyTransfer.cfg ∧ Instr.epEdge.block = .ep ∧ State.reset.ep = emptyTransfer.ep ∧
      (nextOf (exec .epEdge State.reset)).isSome = true := by decide
theorem witness_EventsGoToRegisteredHandlers :
    (∃ t, exec .hpInit State.reset = .next t) ∧ Instr.hpInit ≠ .sysReset := ⟨⟨_, rfl⟩, by decide⟩
theorem witness_EmittedDutiesAreLegal :
    ∃ t, emptyTransfer.Inv ∧ exec .dmaBeat emptyTransfer = .next t ∧ t.trace = emptyTransfer.trace ++ [.duty 0] :=
  ⟨_, emptyTransfer_inv, rfl, rfl⟩
theorem witness_ResponsesFollowTheRequest :
    (∃ t, exec .epEdge State.reset = .next t) ∧ Instr.epEdge.isEvent = true ∧ Instr.fifoPop.isEvent = false ∧
      (∃ t, exec (.ledRefresh 1) emptyTransfer = .next t) ∧ emptyTransfer.led.busy = true :=
  ⟨⟨_, rfl⟩, rfl, rfl, ⟨_, rfl⟩, rfl⟩
theorem witness_NothingRunsWhenQuiescent : State.reset.Inv ∧ State.reset.Quiescent := ⟨reset_inv, by decide⟩
theorem witness_WhenATransitionCompletes :
    (∃ t, exec (.ledRefresh 1) emptyTransfer = .next t) ∧ atHalf.led.htPend = true ∧ atFull.led.tcPend = true ∧
      emptyTransfer.led.dmaEn = true ∧ ¬(emptyTransfer.led.dmaPos.val = 23 ∧ emptyTransfer.led.tcPend = true) ∧
      ¬(emptyTransfer.led.dmaPos.val = 47 ∧ emptyTransfer.led.htPend = true) := ⟨⟨_, rfl⟩, by decide⟩
theorem witness_TheOnlyReasonsToStop :
    faultOf (step { withLed (fun l => { l with dmaEn := true, dmaPos := 47, htPend := true }) with
      input := [.request 0x1800000000000000] }) = some (.reloadOverrun .half0) ∧
    faultOf (step { withLed (fun l => { l with dmaEn := true, dmaPos := 23, tcPend := true }) with
      input := [.request 0x1800000000000000] }) = some (.reloadOverrun .half1) ∧
    refusalOf (step (asked [.request 0x0500000000000000])) = some (.illegalWord (.reservedOpcode 0x05)) ∧
    refusalOf (step (asked [.request 0x1800000000000000])) = some .dmaNotEnabled ∧
    refusalOf (step (asked [.request 0x1900000000000000])) = some .htNotPending ∧
    refusalOf (step (asked [.request 0x1A00000000000000])) = some .tcNotPending := by decide

/-! The premises of R188: an environment and a schedule that meet them all, and acts that break one. -/

def environment : Environment :=
  { afterReset := true, bridge := [2]
    prio := { serialReceive := 1, serialTransmit := 1, halfTransfer := 2, fullTransfer := 2, frameEdge := 1 }
    raised := { epBytes := [0x11], hpBytes := [], edges := 1, transmitReady := 1 } }

def act (context : Context) (begins ends : Nat) (w : Req) : Act := { context, begins, ends, stimulus := .request w }

/-- A push, the transmitter taking it, a byte and the edge of a frame, and the `Bridge`'s refresh inside the edge's handler. -/
def schedule : List Act :=
  [act .foreground 3 4 0x0200000000000041, act (.handler .serialTransmit) 4 5 0x0300000000000000,
   act (.handler .serialReceive) 5 6 0x2000000005000011, act (.handler .frameEdge) 6 8 0x2100000000000000,
   act (.callback 2 .frameEdge) 7 8 0x1300000000000000]

theorem schedule_meets_the_premises : environment.Premises schedule State.reset :=
  ⟨by decide, by decide, by decide, by decide, by decide, by decide, by decide, by decide, by decide⟩
theorem witness_ARunWithinThePremisesGoesOn : environment.Premises schedule State.reset := schedule_meets_the_premises
theorem witness_AHeldRefreshHangsWithoutReload :
    ∃ s t : State, s.led.busy = true ∧ execAll [.dmaBeat, .ledRefresh 1] s = .next t ∧ s.held[0]? = some 3 :=
  ⟨{ emptyTransfer with held := [3] }, _, rfl, rfl, rfl⟩
theorem witness_ALostReloadInterruptOverruns :
    (∃ s : State, s.led.DmaInv ∧ s.led.htPend = true ∧ s.led.dmaPos.val = 24) ∧
      ∃ s : State, s.led.DmaInv ∧ s.led.tcPend = true ∧ s.led.dmaPos.val = 23 :=
  ⟨⟨atHalf, by decide⟩, ⟨withLed fun l => { l with dmaEn := true, busy := true, dmaPos := 23, tcPend := true }, by decide⟩⟩
theorem witness_AClockThatGoesBackIsATimeout :
    (4 < 5 ∧ 5 - 4 + 10 < 2 ^ 32) ∧ (withEp fun e => { e with lastT := 5 }).ep.lastT = BitVec.ofNat 32 5 ∧
      (withHp fun p => { p with lastT := 5 }).hp.lastT = BitVec.ofNat 32 5 := by decide
theorem test_premises_refuse :
    ¬ pInit false [act .foreground 0 1 0x0200000000000041] ∧
    ¬ pAtomic [act .foreground 0 3 0x0200000000000041, act (.handler .serialTransmit) 1 2 0x0300000000000000] ∧
    ¬ pOneEach [act .foreground 0 1 0x1400000000000000, act (.handler .frameEdge) 2 3 0x1400000000000000] ∧
    ¬ pDeliver environment.raised [] State.reset ∧
    ¬ pContext environment.prio [act (.callback 7 .fullTransfer) 0 1 0x1300000000000000] ∧
    ¬ pHandlers environment.bridge [act (.callback 7 .frameEdge) 0 1 0x1300000000000000] ∧
    ¬ pLegal [act .foreground 0 1 0x0500000000000000] := by decide
theorem test_pClock_refuses :
    ¬ pClock [act (.handler .serialReceive) 5 6 0x2000000005000011, act (.handler .serialReceive) 4 6 0x2000000004000011] ∧
    ¬ pClock [act (.handler .serialReceive) 5 6 0x2000000006000011] := by decide

end Sys2Proof.Tests
end

/-! The build parameters: what a transition, a resumption and a step leave of them, and the step of a decoded request. -/

namespace Sys2Proof.Machine

/-- No instruction writes the build parameters. -/
theorem exec_cfg {i : Instr} {s t : State} (h : exec i s = .next t) : t.cfg = s.cfg := by
  cases i with
  | dmaBeat => obtain ⟨-, -, rfl⟩ := dmaBeat_next h; rfl
  | irqHt => obtain ⟨-, rfl⟩ := irqHt_next h; rfl
  | irqTc => obtain ⟨-, rfl⟩ := irqTc_next h; rfl
  | ledRefresh n => obtain ⟨-, rfl⟩ | ⟨-, rfl⟩ := ledRefresh_next h <;> rfl
  | _ => cases h; rfl

/-- Scheduling a held requester again does not write them. -/
@[simp] theorem resumeHeld_cfg (k : Nat) (s : State) : (State.resumeHeld k s).cfg = s.cfg := by
  obtain h | ⟨n, -, -, h⟩ := resumeHeld_cases k s <;> rw [h] <;> rfl

/-- Settles O6: the law of a step whose next stimulus is a legal request (00_scope.md R7). -/
theorem stepRunsTheDecodedRequest : Obligations.StepRunsTheDecodedRequest :=
  fun _ _ _ _ hinput hdecode => step_request hinput hdecode

/-- Settles O47, by what a step can do: idle, perform a request, or resume a held requester (00_scope.md R6). -/
theorem parametersNeverChange : Obligations.ParametersNeverChange := by
  intro s t h
  obtain ⟨-, rfl⟩ | ⟨w, rest, i, -, -, hexec⟩ | ⟨k, rest, -, rfl⟩ := step_next h
  · rfl
  · rw [exec_cfg hexec]
  · rw [resumeHeld_cfg]

end Sys2Proof.Machine

/-! What an instruction does, block by block, and what it emits and answers: one equation for every completed transition but
`SYS.RESET` (10_state.md R10, 30_encoding.md R61, R62). -/

namespace Sys2Proof.Machine

/-- What a transition makes of the FIFO. -/
def fifoEffect (c : Config) (f : Fifo) : Instr → Fifo
  | .fifoInit => f.zeroed c
  | .fifoClear => f.zeroed c
  | .fifoPush v => f.push c (elementOf v)
  | .fifoPop => f.pop c
  | .fifoIsEmpty | .ledSetPix _ _ | .ledSetAll _ _ | .ledGetPix _ | .ledRefresh _ | .ledTcPoll | .ledSetCb _ | .dmaBeat
  | .irqHt | .irqTc | .epByte _ _ | .epEdge | .epSetCbC _ | .epSetCbF _ | .epGetCount | .hpByte _ _ | .hpSetCbC _
  | .hpSetCbF _ | .hpInit | .sysReset => f

/-- What a transition makes of the transmit engine. -/
def ledEffect (c : Config) (l : Led) : Instr → Led
  | .ledSetPix idx color => l.setPixel c idx color
  | .ledSetAll n color => l.setAll c n color
  | .ledRefresh n => if l.busy then l else l.start c n
  | .ledTcPoll => { l with finished := false }
  | .ledSetCb slot => { l with tcCb := slot }
  | .dmaBeat => l.beat
  | .irqHt => ({ l with htPend := false }.reload c .half0).1
  | .irqTc => ({ l with tcPend := false }.reload c .half1).1
  | .fifoInit | .fifoClear | .fifoPush _ | .fifoPop | .fifoIsEmpty | .ledGetPix _ | .epByte _ _ | .epEdge | .epSetCbC _
  | .epSetCbF _ | .epGetCount | .hpByte _ _ | .hpSetCbC _ | .hpSetCbF _ | .hpInit | .sysReset => l

/-- What a transition makes of the edge-triggered parser. -/
def epEffect (e : Ep) : Instr → Ep
  | .epByte now b => (e.byte now b).1
  | .epEdge => e.edge.1
  | .epSetCbC slot => { e with cbColor := slot }
  | .epSetCbF slot => { e with cbFrame := slot }
  | .fifoInit | .fifoClear | .fifoPush _ | .fifoPop | .fifoIsEmpty | .ledSetPix _ _ | .ledSetAll _ _ | .ledGetPix _
  | .ledRefresh _ | .ledTcPoll | .ledSetCb _ | .dmaBeat | .irqHt | .irqTc | .epGetCount | .hpByte _ _ | .hpSetCbC _
  | .hpSetCbF _ | .hpInit | .sysReset => e

/-- What a transition makes of the header-framed parser. -/
def hpEffect (p : Hp) : Instr → Hp
  | .hpByte now b => (p.byte now b).1
  | .hpSetCbC slot => { p with cbColor := slot }
  | .hpSetCbF slot => { p with cbFrame := slot }
  | .hpInit => p.initialised
  | .fifoInit | .fifoClear | .fifoPush _ | .fifoPop | .fifoIsEmpty | .ledSetPix _ _ | .ledSetAll _ _ | .ledGetPix _
  | .ledRefresh _ | .ledTcPoll | .ledSetCb _ | .dmaBeat | .irqHt | .irqTc | .epByte _ _ | .epEdge | .epSetCbC _
  | .epSetCbF _ | .epGetCount | .sysReset => p

/-- The events that a transition adds to the trace (10_state.md R39). -/
def emitted (s : State) : Instr → List Event
  | .dmaBeat => [.duty s.led.staging[s.led.dmaPos]]
  | .irqHt => ({ s.led with htPend := false }.reload s.cfg .half0).2
  | .irqTc => ({ s.led with tcPend := false }.reload s.cfg .half1).2
  | .epByte now b => (s.ep.byte now b).2
  | .epEdge => s.ep.edge.2
  | .hpByte now b => (s.hp.byte now b).2
  | .hpInit => s.cfg.announce.map Event.sink
  | .fifoInit | .fifoClear | .fifoPush _ | .fifoPop | .fifoIsEmpty | .ledSetPix _ _ | .ledSetAll _ _ | .ledGetPix _
  | .ledRefresh _ | .ledTcPoll | .ledSetCb _ | .epSetCbC _ | .epSetCbF _ | .epGetCount | .hpSetCbC _ | .hpSetCbF _
  | .sysReset => []

/-- The response of a transition (30_encoding.md R61): none for an event and for a `LED.REFRESH` that is held. -/
def answer (s : State) : Instr → Option Rsp
  | .fifoPush _ => some (rspWord (pushOk s.cfg s.fifo) 0)
  | .fifoPop => some (rspWord (popOk s.fifo) (if popOk s.fifo then s.fifo.oldest.setWidth 24 else 0))
  | .fifoIsEmpty => some (rspWord (fifoEmpty s.fifo) 0)
  | .ledGetPix idx => some (rspWord true (packColor (s.led.getPixel s.cfg idx)))
  | .ledRefresh _ => if s.led.busy then none else some (rspWord true 0)
  | .ledTcPoll => some (rspWord s.led.finished 0)
  | .epGetCount => some (rspWord true (s.ep.frameCount.setWidth 24))
  | .dmaBeat | .irqHt | .irqTc | .epByte _ _ | .epEdge | .hpByte _ _ => none
  | .fifoInit | .fifoClear | .ledSetPix _ _ | .ledSetAll _ _ | .ledSetCb _ | .epSetCbC _ | .epSetCbF _ | .hpSetCbC _
  | .hpSetCbF _ | .hpInit | .sysReset => some rspNone

/-- The held requests after a transition (log 4): a `LED.REFRESH` at `busy = 1` joins them. -/
def heldAfter (s : State) : Instr → List U16
  | .ledRefresh n => if s.led.busy then s.held ++ [n] else s.held
  | _ => s.held

/-- The guard of a transition, on the engine alone (42_encoder.md R110, R111, R114): the three internal events have one. -/
def ledGuard (l : Led) : Instr → Prop
  | .dmaBeat => l.dmaEn = true ∧ l.overrun = none
  | .irqHt => l.htPend = true
  | .irqTc => l.tcPend = true
  | _ => True

/-- The state after a transition other than `SYS.RESET`. -/
def effect (s : State) (i : Instr) : State :=
  { s with
    fifo := fifoEffect s.cfg s.fifo i
    led := ledEffect s.cfg s.led i
    ep := epEffect s.ep i
    hp := hpEffect s.hp i
    trace := s.trace ++ emitted s i
    rsp := answer s i
    held := heldAfter s i }

/-- A transition that emits nothing leaves the trace as it is. -/
theorem effect_of_emitted_nil {s : State} {i : Instr} (h : emitted s i = []) :
    effect s i =
      { s with
        fifo := fifoEffect s.cfg s.fifo i
        led := ledEffect s.cfg s.led i
        ep := epEffect s.ep i
        hp := hpEffect s.hp i
        rsp := answer s i
        held := heldAfter s i } := by
  rw [effect, h, List.append_nil]

/-- A transition other than `SYS.RESET` whose guard holds completes in its effect. -/
theorem exec_of_guard {i : Instr} {s : State} (hi : i ≠ .sysReset) (hg : ledGuard s.led i) :
    exec i s = .next (effect s i) := by
  cases i with
  | sysReset => exact absurd rfl hi
  | dmaBeat =>
    obtain ⟨hen, hov⟩ := hg
    simp only [exec, execDmaBeat, hen, hov, if_true]; rfl
  | irqHt =>
    have hp : s.led.htPend = true := hg
    simp only [exec, execIrqHt, hp, if_true]; rfl
  | irqTc =>
    have hp : s.led.tcPend = true := hg
    simp only [exec, execIrqTc, hp, if_true]; rfl
  | ledRefresh n =>
    rw [effect_of_emitted_nil rfl]
    cases hb : s.led.busy <;>
      simp only [exec, execLedRefresh, ledEffect, answer, heldAfter, hb, if_true, Bool.false_eq_true, if_false] <;> rfl
  | epByte _ _ | epEdge | hpByte _ _ | hpInit => rfl
  | _ => rw [effect_of_emitted_nil rfl]; rfl

/-- A transition completes only when its guard holds. -/
theorem ledGuard_of_exec {i : Instr} {s t : State} (h : exec i s = .next t) : ledGuard s.led i := by
  cases i with
  | dmaBeat => obtain ⟨hen, hov, -⟩ := dmaBeat_next h; exact ⟨hen, hov⟩
  | irqHt => exact (irqHt_next h).1
  | irqTc => exact (irqTc_next h).1
  | _ => trivial

/-- What a transition other than `SYS.RESET` can do: its guard held, and the next state is its effect. -/
theorem exec_next {i : Instr} {s t : State} (hi : i ≠ .sysReset) (h : exec i s = .next t) :
    ledGuard s.led i ∧ t = effect s i := by
  have hg := ledGuard_of_exec h
  rw [exec_of_guard hi hg] at h
  exact ⟨hg, (Host.Outcome.next.inj h).symm⟩

end Sys2Proof.Machine

/-! What a transition leaves of the engine: the roles of the buffers and the two status bits (10_state.md R19, R22). -/

namespace Sys2Proof.Machine

/-- Writing the `next` role what it holds changes nothing. -/
theorem setNextBuf_nextBuf (l : Led) : l.setNextBuf l.nextBuf = l := by
  obtain ⟨_, _, sel⟩ := l
  cases sel <;> rfl

/-- A pixel write is a write to the `next` role. -/
theorem setPixel_eq_setNextBuf (c : Config) (idx : U16) (color : Color) (l : Led) :
    ∃ b, l.setPixel c idx color = l.setNextBuf b := by
  unfold Led.setPixel
  split
  · exact ⟨_, rfl⟩
  · exact ⟨l.nextBuf, (setNextBuf_nextBuf l).symm⟩

theorem reload_current (c : Config) (h : Half) (l : Led) :
    (l.reload c h).1.sel = l.sel ∧ (l.reload c h).1.currentBuf = l.currentBuf := by
  obtain ⟨e, he⟩ | ⟨e, he⟩ := reload_frame c h l <;> rw [he] <;> exact ⟨rfl, rfl⟩

/-- Only a `LED.REFRESH` that is performed changes the roles or the `current` frame. -/
theorem ledEffect_current (c : Config) (l : Led) {i : Instr} (h : (∀ n, i ≠ .ledRefresh n) ∨ l.busy = true) :
    (ledEffect c l i).sel = l.sel ∧ (ledEffect c l i).currentBuf = l.currentBuf := by
  cases i with
  | ledSetPix idx color =>
    obtain ⟨b, hb⟩ := setPixel_eq_setNextBuf c idx color l
    show (l.setPixel c idx color).sel = _ ∧ (l.setPixel c idx color).currentBuf = _
    rw [hb]
    exact ⟨setNextBuf_sel l b, currentBuf_setNextBuf l b⟩
  | ledSetAll _ _ => exact ⟨setNextBuf_sel l _, currentBuf_setNextBuf l _⟩
  | ledRefresh n =>
    have hb : l.busy = true := h.resolve_left fun hn => hn n rfl
    simp only [ledEffect, hb, if_true, and_self]
  | irqHt => exact reload_current c .half0 { l with htPend := false }
  | irqTc => exact reload_current c .half1 { l with tcPend := false }
  | _ => exact ⟨rfl, rfl⟩

/-- Settles O23: the engine's other transitions write the `next` role, the transfer registers or the status bits
(10_state.md R19). -/
theorem onlyRefreshChangesTheCurrentFrame : Obligations.OnlyRefreshChangesTheCurrentFrame := by
  intro i s t h hi hrefresh
  obtain ⟨-, rfl⟩ := exec_next hi h
  exact ledEffect_current s.cfg s.led hrefresh

/-- A reload handler leaves both status bits, or completes the transfer: it lowers `busy` and sets `finished`. -/
theorem reload_flags (c : Config) (h : Half) (l : Led) :
    ((l.reload c h).1.busy = l.busy ∧ (l.reload c h).1.finished = l.finished) ∨
      ((l.reload c h).1.busy = false ∧ (l.reload c h).1.finished = true) := by
  obtain ⟨e, he⟩ | ⟨e, he⟩ := reload_frame c h l <;> rw [he]
  · exact .inl ⟨rfl, rfl⟩
  · exact .inr ⟨rfl, rfl⟩

/-- A transfer starts with `busy = 1` and `finished` as it was. -/
theorem start_flags (c : Config) (n : U16) (l : Led) :
    (l.start c n).busy = true ∧ (l.start c n).finished = l.finished := by
  refine ⟨rfl, ?_⟩
  simp only [Led.start]
  rw [refill_frame, refill_frame, swapAndCopy_eq]

/-- What a transition makes of the status bits: nothing, a start, a completion, or a poll (10_state.md R22). -/
theorem ledEffect_flags (c : Config) (l : Led) (i : Instr) :
    ((ledEffect c l i).busy = l.busy ∧ (ledEffect c l i).finished = l.finished) ∨
    ((∃ n, i = .ledRefresh n) ∧ (ledEffect c l i).busy = true ∧ (ledEffect c l i).finished = l.finished) ∨
    ((i = .irqHt ∨ i = .irqTc) ∧ (ledEffect c l i).busy = false ∧ (ledEffect c l i).finished = true) ∨
    (i = .ledTcPoll ∧ (ledEffect c l i).busy = l.busy ∧ (ledEffect c l i).finished = false) := by
  cases i with
  | ledSetPix idx color =>
    obtain ⟨b, hb⟩ := setPixel_eq_setNextBuf c idx color l
    left
    show (l.setPixel c idx color).busy = _ ∧ (l.setPixel c idx color).finished = _
    rw [hb, setNextBuf_eq]
    exact ⟨rfl, rfl⟩
  | ledSetAll n color =>
    left
    show (l.setAll c n color).busy = _ ∧ (l.setAll c n color).finished = _
    rw [Led.setAll, setNextBuf_eq]
    exact ⟨rfl, rfl⟩
  | ledRefresh n =>
    rw [ledEffect]
    split
    · exact .inl ⟨rfl, rfl⟩
    · exact .inr (.inl ⟨⟨n, rfl⟩, start_flags c n l⟩)
  | irqHt =>
    exact (reload_flags c .half0 { l with htPend := false }).imp_right fun h => .inr (.inl ⟨.inl rfl, h⟩)
  | irqTc =>
    exact (reload_flags c .half1 { l with tcPend := false }).imp_right fun h => .inr (.inl ⟨.inr rfl, h⟩)
  | ledTcPoll => exact .inr (.inr (.inr ⟨rfl, rfl, rfl⟩))
  | _ => exact .inl ⟨rfl, rfl⟩

/-- Settles O24, by what a transition makes of the two bits (41_framebuffer.md R96, R97, R99, 42_encoder.md R112). -/
theorem whoWritesBusyAndFinished : Obligations.WhoWritesBusyAndFinished := by
  intro i s t h hi
  obtain ⟨-, rfl⟩ := exec_next hi h
  rw [show (effect s i).led = ledEffect s.cfg s.led i from rfl]
  obtain ⟨hb, hf⟩ | ⟨hn, hb, hf⟩ | ⟨hirq, hb, hf⟩ | ⟨hpoll, hb, hf⟩ := ledEffect_flags s.cfg s.led i <;>
    rw [hb, hf] <;> simp_all

end Sys2Proof.Machine

/-! What a transition leaves of the other blocks, and that it depends on its own block and the parameters only (10_state.md
R10). -/

namespace Sys2Proof.Machine

theorem fifoEffect_of_other (c : Config) (f : Fifo) {i : Instr} (h : i.block ≠ .fifo) : fifoEffect c f i = f := by
  cases i with
  | fifoInit | fifoClear | fifoPush _ | fifoPop => exact absurd rfl h
  | _ => rfl

theorem ledEffect_of_other (c : Config) (l : Led) {i : Instr} (h : i.block ≠ .led) : ledEffect c l i = l := by
  cases i with
  | ledSetPix _ _ | ledSetAll _ _ | ledRefresh _ | ledTcPoll | ledSetCb _ | dmaBeat | irqHt | irqTc => exact absurd rfl h
  | _ => rfl

theorem epEffect_of_other (e : Ep) {i : Instr} (h : i.block ≠ .ep) : epEffect e i = e := by
  cases i with
  | epByte _ _ | epEdge | epSetCbC _ | epSetCbF _ => exact absurd rfl h
  | _ => rfl

theorem hpEffect_of_other (p : Hp) {i : Instr} (h : i.block ≠ .hp) : hpEffect p i = p := by
  cases i with
  | hpByte _ _ | hpSetCbC _ | hpSetCbF _ | hpInit => exact absurd rfl h
  | _ => rfl

theorem heldAfter_of_other (s : State) {i : Instr} (h : i.block ≠ .led) : heldAfter s i = s.held := by
  cases i with
  | ledRefresh _ => exact absurd rfl h
  | _ => rfl

/-- Settles O48: each block's effect is the identity on the other blocks' transitions, and `SYS.RESET`, which belongs to all,
leaves the held requests (70_reset_and_hazards.md R170 corner case (b)). -/
theorem noBlockWritesAnother : Obligations.NoBlockWritesAnother := by
  intro i s t h
  by_cases hi : i = .sysReset
  · subst hi; cases h
    exact ⟨fun _ hs => absurd rfl hs, fun _ hs => absurd rfl hs, fun _ hs => absurd rfl hs, fun _ hs => absurd rfl hs,
      fun _ => rfl, fun hs => absurd rfl hs, rfl, rfl⟩
  · obtain ⟨-, rfl⟩ := exec_next hi h
    exact ⟨fun hb _ => fifoEffect_of_other _ _ hb, fun hb _ => ledEffect_of_other _ _ hb, fun hb _ => epEffect_of_other _ hb,
      fun hb _ => hpEffect_of_other _ hb, fun hb => heldAfter_of_other _ hb, fun _ => rfl, rfl, rfl⟩

/-- Two states agree on what the transition `i` may read: the parameters and its own block. -/
structure AgreeOn (i : Instr) (s s' : State) : Prop where
  cfg : s.cfg = s'.cfg
  fifo : i.block = .fifo → s.fifo = s'.fifo
  led : i.block = .led → s.led = s'.led
  ep : i.block = .ep → s.ep = s'.ep
  hp : i.block = .hp → s.hp = s'.hp

section
variable {i : Instr} {s s' : State} (h : AgreeOn i s s')
include h

theorem AgreeOn.ledGuard_iff : ledGuard s.led i ↔ ledGuard s'.led i := by
  cases i with
  | dmaBeat | irqHt | irqTc => rw [h.led rfl]
  | _ => exact Iff.rfl

theorem AgreeOn.emitted_eq : emitted s i = emitted s' i := by
  cases i with
  | dmaBeat | irqHt | irqTc => simp only [emitted, h.cfg, h.led rfl]
  | epByte _ _ | epEdge => simp only [emitted, h.ep rfl]
  | hpByte _ _ => simp only [emitted, h.hp rfl]
  | hpInit => simp only [emitted, h.cfg]
  | _ => rfl

theorem AgreeOn.answer_eq : answer s i = answer s' i := by
  cases i with
  | fifoPush _ | fifoPop | fifoIsEmpty => simp only [answer, h.cfg, h.fifo rfl]
  | ledGetPix _ | ledRefresh _ | ledTcPoll => simp only [answer, h.cfg, h.led rfl]
  | epGetCount => simp only [answer, h.ep rfl]
  | _ => rfl

end

/-- The obligation's form of the agreement: the block of the transition is one of the four. -/
theorem agreeOn_of_block {i : Instr} {s s' : State} (hc : s.cfg = s'.cfg)
    (hb : i.block = .fifo ∧ s.fifo = s'.fifo ∨ i.block = .led ∧ s.led = s'.led ∨ i.block = .ep ∧ s.ep = s'.ep ∨
      i.block = .hp ∧ s.hp = s'.hp) : AgreeOn i s s' ∧ i ≠ .sysReset := by
  obtain ⟨b, e⟩ | ⟨b, e⟩ | ⟨b, e⟩ | ⟨b, e⟩ := hb <;>
    exact ⟨by constructor <;> simp [b, e, hc], by rintro rfl; cases b⟩

/-- Settles O49: guard, effect, events and answer of a transition are functions of its own block and the parameters
(10_state.md R10). -/
theorem noBlockReadsAnother : Obligations.NoBlockReadsAnother := by
  intro i s s' t hc hb h
  obtain ⟨agree, hi⟩ := agreeOn_of_block hc hb
  obtain ⟨hg, rfl⟩ := exec_next hi h
  refine ⟨effect s' i, emitted s i, exec_of_guard hi (agree.ledGuard_iff.mp hg), agree.answer_eq.symm, rfl,
    congrArg _ agree.emitted_eq.symm, fun b => ?_, fun b => ?_, fun b => ?_, fun b => ?_⟩
  · show fifoEffect s'.cfg s'.fifo i = fifoEffect s.cfg s.fifo i
    rw [hc, agree.fifo b]
  · show ledEffect s'.cfg s'.led i = ledEffect s.cfg s.led i
    rw [hc, agree.led b]
  · exact congrArg (epEffect · i) (agree.ep b).symm
  · exact congrArg (hpEffect · i) (agree.hp b).symm

end Sys2Proof.Machine

/-! Where each emitted event comes from (10_state.md R39, 60_exceptions.md R155). -/

namespace Sys2Proof.Machine

/-- What a transition that emits the event is, and the slot, staged value or announced byte that it takes it from. -/
def comesFrom (i : Instr) (s : State) : Event → Prop
  | .duty d => i = .dmaBeat ∧ d = s.led.staging[s.led.dmaPos]
  | .colorUpdated .ep h _ _ => s.ep.cbColor = some h ∧ i.block = .ep
  | .colorUpdated .hp h _ _ => s.hp.cbColor = some h ∧ i.block = .hp
  | .frameComplete .ep h => s.ep.cbFrame = some h ∧ i = .epEdge
  | .frameComplete .hp h => s.hp.cbFrame = some h ∧ i.block = .hp
  | .transferComplete h => s.led.tcCb = some h ∧ (i = .irqHt ∨ i = .irqTc)
  | .sink b => i = .hpInit ∧ b ∈ s.cfg.announce

theorem comesFrom_of_mem_emitted {i : Instr} {s : State} {e : Event} (he : e ∈ emitted s i) : comesFrom i s e := by
  cases i with
  | dmaBeat => obtain rfl := List.mem_singleton.mp he; exact ⟨rfl, rfl⟩
  | irqHt => obtain ⟨id, hid, rfl⟩ := mem_reload he; exact ⟨hid, .inl rfl⟩
  | irqTc => obtain ⟨id, hid, rfl⟩ := mem_reload he; exact ⟨hid, .inr rfl⟩
  | epByte now b => obtain ⟨id, _, _, hid, rfl⟩ := Ep.mem_byte he; exact ⟨hid, rfl⟩
  | epEdge => obtain ⟨id, hid, rfl⟩ := mem_callback.mp he; exact ⟨hid, rfl⟩
  | hpByte now b =>
    obtain ⟨id, _, _, hid, rfl⟩ | ⟨id, hid, rfl⟩ := Hp.mem_byte he
    · exact ⟨hid, rfl⟩
    · exact ⟨hid, rfl⟩
  | hpInit => obtain ⟨b, hb, rfl⟩ := List.mem_map.mp he; exact ⟨rfl, hb⟩
  | _ => exact absurd he List.not_mem_nil

/-- Settles O50, by the origin of each emitted event (60_exceptions.md R155). -/
theorem eventsGoToRegisteredHandlers : Obligations.EventsGoToRegisteredHandlers := by
  intro i s t h hi
  obtain ⟨-, rfl⟩ := exec_next hi h
  have origin {e : Event} (he : e ∈ emitted s i) := comesFrom_of_mem_emitted he
  exact ⟨emitted s i, rfl, fun _ _ _ he => origin he, fun _ _ _ he => origin he, fun _ he => origin he,
    fun _ he => origin he, fun _ he => origin he, fun _ he => (origin he).1, fun _ he => origin he⟩

/-- Settles O51: a duty value is a value of the staging buffer, and those are legal (10_state.md R20); `SYS.RESET` adds no
event. -/
theorem emittedDutiesAreLegal : Obligations.EmittedDutiesAreLegal := by
  intro i s t new d hinv h htrace hd
  obtain ⟨-, -, -, -, -, ⟨hlegal, -⟩, -⟩ := hinv
  by_cases hi : i = .sysReset
  · subst hi; cases h
    obtain ⟨-, rfl⟩ := List.append_eq_nil_iff.mp htrace.symm
    exact absurd hd List.not_mem_nil
  · obtain ⟨-, rfl⟩ := exec_next hi h
    have hnew : emitted s i = new := List.append_cancel_left htrace
    obtain ⟨-, rfl⟩ : comesFrom i s (.duty d) := comesFrom_of_mem_emitted (hnew ▸ hd)
    exact hlegal _

end Sys2Proof.Machine

/-! The engine's invariant (10_state.md R20, R21, R23, R24, R26; 42_encoder.md R108, R110, R111): kept by a beat, by a served
reload interrupt, and set up by a start. -/

namespace Sys2Proof.Machine

/-- The engine's part of the machine's invariant. -/
abbrev Led.Inv (c : Config) (l : Led) : Prop := l.CountersInv c ∧ l.DmaInv ∧ l.StagingInv

/-- A beat raises the half-transfer interrupt when it leaves half 0 (42_encoder.md R110). -/
theorem beat_htPend (l : Led) : l.beat.htPend = true ↔ l.htPend = true ∨ l.dmaPos.val = 23 := by
  have hlt := l.dmaPos.isLt
  have e : (l.dmaPos.val + 1) % 48 = 24 ↔ l.dmaPos.val = 23 := by omega
  simp [Led.beat, dmaNext_val, e]

/-- A beat raises the full-transfer interrupt when it leaves half 1. -/
theorem beat_tcPend (l : Led) : l.beat.tcPend = true ↔ l.tcPend = true ∨ l.dmaPos.val = 47 := by
  have hlt := l.dmaPos.isLt
  have e : (l.dmaPos.val + 1) % 48 = 0 ↔ l.dmaPos.val = 47 := by omega
  simp only [Led.beat, dmaNext_val, Bool.or_eq_true, decide_eq_true_eq, e]

/-- A pending half is not the one the DMA is in, before a beat that overruns nothing and after it. -/
theorem beat_dmaInv {l : Led} (hd : l.DmaInv) (hen : l.dmaEn = true) (ho : l.overrun = none) : l.beat.DmaInv := by
  obtain ⟨hbusy, hboth, hht, htc⟩ := hd
  obtain ⟨h23, h47⟩ := overrun_eq_none.mp ho
  have hlt := l.dmaPos.isLt
  have hon : l.busy = true := hbusy ▸ hen
  have hpos : l.beat.dmaPos.val = (l.dmaPos.val + 1) % 48 := rfl
  simp only [Led.DmaInv, beat_htPend, beat_tcPend, hpos]
  refine ⟨hbusy, ?_, ?_, ?_⟩
  · rintro ⟨hp | hp, hq | hq⟩
    · exact hboth ⟨hp, hq⟩
    · exact h47 ⟨hq, hp⟩
    · exact h23 ⟨hp, hq⟩
    · omega
  · rintro (hp | hp)
    · have := (hht hp).2
      have : l.dmaPos.val ≠ 47 := fun h => h47 ⟨h, hp⟩
      exact ⟨hon, by omega⟩
    · exact ⟨hon, by omega⟩
  · rintro (hq | hq)
    · have := (htc hq).2
      have : l.dmaPos.val ≠ 23 := fun h => h23 ⟨h, hq⟩
      exact ⟨hon, by omega⟩
    · exact ⟨hon, by omega⟩

/-- A beat refills nothing: when it leaves a half it raises the interrupt that says so. -/
theorem beat_lastFilled {l : Led} (hd : l.DmaInv) (ho : l.overrun = none) : l.beat.lastFilled = l.lastFilled := by
  obtain ⟨-, -, hht, htc⟩ := hd
  obtain ⟨h23, h47⟩ := overrun_eq_none.mp ho
  have hlt := l.dmaPos.isLt
  simp only [Led.beat, Led.lastFilled, dmaNext_val]
  rcases (by omega : l.dmaPos.val < 23 ∨ l.dmaPos.val = 23 ∨ 24 ≤ l.dmaPos.val ∧ l.dmaPos.val < 47 ∨ l.dmaPos.val = 47)
    with hp | hp | ⟨hp, hp'⟩ | hp
  · have e : (l.dmaPos.val + 1) % 48 = l.dmaPos.val + 1 := by omega
    simp [e, show l.dmaPos.val + 1 < 24 by omega, show l.dmaPos.val < 24 by omega]
  · have : l.tcPend = false := by simpa [hp] using h23
    simp [hp, this]
  · have e : (l.dmaPos.val + 1) % 48 = l.dmaPos.val + 1 := by omega
    simp [e, show ¬ l.dmaPos.val + 1 < 24 by omega, show ¬ l.dmaPos.val < 24 by omega, show l.dmaPos.val ≠ 23 by omega]
  · have : l.htPend = false := by simpa [hp] using h47
    simp [hp, this]

theorem beat_inv {c : Config} {l : Led} (h : l.Inv c) (hen : l.dmaEn = true) (ho : l.overrun = none) : l.beat.Inv c := by
  obtain ⟨hc, hd, hlegal, -, -, hone, htwo⟩ := h
  refine ⟨hc, beat_dmaInv hd hen ho, hlegal, ?_, fun hoff => ?_, ?_, htwo⟩
  · rintro d hline
    obtain rfl : l.staging[l.dmaPos] = d := Option.mem_some.mp hline
    exact hlegal _
  · exact absurd (hen.symm.trans hoff) (by decide)
  · rw [beat_lastFilled hd ho]
    exact hone

/-! A refill while a transfer runs. -/

/-- The half that is not this one. -/
def Half.other : Half → Half
  | .half0 => .half1
  | .half1 => .half0

/-- What reset refills have written when the latest refill wrote the half `last`: that half after one, both after two
(42_encoder.md R111 corner case (c)). -/
abbrev Led.ResetHalves (l : Led) (last : Half) : Prop :=
  (l.resetCount = 1 → halfIsReset l.staging last) ∧
    (2 ≤ l.resetCount → halfIsReset l.staging .half0 ∧ halfIsReset l.staging .half1)

/-- How far the transfer is encoded: the reset refills come after all the pixels (42_encoder.md R108). -/
abbrev Led.Cursors (l : Led) : Prop :=
  l.pixelCursor.toNat ≤ l.ledCount.toNat ∧ (l.resetCount ≠ 0 → l.pixelCursor = l.ledCount)

/-- The halves alternate: after a refill of `h` what held with the other half last holds with `h` last. -/
theorem refill_resetHalves {l : Led} {h : Half} (hcur : l.Cursors) (hr : l.ResetHalves h.other) :
    (l.refill h).ResetHalves h := by
  obtain ⟨hone, htwo⟩ := hr
  obtain ⟨-, -, ⟨hcount, -, hzero⟩ | ⟨hcount, hp⟩⟩ := refill_counters l h hcur.1 hcur.2
  · exact ⟨fun h1 => by omega, fun h2 => by omega⟩
  · have hh := refill_halfIsReset l h h hp fun hne => absurd rfl hne
    refine ⟨fun _ => hh, fun h2 => ?_⟩
    have hother : h ≠ h.other → halfIsReset l.staging h.other := by
      intro _
      rcases (by omega : l.resetCount = 1 ∨ 2 ≤ l.resetCount) with hr1 | hr2
      · exact hone hr1
      · obtain ⟨h0, h1⟩ := htwo hr2
        cases h
        · exact h1
        · exact h0
    have ho := refill_halfIsReset l h h.other hp hother
    cases h
    · exact ⟨hh, ho⟩
    · exact ⟨ho, hh⟩

theorem refill_resetCount_le (l : Led) (h : Half) : (l.refill h).resetCount ≤ l.resetCount + 1 := by
  rw [refill_resetCount]; split <;> omega

/-- What holds between two refills, the latest of which wrote the half `last`. -/
structure Led.Staged (c : Config) (last : Half) (l : Led) : Prop where
  count : l.ledCount.toNat ≤ c.maxLeds
  cursors : l.Cursors
  bit : l.bitCursor = 0
  legal : ∀ k : Fin 48, legalDuty l.staging[k]
  line : ∀ d ∈ l.line, legalDuty d
  halves : l.ResetHalves last

/-- A refill of the half whose turn it is. -/
theorem refill_staged {c : Config} {h : Half} {l : Led} (hl : l.Staged c h.other) : (l.refill h).Staged c h := by
  obtain ⟨hcursor, hdone, -⟩ := refill_counters l h hl.cursors.1 hl.cursors.2
  have hlegal := refill_legal l h hl.legal
  have hhalves := refill_resetHalves hl.cursors hl.halves
  have hframe := refill_frame l h
  generalize l.refill h = r at *
  rw [hframe]
  exact ⟨hl.count, ⟨hcursor, hdone⟩, hl.bit, hlegal, hl.line, hhalves⟩

/-! The reload handlers. -/

/-- A reload handler that has cleared its pending bit is about to refill the half `h`. -/
structure Led.Due (c : Config) (h : Half) (l : Led) : Prop where
  staged : l.Staged c h.other
  resetCount : l.resetCount ≤ c.resetRefills
  busy : l.busy = true
  dmaEn : l.dmaEn = true
  htPend : l.htPend = false
  tcPend : l.tcPend = false
  last : l.lastFilled = h

theorem due_of_htPend {c : Config} {l : Led} (h : l.Inv c) (hp : l.htPend = true) :
    Led.Due c .half0 { l with htPend := false } := by
  obtain ⟨⟨hcount, hcur, hbit, -, hreset, hdone⟩, ⟨hen, hboth, hht, -⟩, hlegal, hline, -, hone, htwo⟩ := h
  obtain ⟨hb, hpos⟩ := hht hp
  have hpos : ¬ l.dmaPos.val < 24 := by omega
  have hlast : l.lastFilled = .half1 := by simp [Led.lastFilled, hp, hpos]
  rw [hlast] at hone
  exact
    { staged := ⟨hcount, ⟨hcur, hdone⟩, hbit, hlegal, hline, hone hb, htwo hb⟩
      resetCount := hreset hb, busy := hb, dmaEn := hen.trans hb, htPend := rfl, tcPend := by simpa [hp] using hboth
      last := by simp [Led.lastFilled, hpos] }

theorem due_of_tcPend {c : Config} {l : Led} (h : l.Inv c) (hp : l.tcPend = true) :
    Led.Due c .half1 { l with tcPend := false } := by
  obtain ⟨⟨hcount, hcur, hbit, -, hreset, hdone⟩, ⟨hen, hboth, -, htc⟩, hlegal, hline, -, hone, htwo⟩ := h
  obtain ⟨hb, hpos⟩ := htc hp
  have hlast : l.lastFilled = .half0 := by simp [Led.lastFilled, hp, hpos]
  rw [hlast] at hone
  exact
    { staged := ⟨hcount, ⟨hcur, hdone⟩, hbit, hlegal, hline, hone hb, htwo hb⟩
      resetCount := hreset hb, busy := hb, dmaEn := hen.trans hb, htPend := by simpa [hp] using hboth, tcPend := rfl
      last := by simp [Led.lastFilled, hpos] }

/-- A transfer that goes on after a refill of the half that the handlers' alternation says was due. -/
theorem inv_of_running {c : Config} {l : Led} (hl : l.Staged c l.lastFilled) (hreset : l.resetCount ≤ c.resetRefills)
    (hbusy : l.busy = true) (hen : l.dmaEn = true) (hht : l.htPend = false) (htc : l.tcPend = false) : l.Inv c := by
  refine ⟨⟨hl.count, hl.cursors.1, hl.bit, by omega, fun _ => hreset, hl.cursors.2⟩, ?_, hl.legal, hl.line, ?_,
    fun _ => hl.halves.1, fun _ => hl.halves.2⟩
  · simp [Led.DmaInv, hbusy, hen, hht, htc]
  · simp [hen]

/-- A transfer that has ended: the count of reset refills is at most one above `RESET_REFILLS` (42_encoder.md R112). -/
theorem complete_inv {c : Config} {last : Half} {l : Led} (hl : l.Staged c last) (hreset : l.resetCount ≤ c.resetRefills + 1) :
    l.complete.Inv c := by
  refine ⟨⟨hl.count, hl.cursors.1, hl.bit, hreset, ?_, hl.cursors.2⟩, ?_, hl.legal, ?_, ?_, ?_, ?_⟩ <;>
    simp [Led.complete, Led.DmaInv]

/-- A reload handler refills its half, and goes on or ends the transfer (42_encoder.md R111, R114). -/
theorem reload_inv {c : Config} {h : Half} {l : Led} (hl : l.Due c h) : (l.reload c h).1.Inv c := by
  have hstaged := refill_staged hl.staged
  have hcount := refill_resetCount_le l h
  have hreset := hl.resetCount
  obtain ⟨-, e⟩ | ⟨hgo, e⟩ := reload_cases c h l <;> rw [e]
  · exact complete_inv hstaged (by omega)
  · have hlast : (l.refill h).lastFilled = h := by rw [refill_frame]; exact hl.last
    refine inv_of_running (hlast.symm ▸ hstaged) hgo.le ?_ ?_ ?_ ?_ <;> rw [refill_frame]
    · exact hl.busy
    · exact hl.dmaEn
    · exact hl.htPend
    · exact hl.tcPend

/-! The start of a transfer. -/

/-- The registers that a start sets up before it stages the two halves (41_framebuffer.md R96, 42_encoder.md R109). -/
def Led.armed (c : Config) (n : U16) (l : Led) : Led :=
  { l.swapAndCopy with
    ledCount := BitVec.ofNat 16 (clampCount n c.maxLeds), pixelCursor := 0, bitCursor := 0, resetCount := 0 }

theorem start_eq (c : Config) (n : U16) (l : Led) :
    l.start c n =
      { ((l.armed c n).refill .half0).refill .half1 with
        htPend := false, tcPend := false, dmaPos := 0, dmaEn := true, busy := true } := rfl

theorem armed_staged {c : Config} {l : Led} (n : U16) (last : Half) (h : l.Inv c) : (l.armed c n).Staged c last := by
  obtain ⟨-, -, hlegal, hline, -⟩ := h
  have hcount : (BitVec.ofNat 16 (clampCount n c.maxLeds)).toNat ≤ c.maxLeds := by
    rw [BitVec.toNat_ofNat]; exact (Nat.mod_le _ _).trans (Nat.min_le_right _ _)
  rw [Led.armed, swapAndCopy_eq]
  exact ⟨hcount, ⟨Nat.zero_le _, fun hne => absurd rfl hne⟩, rfl, hlegal, hline, nofun, nofun⟩

/-- A start stages both halves, so that at most two reset refills have happened (42_encoder.md R109). -/
theorem start_inv {c : Config} {l : Led} (n : U16) (hc : c.wf) (h : l.Inv c) : (l.start c n).Inv c := by
  obtain ⟨-, -, -, hrefills⟩ := hc
  have hstaged0 := refill_staged (h := .half0) (armed_staged n .half1 h)
  have hstaged := refill_staged (h := .half1) hstaged0
  have hcount0 := refill_resetCount_le (l.armed c n) .half0
  have hcount := refill_resetCount_le ((l.armed c n).refill .half0) .half1
  have hzero : (l.armed c n).resetCount = 0 := rfl
  rw [start_eq]
  generalize ((l.armed c n).refill .half0).refill .half1 = r at *
  exact inv_of_running ⟨hstaged.count, hstaged.cursors, hstaged.bit, hstaged.legal, hstaged.line, hstaged.halves⟩
    (by show r.resetCount ≤ _; omega) rfl rfl rfl rfl

/-! The operations on the frame store and on the slots keep the transfer registers. -/

theorem setNextBuf_inv {c : Config} {l : Led} (b : List Color) (h : l.Inv c) : (l.setNextBuf b).Inv c := by
  rw [setNextBuf_eq]; exact h

/-- Every transition of the engine keeps its invariant. -/
theorem ledEffect_inv {c : Config} {l : Led} {i : Instr} (hc : c.wf) (h : l.Inv c) (hg : ledGuard l i) :
    (ledEffect c l i).Inv c := by
  cases i with
  | ledSetPix idx color =>
    obtain ⟨b, hb⟩ := setPixel_eq_setNextBuf c idx color l
    simp only [ledEffect, hb]
    exact setNextBuf_inv b h
  | ledSetAll _ _ => exact setNextBuf_inv _ h
  | ledRefresh n =>
    rw [ledEffect]
    split
    · exact h
    · exact start_inv n hc h
  | dmaBeat =>
    obtain ⟨hen, hov⟩ := hg
    exact beat_inv h hen hov
  | irqHt => exact reload_inv (due_of_htPend h hg)
  | irqTc => exact reload_inv (due_of_tcPend h hg)
  | _ => exact h

/-- The engine after reset. -/
theorem led_atReset_inv (c : Config) : (Led.atReset c).Inv c := by
  have hzero : ∀ k : Fin 48, (Led.atReset c).staging[k] = dutyReset := fun k => Vector.getElem_replicate k.isLt
  refine ⟨⟨?_, ?_, rfl, ?_, ?_, ?_⟩, ?_, fun k => .inr (.inr (hzero k)), nofun, fun _ => rfl, nofun, nofun⟩ <;>
    simp [Led.atReset, Led.DmaInv]

end Sys2Proof.Machine

/-! The storages keep their sizes (10_state.md R13, R18, 20_memory.md R40). -/

namespace Sys2Proof.Machine

theorem fifoEffect_store_length {c : Config} {f : Fifo} (i : Instr) (h : f.store.length = c.fifoN) :
    (fifoEffect c f i).store.length = c.fifoN := by
  cases i with
  | fifoInit | fifoClear => exact zeroed_store_length c f
  | fifoPush v => exact (push_store_length c _ f).trans h
  | fifoPop => simp only [fifoEffect, pop_store, h]
  | _ => exact h

/-- Both frame buffers have `n` pixels. -/
abbrev Led.BufLengths (n : Nat) (l : Led) : Prop := l.buf0.length = n ∧ l.buf1.length = n

theorem reload_bufLengths {c : Config} {h : Half} {l : Led} {n : Nat} (hl : l.BufLengths n) :
    (l.reload c h).1.BufLengths n := by
  obtain ⟨h0, h1⟩ := reload_bufs c h l
  rwa [Led.BufLengths, h0, h1]

theorem ledEffect_bufLengths {c : Config} {l : Led} {n : Nat} (i : Instr) (hl : l.BufLengths n) :
    (ledEffect c l i).BufLengths n := by
  obtain ⟨hl0, hl1⟩ := hl
  cases i with
  | ledSetPix idx color =>
    obtain ⟨h0, h1⟩ := setPixel_lengths c idx color l
    exact ⟨h0.trans hl0, h1.trans hl1⟩
  | ledSetAll count color =>
    obtain ⟨h0, h1⟩ := setAll_lengths c count color l
    exact ⟨h0.trans hl0, h1.trans hl1⟩
  | ledRefresh count =>
    obtain ⟨h0, h1⟩ := start_bufs c count l
    have hnext : l.nextBuf.length = n := by unfold Led.nextBuf; split <;> assumption
    rw [ledEffect]
    split
    · exact ⟨hl0, hl1⟩
    · rw [Led.BufLengths, h0, h1]
      exact ⟨hnext, hnext⟩
  | irqHt | irqTc => exact reload_bufLengths ⟨hl0, hl1⟩
  | _ => exact ⟨hl0, hl1⟩

/-- A state whose FIFO and engine are the ones after reset has the storage form. -/
theorem memory_wf_of_reset_blocks {t : State} (out : Byte) (hf : t.fifo = Fifo.atReset t.cfg out)
    (hl : t.led = Led.atReset t.cfg) : Memory.wf t := by
  simp [Memory.wf, hf, hl, Fifo.atReset, Led.atReset]

theorem exec_keeps_memory_wf {i : Instr} {s t : State} (hs : Memory.wf s) (h : exec i s = .next t) : Memory.wf t := by
  obtain ⟨hstore, hbufs⟩ := hs
  by_cases hi : i = .sysReset
  · subst hi; cases h
    exact memory_wf_of_reset_blocks _ rfl rfl
  · obtain ⟨-, rfl⟩ := exec_next hi h
    exact ⟨fifoEffect_store_length i hstore, ledEffect_bufLengths i hbufs⟩

/-- A held requester that is performed does what its instruction does when it is not held. -/
theorem performRefresh_eq_exec {n : U16} {s : State} (hb : s.led.busy = false) :
    exec (.ledRefresh n) s = .next (State.performRefresh n s) := by
  simp [exec, execLedRefresh, hb]

/-- A property of states that does not look at the environment's list, the held requests or the response is kept by every step
when every transition keeps it: a resumption is a transition, or nothing (logs 3 and 4). -/
theorem step_keeps {P : State → Prop}
    (hfree : ∀ s input held rsp, P s → P { s with input := input, held := held, rsp := rsp })
    (hexec : ∀ i s t, P s → exec i s = .next t → P t) {s t : State} (hs : P s) (h : step s = .next t) : P t := by
  obtain ⟨-, rfl⟩ | ⟨w, rest, i, -, -, h⟩ | ⟨k, rest, -, rfl⟩ := step_next h
  · exact hs
  · exact hexec i _ t (hfree s rest s.held s.rsp hs) h
  · obtain e | ⟨n, -, hb, e⟩ := resumeHeld_cases k { s with input := rest } <;> rw [e]
    · exact hfree s rest s.held none hs
    · exact hexec (.ledRefresh n) _ _ (hfree s rest (s.held.eraseIdx k) s.rsp hs) (performRefresh_eq_exec hb)

/-- Settles O46: every transition keeps the storage form, hence every step. -/
theorem stepKeepsTheStorageForm : Obligations.StepKeepsTheStorageForm :=
  fun _ _ hs h => step_keeps (P := Memory.wf) (fun _ _ _ _ hw => hw) (fun _ _ _ hw => exec_keeps_memory_wf hw) hs h

end Sys2Proof.Machine

/-! The invariant of the machine, block by block (10_state.md R14, R28; 44_parser_header.md R143). -/

namespace Sys2Proof.Machine

theorem fifoEffect_inv {c : Config} {f : Fifo} (i : Instr) (hc : c.wf) (h : f.Inv c) : (fifoEffect c f i).Inv c := by
  obtain ⟨hn, -⟩ := hc
  cases i with
  | fifoInit | fifoClear => exact zeroed_inv c f hn
  | fifoPush v => exact push_inv c f _ hn h
  | fifoPop => exact pop_inv c f hn h
  | _ => exact h

theorem hp_arrive_inv {p : Hp} (now : U32) (h : p.Inv) : (p.arrive now).Inv := by
  cases ht : timedOut now p.lastT
  · rw [Hp.arrive_within ht]; exact h
  · rw [Hp.arrive_after ht]

/-- While the header is read the running index stays 0. -/
theorem matchMagic_inv {p : Hp} (b awaited : Byte) (next : HeaderSub) (h : p.pixIdx = 0) : (p.matchMagic b awaited next).Inv := by
  unfold Hp.matchMagic; split <;> exact h

/-- The first pixel has index 0, below a count of at least 1 (44_parser_header.md R141). -/
theorem checkHeader_inv {p : Hp} (b : Byte) (h : p.pixIdx = 0) : (p.checkHeader b).Inv := by
  unfold Hp.checkHeader
  split
  · show 0 < max _ 1; omega
  · exact h

/-- The next pixel's index is below the count, or the frame is over. -/
theorem finishPixel_inv (p : Hp) (b : Byte) : (p.finishPixel b).1.Inv := by
  unfold Hp.finishPixel
  split
  · next hlt => show (p.pixIdx + 1).toNat < max p.cnt.toNat 1; omega
  · rfl

theorem hp_assign_inv {p : Hp} (b : Byte) (h : p.Inv) : (p.assign b).1.Inv := by
  unfold Hp.Inv at h
  unfold Hp.assign
  cases hst : p.st with
  | header sub =>
    rw [hst] at h
    cases sub with
    | magicByte1 | magicByte2 | magicByte3 => exact matchMagic_inv _ _ _ h
    | lengthHi | lengthLo => exact h
    | checksum => exact checkHeader_inv b h
  | ledGreen | ledRed => rw [hst] at h; exact h
  | ledBlue => exact finishPixel_inv p b

theorem hpEffect_inv {p : Hp} (i : Instr) (h : p.Inv) : (hpEffect p i).Inv := by
  cases i with
  | hpByte now b => exact hp_assign_inv b (hp_arrive_inv now h)
  | hpInit => rfl
  | _ => exact h

/-- Reset meets the invariant, whatever `FIFO.OUT` holds (70_reset_and_hazards.md R170, R171). -/
theorem inv_of_reset_blocks {t : State} (hc : t.cfg.wf) (out : Byte) (hf : t.fifo = Fifo.atReset t.cfg out)
    (hl : t.led = Led.atReset t.cfg) (hh : t.hp = Hp.atReset) : t.Inv := by
  have hfifo : (Fifo.atReset t.cfg out).Inv t.cfg := zeroed_inv t.cfg (Fifo.atReset t.cfg out) hc.1
  refine ⟨hc, memory_wf_of_reset_blocks out hf hl, ?_, ?_⟩
  · rw [hf]; exact hfifo
  · rw [hl, hh]
    obtain ⟨hcounters, hdma, hstaging⟩ := led_atReset_inv t.cfg
    exact ⟨hcounters, hdma, hstaging, rfl⟩

theorem exec_keeps_inv {i : Instr} {s t : State} (hs : s.Inv) (h : exec i s = .next t) : t.Inv := by
  obtain ⟨hc, hmem, hfifo, hcounters, hdma, hstaging, hhp⟩ := hs
  by_cases hi : i = .sysReset
  · subst hi; cases h
    exact inv_of_reset_blocks hc _ rfl rfl rfl
  · have hmem' := exec_keeps_memory_wf hmem h
    obtain ⟨hg, rfl⟩ := exec_next hi h
    obtain ⟨hcounters', hdma', hstaging'⟩ := ledEffect_inv hc ⟨hcounters, hdma, hstaging⟩ hg
    exact ⟨hc, hmem', fifoEffect_inv i hc hfifo, hcounters', hdma', hstaging', hpEffect_inv i hhp⟩

/-- Settles O45: every transition keeps each block's invariant, hence every step, a resumed `LED.REFRESH` included. -/
theorem stepKeepsTheInvariant : Obligations.StepKeepsTheInvariant :=
  fun _ _ hs h => step_keeps (P := State.Inv) (fun _ _ _ _ hinv => hinv) (fun _ _ _ hinv => exec_keeps_inv hinv) hs h

/-- Settles O44, by the blocks' values after reset. -/
theorem resetMeetsTheInvariant : Obligations.ResetMeetsTheInvariant :=
  ⟨fun c hc => inv_of_reset_blocks (t := State.resetWith c) hc 0 rfl rfl rfl,
    inv_of_reset_blocks (t := State.reset) (by decide) 0 rfl rfl rfl⟩

end Sys2Proof.Machine

/-! The idle step, the wire, the values after reset, and the first byte. -/

namespace Sys2Proof.Machine

/-- Settles O7: a step takes the next stimulus, and there is none (10_state.md R37). -/
theorem stepIdlesWithoutARequest : Obligations.StepIdlesWithoutARequest := by
  intro s hinput
  simp only [step, advance, hinput]

/-- A disabled generator holds the wire low, whatever it was last given (10_state.md R26). -/
theorem levelAt_of_disabled {l : Led} (h : l.dmaEn = false) (tick : Nat) : l.levelAt tick = false := by
  unfold Led.levelAt
  split
  · rfl
  · simp [h]

/-- After a beat the wire carries the value that the beat moved. -/
theorem levelAt_beat {l : Led} (h : l.dmaEn = true) (tick : Nat) :
    l.beat.levelAt tick = decide (tick < l.staging[l.dmaPos].toNat) := by
  simp [Led.levelAt, Led.beat, h]

/-- Settles O29 (30_encoding.md R70). -/
theorem wireLevelFollowsTheDutyValue : Obligations.WireLevelFollowsTheDutyValue := by
  refine ⟨fun s t h => ?_, fun s tick hoff => levelAt_of_disabled hoff tick⟩
  obtain ⟨hen, -, rfl⟩ := dmaBeat_next h
  exact ⟨List.map_congr_left fun tick _ => levelAt_beat hen tick, levelAt_beat hen⟩

/-- Settles O42: the blocks' values after reset are the table's (10_state.md R33, R34). -/
theorem resetStateHoldsTheTableValues : Obligations.ResetStateHoldsTheTableValues :=
  fun _ => ⟨rfl, rfl, rfl, rfl, rfl, rfl, rfl, rfl⟩

/-- After reset a timeout writes the values that the registers already hold (10_state.md R36). -/
theorem ep_arrive_atReset (now : U32) : Ep.atReset.arrive now = { Ep.atReset with lastT := now } := by
  cases ht : timedOut now Ep.atReset.lastT
  · exact Ep.arrive_within ht
  · exact Ep.arrive_after ht

theorem hp_arrive_atReset (now : U32) : Hp.atReset.arrive now = { Hp.atReset with lastT := now } := by
  cases ht : timedOut now Hp.atReset.lastT
  · exact Hp.arrive_within ht
  · exact Hp.arrive_after ht

theorem ep_byte_atReset (now : U32) (b : Byte) :
    Ep.atReset.byte now b = ({ Ep.atReset with cyc := .red, pend := { r := 0, g := b, b := 0 }, lastT := now }, []) := by
  rw [Ep.byte, ep_arrive_atReset]; rfl

theorem hp_byte_atReset (now : U32) (b : Byte) :
    Hp.atReset.byte now b =
      ({ Hp.atReset with st := .header (if b = 0x41 then .magicByte2 else .magicByte1), lastT := now }, []) := by
  rw [Hp.byte, hp_arrive_atReset]
  show (Hp.matchMagic b 0x41 .magicByte2 _, _) = _
  unfold Hp.matchMagic
  split <;> rfl

/-- Settles O43: the byte's effect on a parser after reset does not depend on the clock (10_state.md R36). -/
theorem firstByteAfterResetWhateverTheClock : Obligations.FirstByteAfterResetWhateverTheClock := by
  intro c now b
  have hep : (State.resetWith c).ep.byte now b = _ := ep_byte_atReset now b
  have hhp : (State.resetWith c).hp.byte now b = _ := hp_byte_atReset now b
  constructor
  · simp only [exec, execEpByte, hep]; rfl
  · simp only [exec, execHpByte, hhp]; rfl

end Sys2Proof.Machine

/-! The request word: the six shapes of row, which opcode has which, and what each reads (30_encoding.md R60, R62, R63). -/

namespace Sys2Proof

/-- The shape of a row of the opcode table: where its operands stand, and the transition that they make. -/
inductive RowShape where
  | bare (i : Instr)
  | element
  | idx (k : U16 → Instr)
  | idxColor (k : U16 → Color → Instr)
  | timedByte (k : U32 → Byte → Instr)
  | slot (k : Slot → Instr)

/-- What a row of this shape makes of a word. -/
def RowShape.read (w : Req) : RowShape → Except Illegal Instr
  | .bare i => rowBare w i
  | .element => rowElement w
  | .idx k => rowIdx w k
  | .idxColor k => rowIdxColor w k
  | .timedByte k => rowTimedByte w k
  | .slot k => rowSlot w k

/-- The row of an opcode (30_encoding.md R62), `none` for a reserved one (R64). -/
def shapeOf (op : Byte) : Option RowShape :=
  match op with
  | 0x00#8 => some (.bare .fifoInit)
  | 0x01#8 => some (.bare .fifoClear)
  | 0x02#8 => some .element
  | 0x03#8 => some (.bare .fifoPop)
  | 0x04#8 => some (.bare .fifoIsEmpty)
  | 0x10#8 => some (.idxColor .ledSetPix)
  | 0x11#8 => some (.idxColor .ledSetAll)
  | 0x12#8 => some (.idx .ledGetPix)
  | 0x13#8 => some (.idx .ledRefresh)
  | 0x14#8 => some (.bare .ledTcPoll)
  | 0x15#8 => some (.slot .ledSetCb)
  | 0x18#8 => some (.bare .dmaBeat)
  | 0x19#8 => some (.bare .irqHt)
  | 0x1A#8 => some (.bare .irqTc)
  | 0x20#8 => some (.timedByte .epByte)
  | 0x21#8 => some (.bare .epEdge)
  | 0x22#8 => some (.slot .epSetCbC)
  | 0x23#8 => some (.slot .epSetCbF)
  | 0x24#8 => some (.bare .epGetCount)
  | 0x30#8 => some (.timedByte .hpByte)
  | 0x32#8 => some (.slot .hpSetCbC)
  | 0x33#8 => some (.slot .hpSetCbF)
  | 0x34#8 => some (.bare .hpInit)
  | 0xFF#8 => some (.bare .sysReset)
  | _ => none

/-- The decoder takes the row of the opcode and reads the word by it. -/
theorem decode_eq_read (w : Req) :
    decode w = ((shapeOf (opOf w)).map (RowShape.read w)).getD (.error (.reservedOpcode (opOf w))) := by
  unfold decode shapeOf
  generalize opOf w = op
  split
  case h_25 => simp [*]
  all_goals rfl

theorem decode_of_shape {w : Req} {sh : RowShape} (h : shapeOf (opOf w) = some sh) : decode w = sh.read w := by
  rw [decode_eq_read, h]; rfl

theorem decode_of_reserved {w : Req} (h : shapeOf (opOf w) = none) : decode w = .error (.reservedOpcode (opOf w)) := by
  rw [decode_eq_read, h]; rfl

theorem shape_of_decode {w : Req} {i : Instr} (h : decode w = .ok i) :
    ∃ sh, shapeOf (opOf w) = some sh ∧ sh.read w = .ok i := by
  cases hs : shapeOf (opOf w) with
  | none => rw [decode_of_reserved hs] at h; cases h
  | some sh => exact ⟨sh, rfl, (decode_of_shape hs).symm.trans h⟩

/-- The transition `i` has the operands that the fields `a` and `d` hold in a row of this shape. -/
def RowShape.Holds (i : Instr) (a : U32) (d : BitVec 24) : RowShape → Prop
  | .bare j => i = j ∧ a = 0 ∧ d = 0
  | .element => i = .fifoPush d ∧ a = 0 ∧ d.toNat < 2 ^ elemBits
  | .idx k => ∃ x : U16, i = k x ∧ a = x.setWidth 32 ∧ d = 0
  | .idxColor k => ∃ (x : U16) (c : Color), i = k x c ∧ a = x.setWidth 32 ∧ d = packColor c
  | .timedByte k => ∃ b : Byte, i = k a b ∧ d = b.setWidth 24
  | .slot k => (a = 1 ∧ i = k (some d)) ∨ (a = 0 ∧ d = 0 ∧ i = k none)

theorem idxOf_eq {w : Req} {x : U16} (h : aOf w = x.setWidth 32) : idxOf w = x := by
  rw [idxOf, h, extract_setWidth_low x (by decide)]

theorem byteOf_eq {w : Req} {b : Byte} (h : dOf w = b.setWidth 24) : byteOf w = b := by
  rw [byteOf, h, extract_setWidth_low b (by decide)]

/-- What each shape of row accepts. -/
theorem read_eq_ok {sh : RowShape} {w : Req} {i : Instr} : sh.read w = .ok i ↔ sh.Holds i (aOf w) (dOf w) := by
  cases sh with
  | bare j => exact rowBare_ok
  | element => exact rowElement_ok
  | idx k =>
    refine rowIdx_ok.trans ⟨fun h => ⟨_, h⟩, ?_⟩
    rintro ⟨x, hi, ha, hd⟩
    rw [idxOf_eq ha]
    exact ⟨hi, ha, hd⟩
  | idxColor k =>
    refine rowIdxColor_ok.trans ⟨fun ⟨hi, ha⟩ => ⟨_, _, hi, ha, (packColor_unpackColor _).symm⟩, ?_⟩
    rintro ⟨x, c, hi, ha, hd⟩
    rw [idxOf_eq ha, hd, unpackColor_packColor]
    exact ⟨hi, ha⟩
  | timedByte k =>
    refine rowTimedByte_ok.trans ⟨fun h => ⟨_, h⟩, ?_⟩
    rintro ⟨b, hi, hd⟩
    rw [byteOf_eq hd]
    exact ⟨hi, hd⟩
  | slot k => exact rowSlot_ok

/-- A transition that a row reads is well-formed, and its word has the row's opcode and the fields that were read. -/
theorem encode_of_holds {op : Byte} {sh : RowShape} {i : Instr} {a : U32} {d : BitVec 24} (hs : shapeOf op = some sh)
    (h : sh.Holds i a d) : i.wf = true ∧ encode i = pack op a d := by
  unfold shapeOf at hs
  split at hs <;> cases hs
  case h_1 | h_2 | h_4 | h_5 | h_10 | h_12 | h_13 | h_14 | h_16 | h_19 | h_23 | h_24 =>
    obtain ⟨rfl, rfl, rfl⟩ := h
    exact ⟨rfl, rfl⟩
  case h_3 =>
    obtain ⟨rfl, rfl, hd⟩ := h
    exact ⟨decide_eq_true hd, rfl⟩
  case h_6 | h_7 =>
    obtain ⟨x, c, rfl, rfl, rfl⟩ := h
    exact ⟨rfl, rfl⟩
  case h_8 | h_9 =>
    obtain ⟨x, rfl, rfl, rfl⟩ := h
    exact ⟨rfl, rfl⟩
  case h_15 | h_20 =>
    obtain ⟨b, rfl, rfl⟩ := h
    exact ⟨rfl, rfl⟩
  case h_11 | h_17 | h_18 | h_21 | h_22 =>
    obtain ⟨rfl, rfl⟩ | ⟨rfl, rfl, rfl⟩ := h <;> exact ⟨rfl, rfl⟩

/-- The word of a well-formed transition has the opcode of a row that reads the transition from the word's fields. -/
theorem holds_of_wf {i : Instr} (h : i.wf = true) :
    ∃ op a d sh, encode i = pack op a d ∧ shapeOf op = some sh ∧ sh.Holds i a d := by
  cases i with
  | fifoPush v => exact ⟨_, _, _, _, rfl, rfl, rfl, rfl, of_decide_eq_true h⟩
  | ledSetPix x c | ledSetAll x c => exact ⟨_, _, _, _, rfl, rfl, x, c, rfl, rfl, rfl⟩
  | ledGetPix x | ledRefresh x => exact ⟨_, _, _, _, rfl, rfl, x, rfl, rfl, rfl⟩
  | epByte t b | hpByte t b => exact ⟨_, _, _, _, rfl, rfl, b, rfl, rfl⟩
  | ledSetCb x | epSetCbC x | epSetCbF x | hpSetCbC x | hpSetCbF x =>
    cases x with
    | none => exact ⟨_, _, _, _, rfl, rfl, .inr ⟨rfl, rfl, rfl⟩⟩
    | some id => exact ⟨_, _, _, _, rfl, rfl, .inl ⟨rfl, rfl⟩⟩
  | _ => exact ⟨_, _, _, _, rfl, rfl, rfl, rfl, rfl⟩

/-- Decode and encode are inverse to each other between the legal words and the well-formed transitions. -/
theorem decode_eq_ok {w : Req} {i : Instr} : decode w = .ok i ↔ i.wf = true ∧ encode i = w := by
  constructor
  · intro h
    obtain ⟨sh, hs, hr⟩ := shape_of_decode h
    obtain ⟨hwf, he⟩ := encode_of_holds hs (read_eq_ok.mp hr)
    exact ⟨hwf, he.trans (pack_fields w)⟩
  · rintro ⟨hwf, rfl⟩
    obtain ⟨op, a, d, sh, he, hs, hh⟩ := holds_of_wf hwf
    rw [he, decode_of_shape (by rw [opOf_pack]; exact hs), read_eq_ok, aOf_pack, dOf_pack]
    exact hh

/-- Settles O1: the word of a well-formed transition is read by the row of its opcode (30_encoding.md R60, R62, R72). -/
theorem decodeEncodeRoundTrip : Obligations.DecodeEncodeRoundTrip :=
  fun _ hwf => decode_eq_ok.mpr ⟨hwf, rfl⟩

/-- Settles O2: a row reads every bit of the word (30_encoding.md R63, R65). -/
theorem legalWordIsItsEncoding : Obligations.LegalWordIsItsEncoding :=
  fun _ _ h => decode_eq_ok.mp h

/-! The rows of spec/opcode_table.json. -/

/-- Every transition has its row, which the word of a well-formed one matches. -/
theorem rowMatch_statement (i : Instr) : Laws.RowMatch.Statement i := by
  cases i with
  | fifoInit => exact Laws.RowMatch.fifoInit
  | fifoClear => exact Laws.RowMatch.fifoClear
  | fifoPush v => exact Laws.RowMatch.fifoPush v
  | fifoPop => exact Laws.RowMatch.fifoPop
  | fifoIsEmpty => exact Laws.RowMatch.fifoIsEmpty
  | ledSetPix idx c => exact Laws.RowMatch.ledSetPix idx c
  | ledSetAll n c => exact Laws.RowMatch.ledSetAll n c
  | ledGetPix idx => exact Laws.RowMatch.ledGetPix idx
  | ledRefresh n => exact Laws.RowMatch.ledRefresh n
  | ledTcPoll => exact Laws.RowMatch.ledTcPoll
  | ledSetCb h => exact Laws.RowMatch.ledSetCb h
  | dmaBeat => exact Laws.RowMatch.dmaBeat
  | irqHt => exact Laws.RowMatch.irqHt
  | irqTc => exact Laws.RowMatch.irqTc
  | epByte t b => exact Laws.RowMatch.epByte t b
  | epEdge => exact Laws.RowMatch.epEdge
  | epSetCbC h => exact Laws.RowMatch.epSetCbC h
  | epSetCbF h => exact Laws.RowMatch.epSetCbF h
  | epGetCount => exact Laws.RowMatch.epGetCount
  | hpByte t b => exact Laws.RowMatch.hpByte t b
  | hpSetCbC h => exact Laws.RowMatch.hpSetCbC h
  | hpSetCbF h => exact Laws.RowMatch.hpSetCbF h
  | hpInit => exact Laws.RowMatch.hpInit
  | sysReset => exact Laws.RowMatch.sysReset

/-- The bits of `a` that must be zero in a row of this shape; for a handler slot, all but `a[0]`. -/
def RowShape.aMask : RowShape → U32
  | .bare _ | .element => 0xFFFFFFFF
  | .idx _ | .idxColor _ => 0xFFFF0000
  | .timedByte _ => 0
  | .slot _ => 0xFFFFFFFE

/-- The bits of `d` that must be zero in a row of this shape. -/
def RowShape.dMask : RowShape → BitVec 24
  | .bare _ | .idx _ => 0xFFFFFF
  | .timedByte _ => 0xFFFF00
  | .element | .idxColor _ | .slot _ => 0

/-- The condition of a row of this shape beside its mask. -/
def RowShape.condition : RowShape → RowCondition
  | .bare _ | .idx _ | .idxColor _ | .timedByte _ => .noCondition
  | .element => .elementFits
  | .slot _ => .noneHasNoHandler

/-- All the transitions of a row of this shape have this mnemonic. -/
def RowShape.Named (name : String) : RowShape → Prop
  | .bare i => i.mnemonic = name
  | .element => ∀ v, (Instr.fifoPush v).mnemonic = name
  | .idx k => ∀ x, (k x).mnemonic = name
  | .idxColor k => ∀ x c, (k x c).mnemonic = name
  | .timedByte k => ∀ t b, (k t b).mnemonic = name
  | .slot k => ∀ h, (k h).mnemonic = name

/-- A row of the opcode table has the match, the mask, the condition and the mnemonic of this shape. -/
def OpcodeRow.IsOf (row : OpcodeRow) (sh : RowShape) : Prop :=
  shapeOf (opOf row.matchWord) = some sh ∧ row.matchWord = pack (opOf row.matchWord) 0 0 ∧
    row.mask = pack 0xFF sh.aMask sh.dMask ∧ row.condition = sh.condition ∧ sh.Named row.mnemonic

theorem opcodeTable_isOf : ∀ row ∈ opcodeTable, ∃ sh, row.IsOf sh := by
  simp only [opcodeTable, List.cons_append, List.nil_append, List.forall_mem_cons, List.not_mem_nil,
    false_imp_iff, implies_true, and_true]
  and_intros
  all_goals exact ⟨_, rfl, rfl, rfl, rfl, by dsimp only [RowShape.Named]; intros; rfl⟩

/-- A masked word is a match when its opcode is the match's and the masked bits of its fields are zero. -/
theorem masked_eq_pack {w : Req} {op : Byte} {am : U32} {dm : BitVec 24} (h : w &&& pack 0xFF am dm = pack op 0 0) :
    opOf w = op ∧ aOf w &&& am = 0 ∧ dOf w &&& dm = 0 := by
  have hop := congrArg opOf h
  have ha := congrArg aOf h
  have hd := congrArg dOf h
  rw [opOf_and, opOf_pack, opOf_pack] at hop
  rw [aOf_and, aOf_pack, aOf_pack] at ha
  rw [dOf_and, dOf_pack, dOf_pack] at hd
  exact ⟨BitVec.and_allOnes.symm.trans hop, ha, hd⟩

/-- An operand whose masked high part is zero is the zero extension of its low part. -/
theorem eq_setWidth_of_high_masked {m n : Nat} {x mask : BitVec n} (hmask : mask.extractLsb' m (n - m) = BitVec.allOnes _)
    (h : x &&& mask = 0) : x = (x.extractLsb' 0 m).setWidth n := by
  have hx := congrArg (fun y : BitVec n => y.extractLsb' m (n - m)) h
  simp only [BitVec.extractLsb'_and, hmask, BitVec.and_allOnes] at hx
  refine (setWidth_extract_low x (hx.trans ?_)).symm
  simp

/-- `a[31:1]` is zero: the field is `a[0]`. -/
theorem eq_bit_of_masked {a : U32} (h : a &&& 0xFFFFFFFE = 0) : a = 0 ∧ a.getLsbD 0 = false ∨ a = 1 := by
  rw [eq_setWidth_of_high_masked (m := 1) (by decide) h]
  generalize a.extractLsb' 0 1 = b
  revert b
  decide

/-- The fields that a row's mask and condition let through are the ones that its shape reads. -/
theorem holds_of_masked {sh : RowShape} {w : Req} (ha : aOf w &&& sh.aMask = 0) (hd : dOf w &&& sh.dMask = 0)
    (hc : sh.condition.holdsOf w = true) : ∃ i, sh.Holds i (aOf w) (dOf w) := by
  cases sh with
  | bare i => exact ⟨i, rfl, BitVec.and_allOnes.symm.trans ha, BitVec.and_allOnes.symm.trans hd⟩
  | element => exact ⟨_, rfl, BitVec.and_allOnes.symm.trans ha, of_decide_eq_true hc⟩
  | idx k => exact ⟨_, _, rfl, eq_setWidth_of_high_masked (m := 16) (mask := 0xFFFF0000) (by decide) ha, BitVec.and_allOnes.symm.trans hd⟩
  | idxColor k =>
    exact ⟨_, _, _, rfl, eq_setWidth_of_high_masked (m := 16) (mask := 0xFFFF0000) (by decide) ha, (packColor_unpackColor _).symm⟩
  | timedByte k => exact ⟨_, _, rfl, eq_setWidth_of_high_masked (m := 8) (mask := 0xFFFF00) (by decide) hd⟩
  | slot k =>
    obtain ⟨ha, hbit⟩ | ha := eq_bit_of_masked ha
    · have hc : w.getLsbD 24 = true ∨ dOf w = 0 := of_decide_eq_true hc
      rw [getLsbD_24, hbit] at hc
      exact ⟨_, .inr ⟨ha, hc.resolve_left Bool.false_ne_true, rfl⟩⟩
    · exact ⟨_, .inl ⟨ha, rfl⟩⟩

theorem mnemonic_of_holds {sh : RowShape} {name : String} {i : Instr} {a : U32} {d : BitVec 24} (hn : sh.Named name)
    (h : sh.Holds i a d) : i.mnemonic = name := by
  cases sh with
  | bare j => obtain ⟨rfl, -⟩ := h; exact hn
  | element => obtain ⟨rfl, -⟩ := h; exact hn _
  | idx k => obtain ⟨x, rfl, -⟩ := h; exact hn x
  | idxColor k => obtain ⟨x, c, rfl, -⟩ := h; exact hn x c
  | timedByte k => obtain ⟨b, rfl, -⟩ := h; exact hn a b
  | slot k => obtain ⟨-, rfl⟩ | ⟨-, -, rfl⟩ := h <;> exact hn _

/-- A word that matches a row is read by the row's shape. -/
theorem decode_of_matches {row : OpcodeRow} {w : Req} (hrow : row ∈ opcodeTable) (h : row.matches w = true) :
    ∃ i, decode w = .ok i ∧ i.mnemonic = row.mnemonic := by
  obtain ⟨sh, hs, hmatch, hmask, hcond, hname⟩ := opcodeTable_isOf row hrow
  rw [OpcodeRow.matches, Bool.and_eq_true, decide_eq_true_eq, hmask, hmatch, hcond] at h
  obtain ⟨hbits, hc⟩ := h
  obtain ⟨hop, ha, hd⟩ := masked_eq_pack hbits
  obtain ⟨i, hi⟩ := holds_of_masked ha hd hc
  exact ⟨i, (decode_of_shape (hop ▸ hs)).trans (read_eq_ok.mpr hi), mnemonic_of_holds hname hi⟩

/-- Settles O3: a legal word is the encoding of a transition, which matches the transition's row, and a word that matches a row is
read by it (30_encoding.md R63). -/
theorem wordIsLegalIffItMatchesARow : Obligations.WordIsLegalIffItMatchesARow := by
  refine fun w => ⟨fun i hi => ?_, fun _ hrow h => decode_of_matches hrow h⟩
  obtain ⟨hwf, rfl⟩ := decode_eq_ok.mp hi
  obtain ⟨row, hrow, hname, hmatch⟩ := rowMatch_statement i
  exact ⟨row, hrow, hmatch hwf, hname⟩

/-! Illegal words. -/

/-- An opcode that has a row is not one of those that 30_encoding.md R64 reserves. -/
theorem shapeOf_reserved {op : Byte}
    (h : (0x05 ≤ op.toNat ∧ op.toNat ≤ 0x0F) ∨ op.toNat = 0x16 ∨ op.toNat = 0x17 ∨ (0x1B ≤ op.toNat ∧ op.toNat ≤ 0x1F) ∨
      (0x25 ≤ op.toNat ∧ op.toNat ≤ 0x2F) ∨ op.toNat = 0x31 ∨ (0x35 ≤ op.toNat ∧ op.toNat ≤ 0xFE)) :
    shapeOf op = none := by
  unfold shapeOf
  split
  case h_25 => rfl
  all_goals exact absurd h (by decide)

/-- Settles O5: each word's fields are the operands (30_encoding.md R62, R63, R72). -/
theorem sampleWordsDecode : Obligations.SampleWordsDecode :=
  ⟨rfl, rfl, rfl, rfl, rfl, rfl, rfl, rfl⟩

end Sys2Proof

/-! The duty values of a pixel, the responses, and the stops (30_encoding.md R61, R64, R69; 42_encoder.md R113). -/

namespace Sys2Proof.Machine

/-- Bit `23 - i` of green, red, blue is bit `7 - i mod 8` of the channel that has the turn (30_encoding.md R69). -/
theorem channelOf_getLsbD (c : Color) {i : Nat} (hi : i < 24) :
    (channelOf c i).getLsbD (7 - i % 8) = (c.g ++ c.r ++ c.b).getLsbD (23 - i) := by
  simp only [BitVec.getLsbD_append, channelOf]
  rcases (by omega : i < 8 ∨ 8 ≤ i ∧ i < 16 ∨ 16 ≤ i) with h | ⟨h, h'⟩ | h
  · simp only [h, if_true, show ¬ 23 - i < 8 by omega, show ¬ 23 - i - 8 < 8 by omega, if_false,
      show 7 - i % 8 = 23 - i - 8 - 8 by omega]
  · simp only [h', if_true, show ¬ i < 8 by omega, show ¬ 23 - i < 8 by omega, show 23 - i - 8 < 8 by omega, if_false,
      show 7 - i % 8 = 23 - i - 8 by omega]
  · simp only [show ¬ i < 8 by omega, show ¬ i < 16 by omega, show 23 - i < 8 by omega, if_true, if_false,
      show 7 - i % 8 = 23 - i by omega]

/-- Settles O25: the channels in their order are the 24 bits (30_encoding.md R69). -/
theorem pixelDutiesGreenRedBlueMsbFirst : Obligations.PixelDutiesGreenRedBlueMsbFirst := by
  refine fun c => ⟨by simp [pixelDuties], fun i hi => ⟨?_, by simp [pixelDuties, hi]⟩⟩
  rw [encodePixel, channelOf_getLsbD c hi]
  rfl

/-- The bits between `ok` and `data` of a response word are zero (30_encoding.md R61). -/
theorem rspWord_zeros (ok : Bool) (data : BitVec 24) : (rspWord ok data).extractLsb' 24 7 = 0 :=
  (extract_append_high (BitVec.ofBool ok ++ (0 : BitVec 7)) data 0 7).trans
    ((extract_append_low (BitVec.ofBool ok) 0 0 7 (by decide)).trans (extract_all 0))

theorem answer_of_event {s : State} {i : Instr} (h : i.isEvent = true) : answer s i = none := by
  cases i with
  | dmaBeat | irqHt | irqTc | epByte _ _ | epEdge | hpByte _ _ => rfl
  | _ => cases h

/-- An operation that is not held answers a word with zeros in bits 30:24. -/
theorem answer_of_operation {s : State} {i : Instr} (h : i.isEvent = false)
    (hfree : (∀ n, i ≠ .ledRefresh n) ∨ s.led.busy = false) : ∃ w, answer s i = some w ∧ w.extractLsb' 24 7 = 0 := by
  cases i with
  | dmaBeat | irqHt | irqTc | epByte _ _ | epEdge | hpByte _ _ => cases h
  | ledRefresh n =>
    have hb : s.led.busy = false := hfree.resolve_left fun hn => hn n rfl
    exact ⟨rspWord true 0, by simp only [answer, hb, Bool.false_eq_true, if_false], rspWord_zeros _ _⟩
  | fifoPush _ | fifoPop | fifoIsEmpty | ledGetPix _ | ledTcPoll | epGetCount => exact ⟨_, rfl, rspWord_zeros _ _⟩
  | _ => exact ⟨rspNone, rfl, by decide⟩

/-- Every transition leaves its answer in the response port. -/
theorem exec_rsp {i : Instr} {s t : State} (h : exec i s = .next t) : t.rsp = answer s i := by
  by_cases hi : i = .sysReset
  · subst hi; cases h; rfl
  · obtain ⟨-, rfl⟩ := exec_next hi h; rfl

/-- Settles O52, by the answer of each kind of transition (30_encoding.md R61). -/
theorem responsesFollowTheRequest : Obligations.ResponsesFollowTheRequest := by
  intro i s t h
  rw [exec_rsp h]
  refine ⟨answer_of_event, answer_of_operation, ?_⟩
  rintro n rfl hb
  simp only [answer, hb, if_true]

/-- A request word that the decoder refuses is refused with the decoder's reason (30_encoding.md R64). -/
theorem step_illegal {w : Req} {rest : List Stimulus} {e : Illegal} {s : State} (hinput : s.input = .request w :: rest)
    (hd : decode w = .error e) : step s = .refused (.illegalWord e) := by
  simp only [step, advance, hinput, runRequest, hd]

/-- Settles O4: the step refuses what the decoder refuses, and a reserved opcode has no row (30_encoding.md R64). -/
theorem illegalWordIsRefused : Obligations.IllegalWordIsRefused :=
  ⟨fun _ _ _ _ hinput hdecode => step_illegal hinput hdecode, fun _ hop => decode_of_reserved (shapeOf_reserved hop)⟩

/-- A step that does not complete was asked for a word that is illegal, or whose transition stops. -/
theorem step_stop {s : State} (h : ∀ t, step s ≠ .next t) :
    ∃ w rest, s.input = .request w :: rest ∧
      ((∃ e, decode w = .error e ∧ step s = .refused (.illegalWord e)) ∨
        ∃ i, decode w = .ok i ∧ step s = exec i { s with input := rest }) := by
  cases hinput : s.input with
  | nil => exact absurd (by simp only [step, advance, hinput]) (h s)
  | cons x rest =>
    cases x with
    | resume k => exact absurd (step_resume hinput) (h _)
    | request w =>
      refine ⟨w, rest, rfl, ?_⟩
      cases hd : decode w with
      | error e => exact .inl ⟨e, rfl, step_illegal hinput hd⟩
      | ok i => exact .inr ⟨i, rfl, step_request hinput hd⟩

theorem step_fault {s : State} {f : Fault} (h : step s = .fault f) :
    ∃ w rest i, s.input = .request w :: rest ∧ decode w = .ok i ∧ exec i { s with input := rest } = .fault f := by
  obtain ⟨w, rest, hinput, ⟨e, -, hs⟩ | ⟨i, hd, hs⟩⟩ := step_stop (s := s) (by simp [h])
  · rw [h] at hs; cases hs
  · exact ⟨w, rest, i, hinput, hd, hs.symm.trans h⟩

theorem step_refused {s : State} {r : Refusal} (h : step s = .refused r) :
    ∃ w rest, s.input = .request w :: rest ∧
      ((∃ e, decode w = .error e ∧ r = .illegalWord e) ∨
        ∃ i, decode w = .ok i ∧ exec i { s with input := rest } = .refused r) := by
  obtain ⟨w, rest, hinput, ⟨e, hd, hs⟩ | ⟨i, hd, hs⟩⟩ := step_stop (s := s) (by simp [h])
  · rw [h] at hs; exact ⟨w, rest, hinput, .inl ⟨e, hd, Host.Outcome.refused.inj hs⟩⟩
  · exact ⟨w, rest, hinput, .inr ⟨i, hd, hs.symm.trans h⟩⟩

/-- Settles O55, by how a transition can stop (30_encoding.md R64, 42_encoder.md R113, 93_implementation_defined.md U16). -/
theorem theOnlyReasonsToStop : Obligations.TheOnlyReasonsToStop := by
  refine fun s => ⟨fun f h => ?_, fun r h => ?_⟩
  · obtain ⟨w, rest, i, hinput, hd, hexec⟩ := step_fault h
    obtain ⟨rfl, hen, half, hover, rfl⟩ := exec_fault_cases hexec
    refine ⟨w, rest, hinput, hd, hen, ?_⟩
    obtain ⟨rfl, hpos⟩ | ⟨rfl, hpos⟩ := overrun_eq_some.mp hover
    · exact .inl ⟨rfl, hpos⟩
    · exact .inr ⟨rfl, hpos⟩
  · obtain ⟨w, rest, hinput, hillegal | ⟨i, hd, hexec⟩⟩ := step_refused h
    · exact ⟨w, rest, hinput, .inl hillegal⟩
    · refine ⟨w, rest, hinput, .inr ?_⟩
      obtain ⟨rfl, hr⟩ | ⟨rfl, hr⟩ | ⟨rfl, hr⟩ := exec_refused_cases hexec
      · exact .inl ⟨hd, hr⟩
      · exact .inr (.inl ⟨hd, hr⟩)
      · exact .inr (.inr ⟨hd, hr⟩)

end Sys2Proof.Machine

/-! A whole transfer under the zero-latency schedule (30_encoding.md R71, 42_encoder.md R108, R109, R116, R117). -/

namespace Sys2Proof.Machine

/-! What the refills write, in the order of the refills. -/

/-- The duty values of refill number `k` of a transfer of the first `n` pixels: a pixel, or the reset value when all are encoded
(42_encoder.md R108). -/
def refillDuty (frame : List Color) (n k : Nat) : Nat → Byte :=
  if k < n then encodePixel (frame.getD k Color.zero) else fun _ => dutyReset

/-- The 24 of them, in the order of emission. -/
def halfDuties (frame : List Color) (n k : Nat) : List Byte := (List.range 24).map (refillDuty frame n k)

theorem halfDuties_pixel {frame : List Color} {n k : Nat} (h : k < n) :
    halfDuties frame n k = pixelDuties (frame.getD k Color.zero) := by
  rw [halfDuties, refillDuty, if_pos h, pixelDuties]

theorem halfDuties_reset {frame : List Color} {n k : Nat} (h : n ≤ k) :
    halfDuties frame n k = List.replicate 24 dutyReset := by
  rw [halfDuties, refillDuty, if_neg h.not_gt]
  rfl

theorem take_eq_map_range {α : Type} (l : List α) (dflt : α) {n : Nat} (h : n ≤ l.length) :
    l.take n = (List.range n).map (l.getD · dflt) := by
  apply List.ext_getElem
  · simpa using h
  · intro i hi _
    have : i < l.length := by simp at hi; omega
    simp [this]

theorem frameDuties_eq {frame : List Color} {n : Nat} (h : n ≤ frame.length) :
    frameDuties (frame.take n) = (List.range n).flatMap (halfDuties frame n) := by
  rw [frameDuties, take_eq_map_range frame Color.zero h, List.flatMap_map]
  exact List.flatMap_congr fun k hk => (halfDuties_pixel (List.mem_range.mp hk)).symm

theorem resetDuties_eq (frame : List Color) (n m : Nat) :
    List.replicate (24 * m) dutyReset = ((List.range m).map (n + ·)).flatMap (halfDuties frame n) := by
  have hreset : ∀ k, halfDuties frame n (n + k) = List.replicate 24 dutyReset :=
    fun k => halfDuties_reset (Nat.le_add_right n k)
  simp only [List.flatMap_map, hreset]
  induction m with
  | zero => rfl
  | succ m ih => rw [List.range_succ, List.flatMap_append, ← ih, Nat.mul_succ, List.replicate_add]; simp

/-- The duty values of a transfer are those of its refills, but for the last two, which are not emitted (42_encoder.md R116). -/
theorem transferDuties_eq {frame : List Color} {n refills : Nat} (h : n ≤ frame.length) (hr : 2 ≤ refills) :
    transferDuties (frame.take n) refills = (List.range (transferHalves n refills)).flatMap (halfDuties frame n) := by
  obtain ⟨m, hm⟩ : ∃ m, transferHalves n refills = n + m := Nat.exists_eq_add_of_le (by unfold transferHalves; omega)
  rw [transferDuties, frameDuties_eq h, List.length_take, Nat.min_eq_left h, hm, Nat.add_sub_cancel_left,
    resetDuties_eq frame n m, List.range_add, List.flatMap_append]

/-! The engine after `k` refills. -/

/-- `k` refills have been done: pixels first, then reset refills. -/
structure Led.Encoded (frame : List Color) (n k : Nat) (l : Led) : Prop where
  current : l.currentBuf = frame
  next : l.nextBuf = frame
  count : l.ledCount.toNat = n
  cursor : l.pixelCursor.toNat = min k n
  resets : l.resetCount = k - n

/-- A refill leaves the frames and their roles. -/
theorem refill_roles (l : Led) (h : Half) :
    (l.refill h).currentBuf = l.currentBuf ∧ (l.refill h).nextBuf = l.nextBuf := by
  rw [refill_frame]; exact ⟨rfl, rfl⟩

/-- A half of the staging buffer holds these values. -/
def Led.StagesHalf (l : Led) (h : Half) (v : Nat → Byte) : Prop :=
  ∀ k : Fin 48, h.base ≤ k.val → k.val < h.base + 24 → l.staging[k] = v (k.val - h.base)

section
variable {frame : List Color} {n k : Nat} {l : Led} (hl : l.Encoded frame n k) (h : Half)
include hl

theorem Led.Encoded.cursor_lt_iff : l.pixelCursor.toNat < l.ledCount.toNat ↔ k < n := by
  rw [hl.cursor, hl.count]; omega

theorem Led.Encoded.refill_staging : (l.refill h).staging = stageHalf l.staging h (refillDuty frame n k) := by
  obtain ⟨hp, e⟩ | ⟨hp, e⟩ := refill_cases l h <;> rw [e] <;> rw [hl.cursor_lt_iff] at hp
  · rw [hl.cursor, hl.current, Nat.min_eq_left hp.le, refillDuty, if_pos hp]; rfl
  · rw [refillDuty, if_neg hp]

theorem Led.Encoded.refill : (l.refill h).Encoded frame n (k + 1) := by
  have hlt := hl.cursor_lt_iff
  have hcursor := hl.cursor
  have hresets := hl.resets
  refine ⟨(refill_roles l h).1.trans hl.current, (refill_roles l h).2.trans hl.next, ?_, ?_, ?_⟩
  · rw [refill_frame]; exact hl.count
  · rw [refill_pixelCursor]
    split
    · next hp => rw [toNat_succ_of_lt hp]; omega
    · omega
  · rw [refill_resetCount]
    split <;> omega

theorem Led.Encoded.refill_stages : (l.refill h).StagesHalf h (refillDuty frame n k) := by
  intro i h1 h2
  rw [hl.refill_staging, getElem_stageHalf, if_pos ⟨h1, h2⟩]

theorem Led.Encoded.refill_keeps_other {v : Nat → Byte} (hv : l.StagesHalf h.other v) :
    (l.refill h).StagesHalf h.other v := by
  intro i h1 h2
  rw [hl.refill_staging, getElem_stageHalf, if_neg, hv i h1 h2]
  cases h <;> simp only [Half.other, Half.base] at * <;> omega

end

theorem Half.other_other (h : Half) : h.other.other = h := by cases h <;> rfl

/-- The engine is about to send half number `j` of a transfer, which is staged in `h`; the next one is staged too. -/
structure Led.Sending (frame : List Color) (n : Nat) (h : Half) (j : Nat) (l : Led) : Prop where
  encoded : l.Encoded frame n (j + 2)
  here : l.StagesHalf h (refillDuty frame n j)
  ahead : l.StagesHalf h.other (refillDuty frame n (j + 1))
  pos : l.dmaPos.val = h.base
  busy : l.busy = true
  dmaEn : l.dmaEn = true
  htPend : l.htPend = false
  tcPend : l.tcPend = false

/-- The engine after a transfer of this frame. -/
structure Led.Sent (frame : List Color) (l : Led) : Prop where
  current : l.currentBuf = frame
  next : l.nextBuf = frame
  busy : l.busy = false
  dmaEn : l.dmaEn = false
  finished : l.finished = true
  line : l.line = none

theorem armed_encoded (c : Config) (n : U16) (l : Led) :
    (l.armed c n).Encoded l.nextBuf (min n.toNat c.maxLeds) 0 := by
  have hcount : (BitVec.ofNat 16 (clampCount n c.maxLeds)).toNat = min n.toNat c.maxLeds := by
    have := n.isLt
    rw [BitVec.toNat_ofNat]; exact Nat.mod_eq_of_lt (by unfold clampCount; omega)
  rw [Led.armed, swapAndCopy_eq]
  exact ⟨by simp [Led.currentBuf], by simp [Led.nextBuf], hcount, by simp, by simp⟩

/-- A start stages the first two halves (42_encoder.md R109). -/
theorem start_sending (c : Config) (n : U16) (l : Led) :
    (l.start c n).Sending l.nextBuf (min n.toNat c.maxLeds) .half0 0 := by
  have h0 := armed_encoded c n l
  have h1 := h0.refill .half0
  have h2 := h1.refill .half1
  have here := h1.refill_keeps_other .half1 (h0.refill_stages .half0)
  have ahead := h1.refill_stages .half1
  rw [start_eq]
  generalize ((l.armed c n).refill .half0).refill .half1 = r at *
  exact ⟨⟨h2.current, h2.next, h2.count, h2.cursor, h2.resets⟩, here, ahead, rfl, rfl, rfl, rfl, rfl⟩

theorem start_tcCb (c : Config) (n : U16) (l : Led) : (l.start c n).tcCb = l.tcCb := by
  rw [start_eq, refill_frame, refill_frame (l.armed c n), Led.armed, swapAndCopy_eq]

/-! One half: its 24 beats, then the reload handler. -/

/-- The registers when `m` beats have moved the first `m` values of the half `h`: the interrupt of the half is raised at its end
(42_encoder.md R110). -/
def Led.moved (h : Half) (m : Nat) (line : Option Byte) (l : Led) : Led :=
  { l with
    dmaPos := ⟨(h.base + m) % 48, Nat.mod_lt _ (by decide)⟩
    htPend := decide (h = .half0 ∧ m = 24)
    tcPend := decide (h = .half1 ∧ m = 24)
    line := line }

/-- Before the first beat of a half. -/
theorem moved_zero {h : Half} {l : Led} (hpos : l.dmaPos.val = h.base) (hht : l.htPend = false) (htc : l.tcPend = false) :
    l.moved h 0 l.line = l := by
  have e : (⟨(h.base + 0) % 48, Nat.mod_lt _ (by decide)⟩ : Fin 48) = l.dmaPos := by
    apply Fin.ext; rw [hpos]; cases h <;> rfl
  obtain ⟨⟩ := l
  cases hht; cases htc; cases e
  simp [Led.moved]

theorem moved_dmaPos {h : Half} {m : Nat} (hm : m < 24) (line : Option Byte) (l : Led) :
    (l.moved h m line).dmaPos.val = h.base + m := by
  show (h.base + m) % 48 = _
  cases h <;> simp only [Half.base] <;> omega

/-- The next beat of a half. -/
theorem beat_moved {h : Half} {m : Nat} (hm : m < 24) (line : Option Byte) (l : Led) :
    (l.moved h m line).overrun = none ∧
      (l.moved h m line).beat = l.moved h (m + 1) (some l.staging[(l.moved h m line).dmaPos]) := by
  have hne : m ≠ 24 := by omega
  constructor
  · simp [overrun_eq_none, Led.moved, hne]
  · have hpos : dmaNext (l.moved h m line).dmaPos = (l.moved h (m + 1) line).dmaPos := by
      apply Fin.ext
      rw [dmaNext_val, moved_dmaPos hm]; rfl
    have hht : decide ((dmaNext (l.moved h m line).dmaPos).val = 24) = decide (h = .half0 ∧ m + 1 = 24) := by
      rw [dmaNext_val, moved_dmaPos hm, decide_eq_decide]
      cases h <;> simp only [Half.base, reduceCtorEq, true_and, false_and, iff_false] <;> omega
    have htc : decide ((dmaNext (l.moved h m line).dmaPos).val = 0) = decide (h = .half1 ∧ m + 1 = 24) := by
      rw [dmaNext_val, moved_dmaPos hm, decide_eq_decide]
      cases h <;> simp only [Half.base, reduceCtorEq, true_and, false_and, iff_false] <;> omega
    rw [Led.beat, hht, htc, hpos]
    simp [Led.moved, hne]

/-- A beat that is enabled and overruns nothing (42_encoder.md R110). -/
theorem exec_dmaBeat {s : State} (hen : s.led.dmaEn = true) (hover : s.led.overrun = none) :
    exec .dmaBeat s =
      .next { s with led := s.led.beat, trace := s.trace ++ [.duty s.led.staging[s.led.dmaPos]], rsp := none } :=
  exec_of_guard (by decide) ⟨hen, hover⟩

/-- The first `m` beats of a half emit the first `m` values that it stages. -/
theorem beats_of_half {s : State} {h : Half} {v : Nat → Byte} (hv : s.led.StagesHalf h v) (hen : s.led.dmaEn = true)
    (hpos : s.led.dmaPos.val = h.base) (hht : s.led.htPend = false) (htc : s.led.tcPend = false) {m : Nat} (hm : m ≤ 24) :
    ∃ line rsp, execAll (List.replicate m .dmaBeat) s = .next
      { s with
        led := s.led.moved h m line
        trace := s.trace ++ ((List.range m).map v).map Event.duty
        rsp := rsp } := by
  induction m with
  | zero =>
    refine ⟨s.led.line, s.rsp, ?_⟩
    rw [moved_zero hpos hht htc]
    simp [execAll]
  | succ m ih =>
    obtain ⟨line, rsp, ih⟩ := ih (by omega)
    obtain ⟨hover, hbeat⟩ := beat_moved (h := h) (m := m) (by omega) line s.led
    have hpos := moved_dmaPos (h := h) (m := m) (by omega) line s.led
    have hvalue : s.led.staging[(s.led.moved h m line).dmaPos] = v m := by
      rw [hv _ (by omega) (by omega), hpos, Nat.add_sub_cancel_left]
    refine ⟨some (v m), none, ?_⟩
    have hexec := exec_dmaBeat
      (s := { s with
        led := s.led.moved h m line, trace := s.trace ++ ((List.range m).map v).map Event.duty, rsp := rsp }) hen hover
    rw [List.replicate_succ', execAll_append _ _ ih, execAll, hexec]
    simp only [andThen, execAll, hbeat, hvalue, List.range_succ, List.map_append, ← List.append_assoc]
    rw [show (s.led.moved h m line).staging[(s.led.moved h m line).dmaPos] = v m from hvalue]
    rfl

/-- The registers when a reload handler has cleared its pending bit, the other one being clear. -/
def Led.acknowledged (l : Led) : Led := { l with htPend := false, tcPend := false }

theorem reload_tcPend (c : Config) (h : Half) {l : Led} (htc : l.tcPend = false) : (l.reload c h).1.tcPend = false := by
  obtain ⟨e, he⟩ | ⟨e, he⟩ := reload_frame c h l <;> rw [he]
  exact htc

/-- The reload interrupt of the half `h` is pending, and no other: its handler runs. -/
theorem serveReloads_of_half {s : State} {h : Half} (hht : s.led.htPend = decide (h = .half0))
    (htc : s.led.tcPend = decide (h = .half1)) :
    serveReloads s = .next
      { s with
        led := (s.led.acknowledged.reload s.cfg h).1
        trace := s.trace ++ (s.led.acknowledged.reload s.cfg h).2
        rsp := none } := by
  cases h with
  | half0 =>
    have hht : s.led.htPend = true := hht
    have htc : s.led.tcPend = false := htc
    have e : { s.led with htPend := false } = s.led.acknowledged := by rw [Led.acknowledged, ← htc]
    have hexec := exec_of_guard (i := .irqHt) (by decide) hht
    simp only [effect, fifoEffect, ledEffect, epEffect, hpEffect, emitted, answer, heldAfter, e] at hexec
    have hno : (s.led.acknowledged.reload s.cfg .half0).1.tcPend = false := reload_tcPend _ _ rfl
    simp only [serveReloads, hht, if_true, hexec, andThen, hno, Bool.false_eq_true, if_false]
  | half1 =>
    have hht : s.led.htPend = false := hht
    have htc : s.led.tcPend = true := htc
    have e : { s.led with tcPend := false } = s.led.acknowledged := by rw [Led.acknowledged, ← hht]
    have hexec := exec_of_guard (i := .irqTc) (by decide) htc
    simp only [effect, fifoEffect, ledEffect, epEffect, hpEffect, emitted, answer, heldAfter, e] at hexec
    simp only [serveReloads, hht, htc, if_true, hexec, andThen, Bool.false_eq_true, if_false]

/-- What a reload handler does to an engine in which `k` refills have been done: the transfer is over when the refill is the
`RESET_REFILLS`-th that writes the reset value (42_encoder.md R111, R112). -/
theorem reload_of_encoded {frame : List Color} {n k : Nat} {l : Led} (hl : l.Encoded frame n k) (c : Config) (h : Half) :
    (c.resetRefills ≤ k + 1 - n ∧
      l.reload c h = ((l.refill h).complete, l.tcCb.toList.map .transferComplete)) ∨
    (k + 1 - n < c.resetRefills ∧ l.reload c h = (l.refill h, [])) := by
  have hr := (hl.refill h).resets
  rw [← hr, ← callback_eq]
  exact reload_cases c h l

theorem complete_sent {frame : List Color} {n k : Nat} {l : Led} (hl : l.Encoded frame n k) : l.complete.Sent frame :=
  ⟨hl.current, hl.next, rfl, rfl, rfl, rfl⟩

/-- The beats of a half and the acknowledgement of its interrupt leave what has been encoded. -/
theorem Led.Encoded.acknowledged {frame : List Color} {n k m : Nat} {h : Half} {line : Option Byte} {l : Led}
    (hl : l.Encoded frame n k) : (l.moved h m line).acknowledged.Encoded frame n k := by
  obtain ⟨hcur, hnext, hcount, hcursor, hresets⟩ := hl
  exact ⟨hcur, hnext, hcount, hcursor, hresets⟩

/-- The handler refills the half that was sent, and the DMA goes on in the other one. -/
theorem refill_sending {frame : List Color} {n j : Nat} {h : Half} {line : Option Byte} {l : Led}
    (hl : l.Sending frame n h j) : ((l.moved h 24 line).acknowledged.refill h).Sending frame n h.other (j + 1) := by
  have henc : (l.moved h 24 line).acknowledged.Encoded frame n (j + 2) := hl.encoded.acknowledged
  have here := henc.refill_keeps_other h (v := refillDuty frame n (j + 1)) hl.ahead
  have ahead := henc.refill_stages h
  have hpos : (l.moved h 24 line).acknowledged.dmaPos.val = h.other.base := by cases h <;> rfl
  refine ⟨henc.refill h, here, h.other_other.symm ▸ ahead, ?_, ?_, ?_, ?_, ?_⟩ <;> rw [refill_frame]
  · exact hpos
  · exact hl.busy
  · exact hl.dmaEn
  · rfl
  · rfl

/-- `DMA.HALF` while a transfer runs: the values of its next half are emitted, and then it ends or goes on (30_encoding.md R76). -/
theorem dmaHalf_of_sending {frame : List Color} {n j : Nat} {h : Half} {s : State} (hs : s.led.Sending frame n h j) :
    ∃ t, dmaHalf s = .next t ∧ t.cfg = s.cfg ∧
      ((s.cfg.resetRefills ≤ j + 3 - n ∧ t.led.Sent frame ∧
          t.trace = s.trace ++ (halfDuties frame n j).map Event.duty ++ s.led.tcCb.toList.map .transferComplete) ∨
        (j + 3 - n < s.cfg.resetRefills ∧ t.led.Sending frame n h.other (j + 1) ∧ t.led.tcCb = s.led.tcCb ∧
          t.trace = s.trace ++ (halfDuties frame n j).map Event.duty)) := by
  obtain ⟨line, rsp, hbeats⟩ := beats_of_half hs.here hs.dmaEn hs.pos hs.htPend hs.tcPend (Nat.le_refl 24)
  have hserve := serveReloads_of_half
    (s := { s with
      led := s.led.moved h 24 line, trace := s.trace ++ (halfDuties frame n j).map Event.duty, rsp := rsp })
    (h := h) (by simp [Led.moved]) (by simp [Led.moved])
  refine ⟨_, Eq.trans (by rw [dmaHalf, hbeats]; rfl) hserve, rfl, ?_⟩
  have henc : (s.led.moved h 24 line).acknowledged.Encoded frame n (j + 2) := hs.encoded.acknowledged
  obtain ⟨hdone, e⟩ | ⟨hgo, e⟩ := reload_of_encoded henc s.cfg h
  · left
    simp only [e]
    exact ⟨hdone, complete_sent (henc.refill h), rfl⟩
  · right
    simp only [e, List.append_nil]
    refine ⟨hgo, refill_sending hs, ?_, trivial⟩
    rw [refill_frame]; rfl

/-- `DMA.RUN` from the half number `j`, for as many halves as the transfer still has (42_encoder.md R116). -/
theorem dmaRun_of_sending {frame : List Color} {n : Nat} {fuel j : Nat} {h : Half} {s : State}
    (hs : s.led.Sending frame n h j) (hr : 2 ≤ s.cfg.resetRefills)
    (hfuel : j + (fuel + 1) = transferHalves n s.cfg.resetRefills) :
    ∃ t, dmaRun (fuel + 1) s = .next t ∧ t.led.Sent frame ∧
      t.trace = s.trace ++ ((List.range' j (fuel + 1)).flatMap (halfDuties frame n)).map Event.duty ++
        s.led.tcCb.toList.map .transferComplete := by
  unfold transferHalves at hfuel
  induction fuel generalizing j h s with
  | zero =>
    obtain ⟨t, hhalf, -, ⟨-, hsent, htrace⟩ | ⟨hgo, -⟩⟩ := dmaHalf_of_sending hs
    · exact ⟨t, by rw [dmaRun, if_pos hs.busy, hhalf]; rfl, hsent, by simpa using htrace⟩
    · omega
  | succ fuel ih =>
    obtain ⟨u, hhalf, hcfg, ⟨hdone, -⟩ | ⟨-, hu, hcb, htrace⟩⟩ := dmaHalf_of_sending hs
    · omega
    · obtain ⟨t, hrun, hsent, ht⟩ := ih hu (hcfg ▸ hr) (by rw [hcfg]; omega)
      refine ⟨t, by rw [dmaRun, if_pos hs.busy, hhalf]; exact hrun, hsent, ?_⟩
      rw [ht, htrace, hcb, List.range'_succ (s := j), List.flatMap_cons, List.map_append]
      simp only [List.append_assoc]

/-- Settles O31: the start stages the first two halves, each half that is sent is refilled, and the values sent are those of the
refills, in order (30_encoding.md R71, 42_encoder.md R115, R116, R117). -/
theorem transferEmitsTheWholeFrame : Obligations.TransferEmitsTheWholeFrame := by
  intro s n hinv hbusy
  obtain ⟨⟨-, -, -, hr⟩, hmem, -⟩ := hinv
  have hlen : min n.toNat s.cfg.maxLeds ≤ s.led.nextBuf.length := by rw [nextBuf_length hmem]; exact Nat.min_le_right _ _
  obtain ⟨fuel, hfuel⟩ : ∃ fuel, transferHalves (min n.toNat s.cfg.maxLeds) s.cfg.resetRefills = fuel + 1 :=
    Nat.exists_eq_add_of_le' (Nat.le_max_left 1 _)
  have hstart : (s.performRefresh n).led.Sending s.led.nextBuf (min n.toNat s.cfg.maxLeds) .half0 0 :=
    start_sending s.cfg n s.led
  obtain ⟨t, hrun, hsent, htrace⟩ := dmaRun_of_sending hstart hr (by rw [Nat.zero_add]; exact hfuel.symm)
  refine ⟨s.performRefresh n, t, performRefresh_eq_exec hbusy, hfuel ▸ hrun, ?_, hsent.busy, hsent.dmaEn, hsent.finished,
    hsent.line, hsent.current, hsent.next⟩
  rw [htrace, transferDuties_eq hlen hr, hfuel, List.range_eq_range', State.performRefresh_trace, State.performRefresh_led,
    start_tcCb]

end Sys2Proof.Machine

/-! The FIFO's operations, case by case: what a push, a pop and a clearing make of the ring, and what they answer (40_fifo.md R80
to R84). -/

namespace Sys2Proof.Machine

theorem push_of_room {c : Config} {f : Fifo} (h : f.count ≠ c.fifoN) (v : Byte) :
    f.push c v =
      { f with store := f.store.set f.head v, head := (f.head + 1) % c.fifoN, count := f.count + 1 } := by
  have hok : pushOk c f = true := by simp [pushOk, h]
  rw [Fifo.push, if_pos hok]; rfl

theorem push_of_full {c : Config} {f : Fifo} (h : f.count = c.fifoN) (v : Byte) : f.push c v = f := by
  simp [Fifo.push, pushOk, h]

theorem push_count {c : Config} {f : Fifo} (h : f.count ≠ c.fifoN) (v : Byte) : (f.push c v).count = f.count + 1 := by
  rw [push_of_room h]

theorem pop_of_some {c : Config} {f : Fifo} (h : f.count ≠ 0) :
    f.pop c = { f with out := f.oldest, tail := (f.tail + 1) % c.fifoN, count := f.count - 1 } := by
  have hok : popOk f = true := by simp [popOk, h]
  rw [Fifo.pop, if_pos hok]; rfl

theorem pop_count {c : Config} {f : Fifo} (h : f.count ≠ 0) : (f.pop c).count = f.count - 1 := by rw [pop_of_some h]

theorem pop_of_empty {c : Config} {f : Fifo} (h : f.count = 0) : f.pop c = f := by simp [Fifo.pop, popOk, h]

theorem exec_fifoPush (v : Byte) (s : State) :
    exec (.fifoPush (v.setWidth 24)) s =
      .next { s with fifo := s.fifo.push s.cfg v, rsp := some (rspWord (pushOk s.cfg s.fifo) 0) } :=
  execFifoPush_byte v s

theorem exec_fifoPush_of_room {s : State} (h : s.fifo.count ≠ s.cfg.fifoN) (v : Byte) :
    exec (.fifoPush (v.setWidth 24)) s = .next { s with fifo := s.fifo.push s.cfg v, rsp := some 0x80000000 } := by
  have hok : pushOk s.cfg s.fifo = true := by simp [pushOk, h]
  rw [exec_fifoPush, hok]; rfl

theorem exec_fifoPush_of_full {s : State} (h : s.fifo.count = s.cfg.fifoN) (v : Byte) :
    exec (.fifoPush (v.setWidth 24)) s = .next { s with rsp := some 0 } := by
  have hok : pushOk s.cfg s.fifo = false := by simp [pushOk, h]
  rw [exec_fifoPush, push_of_full h, hok]; rfl

theorem exec_fifoPop_of_some {s : State} (h : s.fifo.count ≠ 0) :
    exec .fifoPop s =
      .next { s with fifo := s.fifo.pop s.cfg, rsp := some (0x80000000 ||| s.fifo.oldest.setWidth 32) } := by
  have hok : popOk s.fifo = true := by simp [popOk, h]
  rw [exec, execFifoPop, hok, if_pos rfl, State.respond, rspWord_byte]

theorem exec_fifoPop_of_empty {s : State} (h : s.fifo.count = 0) : exec .fifoPop s = .next { s with rsp := some 0 } := by
  have hok : popOk s.fifo = false := by simp [popOk, h]
  rw [exec, execFifoPop, pop_of_empty h, hok, if_neg Bool.false_ne_true]; rfl

/-- The word of a push of a byte (30_encoding.md R62, R72). -/
theorem decode_push (v : Byte) : decode (0x02#8 ++ 0#32 ++ v.setWidth 24) = .ok (.fifoPush (v.setWidth 24)) := by
  have hv : (v.setWidth 24).toNat < 2 ^ elemBits := by
    rw [BitVec.toNat_setWidth]; exact (Nat.mod_le _ _).trans_lt v.isLt
  exact decode_eq_ok.mpr ⟨decide_eq_true hv, rfl⟩

/-- Settles O10, by the two cases of a push (40_fifo.md R82). -/
theorem pushAppendsUnlessFull : Obligations.PushAppendsUnlessFull := by
  intro v s
  refine ⟨decode_push v, fun hroom => ?_, fun hfull => exec_fifoPush_of_full hfull v⟩
  rw [exec_fifoPush_of_room hroom, push_of_room hroom]

/-- Settles O11, by the two cases of a pop (40_fifo.md R83). -/
theorem popTakesTheOldestUnlessEmpty : Obligations.PopTakesTheOldestUnlessEmpty := by
  intro s
  refine ⟨rfl, fun hsome => ?_, exec_fifoPop_of_empty⟩
  rw [exec_fifoPop_of_some hsome, pop_of_some hsome]; rfl

/-- Settles O9: the two operations have one meaning (40_fifo.md R80, R81). -/
theorem initAndClearEmptyTheFifo : Obligations.InitAndClearEmptyTheFifo :=
  fun _ => ⟨rfl, rfl, rfl, rfl⟩

/-- Settles O12, by the two values of `empty` (40_fifo.md R84). -/
theorem isEmptyAnswersExactly : Obligations.IsEmptyAnswersExactly := by
  intro s
  refine ⟨rfl, ?_⟩
  rw [exec, execFifoIsEmpty, fifoEmpty]
  by_cases h : s.fifo.count = 0
  · rw [if_pos h, decide_eq_true h]; rfl
  · rw [if_neg h, decide_eq_false h]; rfl

end Sys2Proof.Machine

/-! The FIFO as a bounded queue: its operations in terms of the abstract content (10_state.md R14, R16, 40_fifo.md R85, R87). -/

namespace Sys2Proof.Machine

/-- The ring of a well-formed build: at least one slot, every slot listed, and the ring invariant (10_state.md R13, R14). -/
structure Fifo.Ring (c : Config) (f : Fifo) : Prop where
  size : 1 ≤ c.fifoN
  slots : f.store.length = c.fifoN
  inv : f.Inv c

theorem Fifo.Ring.push {c : Config} {f : Fifo} (h : f.Ring c) (v : Byte) : (f.push c v).Ring c :=
  ⟨h.size, (push_store_length c v f).trans h.slots, push_inv c f v h.size h.inv⟩

theorem Fifo.Ring.queue_push {c : Config} {f : Fifo} (h : f.Ring c) (hroom : f.count < c.fifoN) (v : Byte) :
    (f.push c v).queue c = f.queue c ++ [v] :=
  Machine.queue_push c f v h.slots h.inv hroom

theorem queue_eq_nil_iff (c : Config) (f : Fifo) : f.queue c = [] ↔ f.count = 0 := by
  rw [← List.length_eq_zero_iff, queue_length]

theorem queue_zeroed (c : Config) (f : Fifo) : (f.zeroed c).queue c = [] := rfl

/-- A pop after `FIFO.INIT` or `FIFO.CLEAR` fails. -/
theorem exec_fifoPop_zeroed (s : State) :
    ∃ u, exec .fifoPop ({ s with fifo := s.fifo.zeroed s.cfg }.respondNone) = .next u ∧ u.rsp = some 0 :=
  ⟨_, exec_fifoPop_of_empty rfl, rfl⟩

/-- Pushes that the buffer has room for append their values in order. -/
theorem execAll_pushes (vs : List Byte) {s : State} (h : s.fifo.Ring s.cfg) (hroom : s.fifo.count + vs.length ≤ s.cfg.fifoN) :
    ∃ t, execAll (vs.map fun x => .fifoPush (x.setWidth 24)) s = .next t ∧ t.cfg = s.cfg ∧
      t.fifo.queue t.cfg = s.fifo.queue s.cfg ++ vs := by
  induction vs generalizing s with
  | nil => exact ⟨s, rfl, rfl, (List.append_nil _).symm⟩
  | cons v vs ih =>
    have hlt : s.fifo.count < s.cfg.fifoN := by rw [List.length_cons] at hroom; omega
    have hqueue := h.queue_push hlt v
    obtain ⟨t, hrun, hcfg, ht⟩ :=
      ih (s := { s with fifo := s.fifo.push s.cfg v, rsp := some 0x80000000 }) (h.push v)
        (by rw [List.length_cons] at hroom; simp only [push_count hlt.ne]; omega)
    refine ⟨t, ?_, hcfg, ?_⟩
    · rw [List.map_cons, execAll, exec_fifoPush_of_room hlt.ne]; exact hrun
    · rw [ht, hqueue, List.append_assoc, List.singleton_append]

/-- Settles O13: each operation on the ring is the operation on its content (10_state.md R16, 40_fifo.md R87). -/
theorem fifoIsABoundedQueue : Obligations.FifoIsABoundedQueue := by
  intro s ⟨hn, _⟩ ⟨hslots, _⟩ hinv
  have hring : s.fifo.Ring s.cfg := ⟨hn, hslots, hinv⟩
  refine ⟨queue_length _ _, hinv.1, fun v => ?_, ?_, ⟨_, rfl, queue_zeroed _ _, exec_fifoPop_zeroed s⟩,
    ⟨_, rfl, queue_zeroed _ _, exec_fifoPop_zeroed s⟩, fun vs v hempty hlen => ?_⟩
  · rw [queue_length]
    by_cases hfull : s.fifo.count = s.cfg.fifoN
    · exact ⟨_, exec_fifoPush_of_full hfull v, fun hlt => absurd hfull hlt.ne, fun _ => ⟨rfl, rfl⟩⟩
    · exact ⟨_, exec_fifoPush_of_room hfull v, fun hlt => ⟨hring.queue_push hlt v, rfl⟩, fun h => absurd h hfull⟩
  · by_cases hempty : s.fifo.count = 0
    · have hnil := (queue_eq_nil_iff s.cfg s.fifo).mpr hempty
      exact ⟨_, exec_fifoPop_of_empty hempty, fun x rest h => absurd (h.symm.trans hnil) (List.cons_ne_nil x rest),
        fun _ => ⟨hnil, rfl, rfl⟩⟩
    · have hfront := queue_pop s.cfg s.fifo hinv hempty
      refine ⟨_, exec_fifoPop_of_some hempty, fun x rest h => ?_, fun h => absurd ((queue_eq_nil_iff _ _).mp h) hempty⟩
      obtain ⟨rfl, rfl⟩ := List.cons.inj (h.symm.trans hfront)
      exact ⟨rfl, by rw [pop_of_some hempty], rfl⟩
  · obtain ⟨t, hrun, hcfg, hqueue⟩ := execAll_pushes vs hring (by omega)
    rw [(queue_eq_nil_iff _ _).mpr hempty, List.nil_append] at hqueue
    have hfull : t.fifo.count = t.cfg.fifoN := by rw [← queue_length t.cfg, hqueue, hlen, hcfg]
    exact ⟨t, hrun, hqueue, exec_fifoPush_of_full hfull v⟩

/-! A push and a pop in either order (40_fifo.md R85). -/

theorem execAll_push_pop (v : Byte) (s : State) :
    ∃ t, execAll [.fifoPush (v.setWidth 24), .fifoPop] s = .next t ∧ t.fifo = (s.fifo.push s.cfg v).pop s.cfg := by
  rw [execAll, exec_fifoPush]; exact ⟨_, rfl, rfl⟩

theorem execAll_pop_push (v : Byte) (s : State) :
    ∃ t, execAll [.fifoPop, .fifoPush (v.setWidth 24)] s = .next t ∧ t.fifo = (s.fifo.pop s.cfg).push s.cfg v :=
  ⟨_, rfl, congrArg (Fifo.push s.cfg · (s.fifo.pop s.cfg)) (elementOf_setWidth v)⟩

/-- The slot at `tail` is the front of the content. -/
theorem Fifo.Ring.head?_queue {c : Config} {f : Fifo} (h : f.Ring c) (hsome : f.count ≠ 0) :
    (f.queue c).head? = some f.oldest := by
  rw [queue_pop c f h.inv hsome, List.head?_cons]

/-- The oldest element after a push is the front of the content with the pushed value behind it. -/
theorem Fifo.Ring.oldest_push {c : Config} {f : Fifo} (h : f.Ring c) (hroom : f.count < c.fifoN) (v : Byte) :
    some (f.push c v).oldest = (f.queue c ++ [v]).head? := by
  have hsome : (f.push c v).count ≠ 0 := by rw [push_count hroom.ne]; exact Nat.succ_ne_zero _
  rw [← h.queue_push hroom v, (h.push v).head?_queue hsome]

/-- Away from the boundaries a push and a pop commute: the push leaves the oldest element where it is. -/
theorem Fifo.Ring.push_pop_comm {c : Config} {f : Fifo} (h : f.Ring c) (hsome : 0 < f.count) (hroom : f.count < c.fifoN)
    (v : Byte) : (f.push c v).pop c = (f.pop c).push c v := by
  have holdest : (f.push c v).oldest = f.oldest := by
    apply Option.some.inj
    rw [h.oldest_push hroom, List.head?_append, h.head?_queue hsome.ne', Option.some_or]
  have hpush : (f.push c v).count ≠ 0 := by rw [push_count hroom.ne]; exact Nat.succ_ne_zero _
  have hpop : (f.pop c).count ≠ c.fifoN := by rw [pop_count hsome.ne']; omega
  rw [pop_of_some hpush, holdest, push_of_room hpop, push_of_room hroom.ne, pop_of_some hsome.ne']
  simp only [Nat.sub_add_cancel hsome, Nat.add_sub_cancel]

/-- Settles O14: a boundary stops the operation that comes first, and elsewhere the two commute (40_fifo.md R85). -/
theorem pushAndPopInEitherOrder : Obligations.PushAndPopInEitherOrder := by
  intro s v ⟨hn, _⟩ ⟨hslots, _⟩ hinv
  have hring : s.fifo.Ring s.cfg := ⟨hn, hslots, hinv⟩
  obtain ⟨a, ha, hfa⟩ := execAll_push_pop v s
  obtain ⟨b, hb, hfb⟩ := execAll_pop_push v s
  refine ⟨a, b, ha, hb, fun hfull => ?_, fun hempty => ?_, fun hsome hroom => ?_⟩ <;> rw [hfa, hfb]
  · have hsome : s.fifo.count ≠ 0 := by omega
    have hpop : (s.fifo.pop s.cfg).count = s.cfg.fifoN - 1 := by rw [pop_count hsome, hfull]
    have hroom : (s.fifo.pop s.cfg).count ≠ s.cfg.fifoN := by omega
    rw [push_of_full hfull, push_count hroom, hpop]
    exact ⟨rfl, Nat.sub_add_cancel hn⟩
  · have hroom : s.fifo.count < s.cfg.fifoN := by omega
    have hpush : (s.fifo.push s.cfg v).count = 1 := by rw [push_count hroom.ne, hempty]
    have holdest : (s.fifo.push s.cfg v).oldest = v := by
      apply Option.some.inj
      rw [hring.oldest_push hroom, (queue_eq_nil_iff _ _).mpr hempty]; rfl
    rw [pop_of_empty hempty, pop_of_some (by omega : (s.fifo.push s.cfg v).count ≠ 0)]
    exact ⟨by rw [hpush], holdest, hpush, by rw [push_of_room hroom.ne]⟩
  · exact hring.push_pop_comm hsome hroom v

end Sys2Proof.Machine

/-! The frame store: what the operations on it answer and leave, through the `next` role (41_framebuffer.md R90 to R92). -/

namespace Sys2Proof.Machine

/-- A write to the `next` role changes the two buffers and no other register. -/
theorem setNextBuf_frame (l : Led) (b : List Color) :
    l.setNextBuf b = { l with buf0 := (l.setNextBuf b).buf0, buf1 := (l.setNextBuf b).buf1 } := by
  rw [setNextBuf_eq]

/-- The last write to the `next` role wins. -/
@[simp] theorem setNextBuf_setNextBuf (l : Led) (a b : List Color) : (l.setNextBuf a).setNextBuf b = l.setNextBuf b := by
  cases h : l.sel <;> simp [setNextBuf_eq, h]

theorem setPixel_inside {c : Config} {idx : U16} (h : idx.toNat < c.maxLeds) (color : Color) (l : Led) :
    l.setPixel c idx color = l.setNextBuf (memWrite l.nextBuf idx.toNat color) := if_pos h

theorem setPixel_outside {c : Config} {idx : U16} (h : ¬ idx.toNat < c.maxLeds) (color : Color) (l : Led) :
    l.setPixel c idx color = l := if_neg h

theorem currentBuf_setPixel (c : Config) (idx : U16) (color : Color) (l : Led) :
    (l.setPixel c idx color).currentBuf = l.currentBuf := by
  obtain ⟨b, hb⟩ := setPixel_eq_setNextBuf c idx color l
  rw [hb, currentBuf_setNextBuf]

theorem setPixel_frame (c : Config) (idx : U16) (color : Color) (l : Led) :
    l.setPixel c idx color =
      { l with buf0 := (l.setPixel c idx color).buf0, buf1 := (l.setPixel c idx color).buf1 } := by
  obtain ⟨b, hb⟩ := setPixel_eq_setNextBuf c idx color l
  rw [hb, ← setNextBuf_frame]

/-- A pixel write is read back at its index, when that is one of the frame's, and nowhere else (41_framebuffer.md R90). -/
theorem getElem?_nextBuf_setPixel {c : Config} {l : Led} (hlen : l.nextBuf.length = c.maxLeds) (idx : U16) (color : Color)
    (j : Nat) :
    (l.setPixel c idx color).nextBuf[j]? =
      if j = idx.toNat ∧ idx.toNat < c.maxLeds then some color else l.nextBuf[j]? := by
  by_cases h : idx.toNat < c.maxLeds
  · rw [setPixel_inside h, nextBuf_setNextBuf, getElem?_memWrite, hlen]
  · rw [setPixel_outside h, if_neg fun hj => h hj.2]

/-- `set_all` is read back at the indices below the clamped count and nowhere else (41_framebuffer.md R91). -/
theorem getElem?_nextBuf_setAll {c : Config} {l : Led} (hlen : l.nextBuf.length = c.maxLeds) (n : U16) (color : Color)
    (j : Nat) :
    (l.setAll c n color).nextBuf[j]? = if j < min n.toNat c.maxLeds then some color else l.nextBuf[j]? := by
  have hclamp : j < clampCount n c.maxLeds ∧ j < c.maxLeds ↔ j < min n.toNat c.maxLeds :=
    and_iff_left_of_imp fun h => h.trans_le (Nat.min_le_right _ _)
  rw [Led.setAll, nextBuf_setNextBuf, getElem?_memFill, hlen]
  simp only [hclamp]

theorem exec_ledSetPix (idx : U16) (color : Color) (s : State) :
    exec (.ledSetPix idx color) s = .next { s with led := s.led.setPixel s.cfg idx color, rsp := some 0 } := rfl

theorem exec_ledSetAll (n : U16) (color : Color) (s : State) :
    exec (.ledSetAll n color) s = .next { s with led := s.led.setAll s.cfg n color, rsp := some 0 } := rfl

theorem exec_ledGetPix (idx : U16) (s : State) :
    exec (.ledGetPix idx) s = .next { s with rsp := some (rspWord true (packColor (s.led.getPixel s.cfg idx))) } := rfl

/-- An operand with zeros in front of it is its zero extension, as the encoder writes it (30_encoding.md R62, R72). -/
theorem zeros_append_idx (idx : U16) : 0#16 ++ idx = idx.setWidth 32 :=
  (BitVec.setWidth_eq_append (by decide)).symm

theorem decode_setPix (idx : U16) (c : Color) :
    decode (0x10#8 ++ (0#16 ++ idx) ++ (c.r ++ c.g ++ c.b)) = .ok (.ledSetPix idx c) :=
  decode_eq_ok.mpr ⟨rfl, by rw [zeros_append_idx]; rfl⟩

theorem decode_getPix (idx : U16) : decode (0x12#8 ++ (0#16 ++ idx) ++ 0#24) = .ok (.ledGetPix idx) :=
  decode_eq_ok.mpr ⟨rfl, by rw [zeros_append_idx]; rfl⟩

/-- Settles O15: a pixel write is one write to the `next` role, or none (41_framebuffer.md R90). -/
theorem setPixWritesOnePixelOfNext : Obligations.SetPixWritesOnePixelOfNext := by
  intro idx c s hs
  refine ⟨decode_setPix idx c, _, exec_ledSetPix idx c s, currentBuf_setPixel _ _ _ _,
    getElem?_nextBuf_setPixel (nextBuf_length hs) idx c, ?_⟩
  dsimp only
  rw [← setPixel_frame]

/-- Settles O16: `set_all` is one write to the `next` role (41_framebuffer.md R91). -/
theorem setAllWritesTheFirstPixelsOfNext : Obligations.SetAllWritesTheFirstPixelsOfNext := by
  intro n c s hs
  refine ⟨_, exec_ledSetAll n c s, currentBuf_setNextBuf _ _, getElem?_nextBuf_setAll (nextBuf_length hs) n c, ?_⟩
  rw [Led.setAll]
  dsimp only
  rw [← setNextBuf_frame]

/-- Pixel writes at the first `m` indices, in order, fill the first `m` pixels of `next`; only the response port tells them from
one fill (it keeps its word when `m` is 0). -/
theorem execAll_setPix_range (color : Color) {s : State} (hsize : s.cfg.maxLeds ≤ 65535) {m : Nat} (hm : m ≤ s.cfg.maxLeds) :
    ∃ r, execAll ((List.range m).map fun k => .ledSetPix (BitVec.ofNat 16 k) color) s =
      .next { s with led := s.led.setNextBuf (memFill m color s.led.nextBuf), rsp := r } := by
  induction m with
  | zero => exact ⟨s.rsp, by simp only [memFill, setNextBuf_nextBuf]; rfl⟩
  | succ m ih =>
    obtain ⟨r, hfill⟩ := ih (Nat.le_of_succ_le hm)
    have hidx : (BitVec.ofNat 16 m).toNat = m := by rw [BitVec.toNat_ofNat]; omega
    refine ⟨some 0, ?_⟩
    rw [List.range_succ, List.map_append, execAll_append _ _ hfill, List.map_singleton, execAll, exec_ledSetPix,
      setPixel_inside (by rw [hidx]; exact hm), hidx, nextBuf_setNextBuf, setNextBuf_setNextBuf, ← memFill_succ]
    rfl

/-- Settles O17: each pixel write adds one pixel to what the earlier ones filled (41_framebuffer.md R91). -/
theorem setAllIsSetPixRepeated : Obligations.SetAllIsSetPixRepeated := by
  intro n c s ⟨_, _, hsize, _⟩ _
  obtain ⟨r, hpixels⟩ := execAll_setPix_range c hsize (Nat.min_le_right n.toNat s.cfg.maxLeds)
  exact ⟨_, _, exec_ledSetAll n c s, hpixels, rfl⟩

theorem getPixel_of_getElem? {c : Config} {l : Led} {idx : U16} {color : Color} (hlen : l.nextBuf.length = c.maxLeds)
    (h : l.nextBuf[idx.toNat]? = some color) : l.getPixel c idx = color := by
  obtain ⟨hlt, -⟩ := List.getElem?_eq_some_iff.mp h
  rw [Led.getPixel, if_pos (hlen ▸ hlt), memRead, List.getD_eq_getElem?_getD, h, Option.getD_some]

theorem getPixel_outside {c : Config} {idx : U16} (h : c.maxLeds ≤ idx.toNat) (l : Led) :
    l.getPixel c idx = Color.zero := if_neg h.not_gt

/-- The response word of a colour: `ok` and seven zeros, then the three channels (30_encoding.md R61). -/
theorem rspWord_packColor (c : Color) : rspWord true (packColor c) = 0x80#8 ++ c.r ++ c.g ++ c.b := by
  have hflag : BitVec.ofBool true ++ (0 : BitVec 7) = 0x80#8 := rfl
  rw [rspWord, packColor, hflag]
  apply BitVec.eq_of_toNat_eq
  simp only [BitVec.toNat_append, Nat.shiftLeft_or_distrib, ← Nat.shiftLeft_add, Nat.or_assoc]

/-- Settles O18, by the two cases of the index (41_framebuffer.md R92). -/
theorem getPixReadsNext : Obligations.GetPixReadsNext := by
  refine fun idx s hs => ⟨decode_getPix idx, fun c hc => ?_, fun hout => ?_⟩
  · rw [exec_ledGetPix, getPixel_of_getElem? (nextBuf_length hs) hc, rspWord_packColor]
  · rw [exec_ledGetPix, getPixel_outside hout]; rfl

end Sys2Proof.Machine

/-! `LED.REFRESH`, performed or held, and the polls and registrations (41_framebuffer.md R93 to R100). -/

namespace Sys2Proof.Machine

/-- A performed refresh answers 1 and writes nothing but the engine (41_framebuffer.md R96). -/
theorem exec_ledRefresh_of_free {s : State} (h : s.led.busy = false) (n : U16) :
    exec (.ledRefresh n) s = .next { s with led := s.led.start s.cfg n, rsp := some 0x80000000 } :=
  performRefresh_eq_exec h

theorem exec_ledRefresh_of_busy {s : State} (h : s.led.busy = true) (n : U16) :
    exec (.ledRefresh n) s = .next { s with held := s.held ++ [n], rsp := none } := by
  rw [exec, execLedRefresh, if_pos h]; rfl

/-- The two refills of a start leave the selector that the swap flipped, the cleared bit cursor, and the wire. -/
theorem start_sel_bitCursor_line (c : Config) (n : U16) (l : Led) :
    (l.start c n).sel = (!l.sel) ∧ (l.start c n).bitCursor = 0 ∧ (l.start c n).line = l.line := by
  rw [start_eq, refill_frame, refill_frame (l.armed c n), Led.armed, swapAndCopy_eq]
  exact ⟨rfl, rfl, rfl⟩

/-- When the first two halves of a transfer are staged, the buffer holds the first two pixels, or the reset value. -/
theorem Led.Sending.staging_first {frame : List Color} {n : Nat} {l : Led} (h : l.Sending frame n .half0 0) (k : Fin 48) :
    l.staging[k] =
      if k.val / 24 < n then encodePixel (frame.getD (k.val / 24) Color.zero) (k.val % 24) else 0 := by
  have hstaged : l.staging[k] = refillDuty frame n (k.val / 24) (k.val % 24) := by
    have hk := k.isLt
    rcases Nat.lt_or_ge k.val 24 with hlo | hhi
    · rw [h.here k (Nat.zero_le _) hlo, Nat.div_eq_of_lt hlo, Nat.mod_eq_of_lt hlo]; rfl
    · rw [h.ahead k hhi hk, show k.val / 24 = 1 by omega, show k.val % 24 = k.val - 24 by omega]; rfl
  rw [hstaged, refillDuty]
  split <;> rfl

/-- Settles O20, by what the engine is about to send after a start (41_framebuffer.md R93, R94, R96, 42_encoder.md R108,
R109). -/
theorem refreshSwapsStagesAndStarts : Obligations.RefreshSwapsStagesAndStarts := by
  intro n s _ _ hfree
  have hsend := start_sending s.cfg n s.led
  obtain ⟨hbuf0, hbuf1⟩ := start_bufs s.cfg n s.led
  obtain ⟨hsel, hbit, hline⟩ := start_sel_bitCursor_line s.cfg n s.led
  obtain ⟨-, hfinished⟩ := start_flags s.cfg n s.led
  have hcount := hsend.encoded.count
  refine ⟨_, exec_ledRefresh_of_free hfree n, rfl, hsel, hbuf0, hbuf1, hcount, ?_, hbit, ?_, fun k => ?_, hsend.htPend,
    hsend.tcPend, Fin.ext hsend.pos, hsend.dmaEn, hsend.busy, hfinished,
    start_tcCb s.cfg n s.led, hline⟩ <;> dsimp only <;> rw [hcount]
  · rw [hsend.encoded.cursor, Nat.min_comm]
  · rw [hsend.encoded.resets]; omega
  · exact hsend.staging_first k

/-- Settles O19 (41_framebuffer.md R95, R96, R99, R100). -/
theorem refreshIsHeldWhileBusy : Obligations.RefreshIsHeldWhileBusy :=
  fun n _ hbusy => exec_ledRefresh_of_busy hbusy n

/-- A held requester that is free to go performs its instruction as one that is no longer held. -/
theorem next_resumeHeld_of_free {k : Nat} {n : U16} {s : State} (hk : s.held[k]? = some n) (h : s.led.busy = false) :
    .next (State.resumeHeld k s) = exec (.ledRefresh n) { s with held := s.held.eraseIdx k } := by
  rw [performRefresh_eq_exec (s := { s with held := s.held.eraseIdx k }) h]
  simp only [State.resumeHeld, hk, h, Bool.false_eq_true, if_false]

theorem resumeHeld_of_busy {s : State} (h : s.led.busy = true) (k : Nat) : State.resumeHeld k s = s.noResponse := by
  unfold State.resumeHeld
  split
  · rfl
  · rw [if_pos h]

/-- Settles O8: a resumption is the instruction, or leaves all but the response port (41_framebuffer.md R96, R100). -/
theorem heldRefreshIsReleasedWhenFree : Obligations.HeldRefreshIsReleasedWhenFree := by
  refine fun s k rest n hinput hk => ⟨fun hfree => ?_, fun hbusy => ?_⟩ <;> rw [step_resume hinput]
  · exact next_resumeHeld_of_free (s := { s with input := rest }) hk hfree
  · rw [resumeHeld_of_busy (s := { s with input := rest }) hbusy]; rfl

/-- The response of an operation that answers a flag and no data (30_encoding.md R61). -/
theorem rspWord_flag (ok : Bool) : rspWord ok 0 = if ok then 0x80000000 else 0 := by
  cases ok <;> rfl

theorem exec_ledTcPoll (s : State) :
    exec .ledTcPoll s =
      .next { s with led := { s.led with finished := false }, rsp := some (if s.led.finished then 0x80000000 else 0) } := by
  rw [← rspWord_flag]; rfl

/-- Settles O21: the second poll reads the latch that the first one cleared (41_framebuffer.md R97). -/
theorem tcPollReadsAndClearsTheLatch : Obligations.TcPollReadsAndClearsTheLatch := by
  refine fun s => ⟨rfl, exec_ledTcPoll s, ?_⟩
  simp only [execAll, andThen, exec_ledTcPoll]
  exact ⟨_, rfl, rfl, rfl⟩

/-- Settles O22: a registration is one write to its slot (41_framebuffer.md R98, 43_parser_edge.md R128, R130,
44_parser_header.md R145, R146). -/
theorem registrationWritesItsSlot : Obligations.RegistrationWritesItsSlot :=
  fun _ _ => ⟨rfl, rfl, rfl, rfl, rfl⟩

end Sys2Proof.Machine

/-! The beat of the DMA, case by case (42_encoder.md R110). -/

namespace Sys2Proof.Machine

/-- The registers after a beat, with the places where the interrupts rise. -/
theorem beat_eq (l : Led) :
    l.beat =
      { l with
        dmaPos := l.dmaPos + 1
        htPend := l.htPend || l.dmaPos.val == 23
        tcPend := l.tcPend || l.dmaPos.val == 47
        line := some l.staging[l.dmaPos] } := by
  have hht : l.beat.htPend = (l.htPend || l.dmaPos.val == 23) := by rw [Bool.eq_iff_iff, beat_htPend]; simp
  have htc : l.beat.tcPend = (l.tcPend || l.dmaPos.val == 47) := by rw [Bool.eq_iff_iff, beat_tcPend]; simp
  rw [← dmaNext_eq, ← hht, ← htc]; rfl

theorem exec_dmaBeat_of_overrun {s : State} {h : Half} (hen : s.led.dmaEn = true) (hover : s.led.overrun = some h) :
    exec .dmaBeat s = .fault (.reloadOverrun h) := by
  simp only [exec, execDmaBeat, hen, hover, if_true]

theorem exec_dmaBeat_of_disabled {s : State} (h : s.led.dmaEn = false) : exec .dmaBeat s = .refused .dmaNotEnabled := by
  simp only [exec, execDmaBeat, h, Bool.false_eq_true, if_false]

/-- Settles O26, by whether the beat overruns a half (42_encoder.md R110). -/
theorem beatEmitsOneDutyValue : Obligations.BeatEmitsOneDutyValue := by
  refine fun s => ⟨rfl, fun hen => ⟨fun hpos htc => ?_, fun hpos hht => ?_, fun h23 h47 => ?_⟩, exec_dmaBeat_of_disabled⟩
  · exact exec_dmaBeat_of_overrun hen (overrun_eq_some.mpr (.inl ⟨rfl, hpos, htc⟩))
  · exact exec_dmaBeat_of_overrun hen (overrun_eq_some.mpr (.inr ⟨rfl, hpos, hht⟩))
  · have hover : s.led.overrun = none :=
      overrun_eq_none.mpr
        ⟨fun ⟨hpos, htc⟩ => Bool.false_ne_true ((h23 hpos).symm.trans htc),
          fun ⟨hpos, hht⟩ => Bool.false_ne_true ((h47 hpos).symm.trans hht)⟩
    rw [exec_dmaBeat hen hover, beat_eq]

/-- Settles O30: after two reset refills both halves hold the reset value (42_encoder.md R111 corner case (c)). -/
theorem beatsAfterTwoResetRefillsEmitReset : Obligations.BeatsAfterTwoResetRefillsEmitReset := by
  intro s t hinv hcount h
  obtain ⟨-, -, -, -, ⟨hbusy, -⟩, ⟨-, -, -, -, hreset⟩, -⟩ := hinv
  obtain ⟨hen, -, rfl⟩ := dmaBeat_next h
  obtain ⟨hhalf0, hhalf1⟩ := hreset (hbusy ▸ hen) hcount
  have hvalue : s.led.staging[s.led.dmaPos] = 0 := by
    rcases Nat.lt_or_ge s.led.dmaPos.val 24 with hlo | hhi
    · exact hhalf0 _ (Nat.zero_le _) hlo
    · exact hhalf1 _ hhi s.led.dmaPos.isLt
  simp only [hvalue]

end Sys2Proof.Machine

/-! The reload handlers: what the refill leaves, and the test for completion after it (42_encoder.md R111, R112, R114). -/

namespace Sys2Proof.Machine

/-- The state after a reload handler of the half `h` that has cleared its pending bit, which left the registers `l`. -/
def State.reloaded (h : Half) (l : Led) (s : State) : State :=
  { s with led := (l.reload s.cfg h).1, trace := s.trace ++ (l.reload s.cfg h).2, rsp := none }

theorem exec_irqHt_of_pending {s : State} (h : s.led.htPend = true) :
    exec .irqHt s = .next (s.reloaded .half0 { s.led with htPend := false }) :=
  exec_of_guard (by decide) h

theorem exec_irqTc_of_pending {s : State} (h : s.led.tcPend = true) :
    exec .irqTc s = .next (s.reloaded .half1 { s.led with tcPend := false }) :=
  exec_of_guard (by decide) h

theorem exec_irqHt_of_not_pending {s : State} (h : s.led.htPend = false) : exec .irqHt s = .refused .htNotPending := by
  simp only [exec, execIrqHt, h, Bool.false_eq_true, if_false]

theorem exec_irqTc_of_not_pending {s : State} (h : s.led.tcPend = false) : exec .irqTc s = .refused .tcNotPending := by
  simp only [exec, execIrqTc, h, Bool.false_eq_true, if_false]

section
variable {h : Half} {l : Led} {s : State}

/-- Completing or not, the handler leaves the buffer and the counters as the refill does. -/
theorem reloaded_refill (h : Half) (l : Led) (s : State) :
    (s.reloaded h l).led.staging = (l.refill h).staging ∧
      (s.reloaded h l).led.pixelCursor = (l.refill h).pixelCursor ∧
      (s.reloaded h l).led.resetCount = (l.refill h).resetCount := by
  obtain ⟨e, he⟩ | ⟨e, he⟩ := reload_frame s.cfg h l <;> rw [State.reloaded, he] <;> exact ⟨rfl, rfl, rfl⟩

/-- The refill that brings the count of reset refills up to `RESET_REFILLS` is the last one: the transfer is complete. -/
theorem reloaded_of_complete (hr : s.cfg.resetRefills ≤ (s.reloaded h l).led.resetCount) :
    s.reloaded h l =
      { s with
        led :=
          { l with
            staging := (s.reloaded h l).led.staging, pixelCursor := (s.reloaded h l).led.pixelCursor
            resetCount := (s.reloaded h l).led.resetCount
            htPend := false, tcPend := false, dmaEn := false, busy := false, finished := true, line := none }
        trace := s.trace ++ (l.tcCb.toList.map fun id => .transferComplete id)
        rsp := none } := by
  obtain ⟨hstaging, hcursor, hcount⟩ := reloaded_refill h l s
  obtain ⟨-, e⟩ | ⟨hgo, -⟩ := reload_cases s.cfg h l
  · rw [hstaging, hcursor, hcount, State.reloaded, e, callback_eq]
    dsimp only [Led.complete]
    rw [refill_frame]
  · omega

/-- Short of that the handler does nothing but the refill. -/
theorem reloaded_of_incomplete (hr : (s.reloaded h l).led.resetCount < s.cfg.resetRefills) :
    s.reloaded h l =
      { s with
        led :=
          { l with
            staging := (s.reloaded h l).led.staging, pixelCursor := (s.reloaded h l).led.pixelCursor
            resetCount := (s.reloaded h l).led.resetCount }
        rsp := none } := by
  obtain ⟨hstaging, hcursor, hcount⟩ := reloaded_refill h l s
  obtain ⟨hdone, -⟩ | ⟨-, e⟩ := reload_cases s.cfg h l
  · omega
  · rw [hstaging, hcursor, hcount, ← refill_frame, State.reloaded, e, List.append_nil]

end

/-- Settles O27, by what a reload handler leaves and by whether its refill is the last one (42_encoder.md R111, R112). -/
theorem halfTransferRefillsHalfZero : Obligations.HalfTransferRefillsHalfZero := by
  refine fun s => ⟨rfl, exec_irqHt_of_not_pending, fun hp => ?_⟩
  obtain ⟨hstaging, hcursor, hcount⟩ := reloaded_refill .half0 { s.led with htPend := false } s
  refine ⟨_, exec_irqHt_of_pending hp, fun k => ?_, ?_, ?_, reloaded_of_complete, reloaded_of_incomplete⟩
  · rw [hstaging]; exact refill_staging_half0 _ k
  · rw [hcursor]; exact refill_pixelCursor _ _
  · rw [hcount]; exact refill_resetCount _ _

/-- Settles O28: the handler of half 1 is that of half 0 with the halves exchanged (42_encoder.md R114). -/
theorem fullTransferRefillsHalfOne : Obligations.FullTransferRefillsHalfOne := by
  refine fun s => ⟨rfl, exec_irqTc_of_not_pending, fun hp => ?_⟩
  obtain ⟨hstaging, hcursor, hcount⟩ := reloaded_refill .half1 { s.led with tcPend := false } s
  refine ⟨_, exec_irqTc_of_pending hp, fun k => ?_, ?_, ?_, reloaded_of_complete, reloaded_of_incomplete⟩
  · rw [hstaging]; exact refill_staging_half1 _ k
  · rw [hcursor]; exact refill_pixelCursor _ _
  · rw [hcount]; exact refill_resetCount _ _

end Sys2Proof.Machine

/-! A reload interrupt that is not served: the DMA comes back to the half that was to be refilled (42_encoder.md R113, R177). -/

namespace Sys2Proof.Machine

/-- The interrupt whose handler refills the half is pending. -/
def Led.pending (l : Led) : Half → Bool
  | .half0 => l.htPend
  | .half1 => l.tcPend

/-- The refill of the half `h` is due while the DMA is in the other one. -/
structure Led.AwaitsRefill (h : Half) (l : Led) : Prop where
  dmaEn : l.dmaEn = true
  pending : l.pending h = true
  start : h.other.base ≤ l.dmaPos.val
  stop : l.dmaPos.val ≤ h.other.base + 23

/-- A pending half is not the one the DMA is in (10_state.md R24). -/
theorem awaitsRefill_of_dmaInv {l : Led} (hd : l.DmaInv) {h : Half} (hp : l.pending h = true) : l.AwaitsRefill h := by
  obtain ⟨hen, -, hht, htc⟩ := hd
  have hlt := l.dmaPos.isLt
  cases h with
  | half0 =>
    obtain ⟨hbusy, hpos⟩ := hht hp
    exact ⟨hen.trans hbusy, hp, hpos, Nat.le_of_lt_succ hlt⟩
  | half1 =>
    obtain ⟨hbusy, hpos⟩ := htc hp
    exact ⟨hen.trans hbusy, hp, Nat.zero_le _, Nat.le_of_lt_succ hpos⟩

/-- At the end of the other half the next beat overruns the half. -/
theorem Led.AwaitsRefill.overrun_eq_some {h : Half} {l : Led} (hl : l.AwaitsRefill h)
    (hpos : l.dmaPos.val = h.other.base + 23) : l.overrun = some h := by
  rw [Machine.overrun_eq_some]
  cases h with
  | half0 => exact .inr ⟨rfl, hpos, hl.pending⟩
  | half1 => exact .inl ⟨rfl, hpos, hl.pending⟩

/-- Before the end of the other half a beat overruns nothing, and the refill is still due. -/
theorem Led.AwaitsRefill.beat {h : Half} {l : Led} (hl : l.AwaitsRefill h) (hpos : l.dmaPos.val < h.other.base + 23) :
    l.overrun = none ∧ l.beat.dmaPos.val = l.dmaPos.val + 1 ∧ l.beat.AwaitsRefill h := by
  obtain ⟨hen, hp, hstart, -⟩ := hl
  have hnext : l.beat.dmaPos.val = l.dmaPos.val + 1 := by
    change (l.dmaPos.val + 1) % 48 = _
    cases h <;> simp only [Half.other, Half.base] at hpos <;> omega
  have hpend : l.beat.pending h = true := by
    cases h with
    | half0 => exact (beat_htPend l).mpr (.inl hp)
    | half1 => exact (beat_tcPend l).mpr (.inl hp)
  have hover : l.overrun = none := by
    rw [overrun_eq_none]
    cases h <;> simp only [Half.other, Half.base] at hpos hstart <;> omega
  exact ⟨hover, hnext, hen, hpend, by omega, by omega⟩

/-- Beats alone from `n` values before the end of the other half. -/
theorem beats_of_awaitsRefill {h : Half} {n : Nat} {s : State} (hs : s.led.AwaitsRefill h)
    (hn : s.led.dmaPos.val + n = h.other.base + 23) :
    execAll (List.replicate (n + 1) .dmaBeat) s = .fault (.reloadOverrun h) := by
  induction n generalizing s with
  | zero =>
    rw [List.replicate_one, execAll, exec_dmaBeat_of_overrun hs.dmaEn (hs.overrun_eq_some hn)]; rfl
  | succ n ih =>
    obtain ⟨hover, hnext, hbeat⟩ := hs.beat (by omega)
    rw [List.replicate_succ, execAll, exec_dmaBeat hs.dmaEn hover]
    exact ih hbeat (by rw [hnext]; omega)

/-- From anywhere in the other half, beats alone up to its end overrun the half whose interrupt is not served. -/
theorem beats_of_pending {h : Half} {s : State} (hd : s.led.DmaInv) (hp : s.led.pending h = true) :
    execAll (List.replicate (h.other.base + 24 - s.led.dmaPos.val) .dmaBeat) s = .fault (.reloadOverrun h) := by
  have hs := awaitsRefill_of_dmaInv hd hp
  obtain ⟨n, hn⟩ := Nat.exists_eq_add_of_le hs.stop
  rw [show h.other.base + 24 - s.led.dmaPos.val = n + 1 by omega]
  exact beats_of_awaitsRefill hs hn.symm

/-- Settles O58: the pending bit stays set on the DMA's way through the other half (42_encoder.md R113). -/
theorem aLostReloadInterruptOverruns : Obligations.ALostReloadInterruptOverruns :=
  fun _ hd => ⟨beats_of_pending (h := .half0) hd, beats_of_pending (h := .half1) hd⟩

end Sys2Proof.Machine

/-! The edge-triggered parser, one transition at a time (43_parser_edge.md R126, R127, R129), and the timeout of a clock that goes
back in both parsers (60_exceptions.md R160). -/

namespace Sys2Proof.Machine

/-! The request words. -/

/-- A word with the clock in `a` and a byte in `d` is the packing of its fields. -/
theorem timedByteWord_eq_pack (op : Byte) (now : U32) (b : Byte) :
    op ++ now ++ (0#16 ++ b) = pack op now (b.setWidth 24) := by
  have hd : b.setWidth 24 = 0#16 ++ b := BitVec.setWidth_eq_append (by decide)
  rw [hd, pack]

/-! The timeout. -/

theorem timedOut_eq_true {now last : U32} : timedOut now last = true ↔ 10 < (now - last).toNat := decide_eq_true_iff

theorem timedOut_eq_false {now last : U32} : timedOut now last = false ↔ (now - last).toNat ≤ 10 :=
  decide_eq_false_iff_not.trans Nat.not_lt

/-- A counter that has gone back by less than `2^32 - 10` is more than 10 ahead modulo `2^32`. -/
theorem timedOut_of_earlier {T T' : Nat} (hback : T' < T) (hbound : T - T' + 10 < 2 ^ 32) :
    timedOut (BitVec.ofNat 32 T') (BitVec.ofNat 32 T) = true := by
  rw [timedOut_eq_true, BitVec.toNat_sub, BitVec.toNat_ofNat, BitVec.toNat_ofNat]
  omega

/-! One byte. -/

section
variable {now : U32} {e : Ep}

/-- After a timeout a byte is green of pixel 0, whatever was pending. -/
theorem Ep.byte_of_timeout (h : timedOut now e.lastT = true) (b : Byte) :
    e.byte now b = ({ e with cyc := .red, pixIdx := 0, pend := { r := 0, g := b, b := 0 }, lastT := now }, []) := by
  rw [Ep.byte, Ep.arrive_after h]; rfl

theorem Ep.byte_green (h : timedOut now e.lastT = false) (hcyc : e.cyc = .green) (b : Byte) :
    e.byte now b = ({ e with cyc := .red, pend := { e.pend with g := b }, lastT := now }, []) := by
  rw [Ep.byte, Ep.arrive_within h]; simp only [Ep.assign, hcyc]

theorem Ep.byte_red (h : timedOut now e.lastT = false) (hcyc : e.cyc = .red) (b : Byte) :
    e.byte now b = ({ e with cyc := .blue, pend := { e.pend with r := b }, lastT := now }, []) := by
  rw [Ep.byte, Ep.arrive_within h]; simp only [Ep.assign, hcyc]

theorem Ep.byte_blue (h : timedOut now e.lastT = false) (hcyc : e.cyc = .blue) (b : Byte) :
    e.byte now b =
      ({ e with cyc := .green, pixIdx := e.pixIdx + 1, pend := Color.zero, lastT := now },
        callback e.cbColor fun h => .colorUpdated .ep h e.pixIdx { e.pend with b := b }) := by
  rw [Ep.byte, Ep.arrive_within h]; simp only [Ep.assign, hcyc]

end

/-- After a timeout a byte is a candidate for the first magic byte (44_parser_header.md R136, R137). -/
theorem Hp.byte_of_timeout {now : U32} {p : Hp} (h : timedOut now p.lastT = true) (b : Byte) :
    p.byte now b =
      ({ p with
        st := .header (if b = 0x41 then .magicByte2 else .magicByte1), pixIdx := 0, pend := Color.zero, lastT := now }, []) := by
  rw [Hp.byte, Hp.arrive_after h]
  show (Hp.matchMagic b 0x41 .magicByte2 _, _) = _
  unfold Hp.matchMagic
  split <;> rfl

section
variable {now : U32} {b : Byte} {s : State}

/-- A byte that reports nothing changes its parser only. -/
theorem exec_epByte_of_silent {e : Ep} (h : s.ep.byte now b = (e, [])) :
    exec (.epByte now b) s = .next { s with ep := e, rsp := none } := by
  simp only [exec, execEpByte, h, List.append_nil]; rfl

theorem exec_hpByte_of_silent {p : Hp} (h : s.hp.byte now b = (p, [])) :
    exec (.hpByte now b) s = .next { s with hp := p, rsp := none } := by
  simp only [exec, execHpByte, h, List.append_nil]; rfl

/-- The blue byte reports its pixel under the index before the increment. -/
theorem exec_epByte_blue (h : timedOut now s.ep.lastT = false) (hcyc : s.ep.cyc = .blue) :
    exec (.epByte now b) s = .next
      { s with
        ep := { s.ep with cyc := .green, pixIdx := s.ep.pixIdx + 1, pend := Color.zero, lastT := now }
        trace := s.trace ++ callback s.ep.cbColor fun h => .colorUpdated .ep h s.ep.pixIdx { s.ep.pend with b := b }
        rsp := none } := by
  simp only [exec, execEpByte, Ep.byte_blue h hcyc]; rfl

end

/-- The edge, with the form of its report that the obligations use. -/
theorem exec_epEdge (s : State) :
    exec .epEdge s = .next
      { s with
        ep := { s.ep with frameCount := s.ep.pixIdx, cyc := .green, pixIdx := 0 }
        trace := s.trace ++ s.ep.cbFrame.toList.map (.frameComplete .ep)
        rsp := none } := by
  rw [← callback_eq]; rfl

/-- Settles O32, by the timeout and by the role of the byte (43_parser_edge.md R126). -/
theorem epByteBuildsPixels : Obligations.EpByteBuildsPixels := by
  refine fun now b s => ⟨?_, fun h => ?_, fun h hcyc => ?_, fun h hcyc => ?_, fun h hcyc => ?_⟩
  · exact decode_eq_ok.mpr ⟨rfl, (timedByteWord_eq_pack 0x20 now b).symm⟩
  · exact exec_epByte_of_silent (Ep.byte_of_timeout (timedOut_eq_true.mpr h) b)
  · exact exec_epByte_of_silent (Ep.byte_green (timedOut_eq_false.mpr h) hcyc b)
  · exact exec_epByte_of_silent (Ep.byte_red (timedOut_eq_false.mpr h) hcyc b)
  · rw [← callback_eq]
    exact exec_epByte_blue (timedOut_eq_false.mpr h) hcyc

/-- Settles O59: in both parsers the byte comes after a timeout (43_parser_edge.md R126 corner case (f), 60_exceptions.md
R160). -/
theorem aClockThatGoesBackIsATimeout : Obligations.AClockThatGoesBackIsATimeout := by
  intro T T' b s hback hbound
  have htime := timedOut_of_earlier hback hbound
  exact ⟨fun hep => exec_epByte_of_silent (Ep.byte_of_timeout (hep ▸ htime) b),
    fun hhp => exec_hpByte_of_silent (Hp.byte_of_timeout (hhp ▸ htime) b)⟩

/-- Settles O33 (43_parser_edge.md R127). -/
theorem epEdgeRecordsTheCount : Obligations.EpEdgeRecordsTheCount :=
  fun s => ⟨rfl, exec_epEdge s⟩

/-- The response of an operation that answers `ok` and a 16-bit value (30_encoding.md R61). -/
theorem rspWord_ok_setWidth (n : U16) : rspWord true (n.setWidth 24) = 0x8000#16 ++ n := by
  have hd : n.setWidth 24 = 0#8 ++ n := BitVec.setWidth_eq_append (by decide)
  rw [hd]
  exact BitVec.append_assoc' (x₁ := 0x80#8) (x₂ := 0#8) (x₃ := n)

/-- Settles O34 (43_parser_edge.md R129). -/
theorem epGetCountReadsTheRecord : Obligations.EpGetCountReadsTheRecord := by
  refine fun s => ⟨rfl, ?_⟩
  rw [← rspWord_ok_setWidth]; rfl

end Sys2Proof.Machine

/-! A whole edge-terminated frame (43_parser_edge.md R131, 30_encoding.md R66). -/

namespace Sys2Proof.Machine

/-- The reports of the pixels in order, the first of which has the index `k`. -/
def pixelReports (parser : Parser) (slot : Slot) (k : Nat) (pixels : List Color) : List Event :=
  (pixels.zipIdx k).flatMap fun x => slot.toList.map fun h => .colorUpdated parser h (BitVec.ofNat 16 x.2) x.1

theorem pixelReports_cons (parser : Parser) (slot : Slot) (k : Nat) (c : Color) (pixels : List Color) :
    pixelReports parser slot k (c :: pixels) =
      (callback slot fun h => .colorUpdated parser h (BitVec.ofNat 16 k) c) ++ pixelReports parser slot (k + 1) pixels := by
  rw [callback_eq]; rfl

theorem unbroken_cons {last t : U32} {b : Byte} {rest : List (U32 × Byte)} :
    unbroken last ((t, b) :: rest) = true ↔ timedOut t last = false ∧ unbroken t rest = true := by
  simp [unbroken]

theorem edgeFrame_cons (c : Color) (pixels : List Color) :
    edgeFrame (c :: pixels) = c.g :: c.r :: c.b :: edgeFrame pixels := rfl

/-- What the parser makes of a stream of bytes, with the events emitted. -/
def Ep.bytes : List (U32 × Byte) → Ep → Ep × List Event
  | [], e => (e, [])
  | (now, b) :: rest, e => (((e.byte now b).1.bytes rest).1, (e.byte now b).2 ++ ((e.byte now b).1.bytes rest).2)

/-- A stream of bytes runs to its end and changes the parser, the trace and the response port only. -/
theorem execAll_epStream (bytes : List (U32 × Byte)) (s : State) :
    ∃ rsp, execAll (epStream bytes) s =
      .next { s with ep := (s.ep.bytes bytes).1, trace := s.trace ++ (s.ep.bytes bytes).2, rsp := rsp } := by
  induction bytes generalizing s with
  | nil => exact ⟨s.rsp, by simp only [epStream, List.map_nil, execAll, Ep.bytes, List.append_nil]⟩
  | cons x rest ih =>
    obtain ⟨now, b⟩ := x
    obtain ⟨rsp, ih⟩ := ih
      { s with ep := (s.ep.byte now b).1, trace := s.trace ++ (s.ep.byte now b).2, rsp := none }
    refine ⟨rsp, Eq.trans ih ?_⟩
    rw [List.append_assoc]; rfl

theorem execAll_singleton (i : Instr) (s : State) : execAll [i] s = exec i s := by
  cases h : exec i s <;> rw [execAll, h] <;> rfl

/-- The byte stream goes on without a gap, or with one where the parser is at the start of a frame and so loses nothing. -/
def Ep.Continues (e : Ep) (bytes : List (U32 × Byte)) : Prop :=
  unbroken e.lastT bytes = true ∨ e.pixIdx = 0 ∧ steady bytes = true

/-- The green byte of a pixel. What is pending beside it the pixel's other bytes overwrite. -/
theorem Ep.byte_green_of_continues {now : U32} {b : Byte} {e : Ep} {rest : List (U32 × Byte)} (hcyc : e.cyc = .green)
    (hcont : e.Continues ((now, b) :: rest)) :
    unbroken now rest = true ∧
      ∃ p : Color, p.g = b ∧ e.byte now b = ({ e with cyc := .red, pend := p, lastT := now }, []) := by
  cases htime : timedOut now e.lastT with
  | false =>
    have hrest : unbroken now rest = true := hcont.elim (fun h => (unbroken_cons.mp h).2) And.right
    exact ⟨hrest, _, rfl, Ep.byte_green htime hcyc b⟩
  | true =>
    obtain hgap | ⟨hidx, hrest⟩ := hcont
    · exact absurd (htime.symm.trans (unbroken_cons.mp hgap).1) (by decide)
    · exact ⟨hrest, { r := 0, g := b, b := 0 }, rfl, by rw [Ep.byte_of_timeout htime, ← hidx]⟩

/-- The parser when a pixel is complete. -/
def Ep.nextPixel (now : U32) (e : Ep) : Ep :=
  { e with cyc := .green, pixIdx := e.pixIdx + 1, pend := Color.zero, lastT := now }

/-- The three bytes of a pixel report it and start the next one (43_parser_edge.md R126). -/
theorem Ep.bytes_pixel {c : Color} {t₁ t₂ t₃ : U32} {rest : List (U32 × Byte)} {e : Ep} (hcyc : e.cyc = .green)
    (hcont : e.Continues ((t₁, c.g) :: (t₂, c.r) :: (t₃, c.b) :: rest)) :
    unbroken t₃ rest = true ∧
      e.bytes ((t₁, c.g) :: (t₂, c.r) :: (t₃, c.b) :: rest) =
        (((e.nextPixel t₃).bytes rest).1,
          (callback e.cbColor fun h => .colorUpdated .ep h e.pixIdx c) ++ ((e.nextPixel t₃).bytes rest).2) := by
  obtain ⟨hgap, p, hg, hgreen⟩ := Ep.byte_green_of_continues hcyc hcont
  obtain ⟨h₂, hgap⟩ := unbroken_cons.mp hgap
  obtain ⟨h₃, hgap⟩ := unbroken_cons.mp hgap
  refine ⟨hgap, ?_⟩
  simp only [Ep.bytes, hgreen, Ep.byte_red, Ep.byte_blue, h₂, h₃, hg, List.nil_append, Ep.nextPixel]

/-- The bytes of whole pixels, when `k` pixels of the frame have come before. -/
theorem Ep.bytes_pixels {pixels : List Color} {bytes : List (U32 × Byte)} {e : Ep} {k : Nat} (hcyc : e.cyc = .green)
    (hidx : e.pixIdx = BitVec.ofNat 16 k) (hbytes : bytes.map Prod.snd = edgeFrame pixels) (hcont : e.Continues bytes) :
    ∃ pend lastT, e.bytes bytes =
      ({ e with pixIdx := BitVec.ofNat 16 (k + pixels.length), pend := pend, lastT := lastT },
        pixelReports .ep e.cbColor k pixels) := by
  induction pixels generalizing bytes e k with
  | nil =>
    obtain rfl : bytes = [] := List.map_eq_nil_iff.mp hbytes
    refine ⟨e.pend, e.lastT, ?_⟩
    rw [List.length_nil, Nat.add_zero, ← hidx]; rfl
  | cons c pixels ih =>
    simp only [edgeFrame_cons, List.map_eq_cons_iff] at hbytes
    obtain ⟨⟨t₁, _⟩, _, rfl, rfl, ⟨t₂, _⟩, _, rfl, rfl, ⟨t₃, _⟩, rest, rfl, rfl, hrest⟩ := hbytes
    obtain ⟨hgap, hpixel⟩ := Ep.bytes_pixel hcyc hcont
    have hnext : (e.nextPixel t₃).pixIdx = BitVec.ofNat 16 (k + 1) := by
      rw [BitVec.ofNat_add, ← hidx]; rfl
    obtain ⟨pend, lastT, ih⟩ := ih rfl hnext hrest (.inl hgap)
    refine ⟨pend, lastT, ?_⟩
    rw [hpixel, ih, pixelReports_cons, ← hidx, List.length_cons, ← Nat.add_assoc, Nat.add_right_comm]
    simp only [Ep.nextPixel, hcyc]

/-- Settles O35: each pixel is reported under the number of those before it, and the edge records their number
(43_parser_edge.md R126, R127, R131). -/
theorem edgeFrameIsReported : Obligations.EdgeFrameIsReported := by
  intro s pixels bytes hcyc hidx hlen hbytes hsteady
  obtain ⟨rsp, hstream⟩ := execAll_epStream bytes s
  obtain ⟨pend, lastT, hpixels⟩ := Ep.bytes_pixels (k := 0) hcyc hidx hbytes (.inr ⟨hidx, hsteady⟩)
  have hcount : (BitVec.ofNat 16 (0 + pixels.length)).toNat = pixels.length := by
    rw [BitVec.toNat_ofNat]; omega
  rw [hpixels] at hstream
  rw [execAll_append _ _ hstream, execAll_singleton, exec_epEdge]
  exact ⟨_, rfl, rfl, hcount, rfl, rfl, rfl, rfl, rfl⟩

end Sys2Proof.Machine

/-! The header-framed parser, one transition at a time: the rows of its state machine (44_parser_header.md R135 to R140) and its
start-up (R147). -/

namespace Sys2Proof.Machine

/-- Settles O40 (44_parser_header.md R147). -/
theorem hpInitRestartsAndAnnounces : Obligations.HpInitRestartsAndAnnounces :=
  fun _ => ⟨rfl, rfl⟩

/-- The timeout step, with its bound written out (44_parser_header.md R136). -/
theorem Hp.arrive_eq (now : U32) (p : Hp) :
    p.arrive now =
      if 10 < (now - p.lastT).toNat then
        { p with st := .header .magicByte1, pixIdx := 0, pend := { r := 0, g := 0, b := 0 }, lastT := now }
      else { p with lastT := now } := by
  by_cases h : 10 < (now - p.lastT).toNat
  · rw [if_pos h, Hp.arrive_after (timedOut_eq_true.mpr h)]; rfl
  · rw [if_neg h, Hp.arrive_within (timedOut_eq_false.mpr (Nat.not_lt.mp h))]

/-! The rows of the state machine. -/

section
variable {b : Byte} {p : Hp}

/-- A magic byte moves the search on or restarts it (44_parser_header.md R138). -/
theorem Hp.matchMagic_eq (b awaited : Byte) (next : HeaderSub) (p : Hp) :
    p.matchMagic b awaited next = { p with st := .header (if b = awaited then next else .magicByte1) } := by
  unfold Hp.matchMagic
  split <;> rfl

theorem Hp.assign_magicByte1 (h : p.st = .header .magicByte1) :
    p.assign b = ({ p with st := .header (if b = 0x41 then .magicByte2 else .magicByte1) }, []) := by
  simp only [Hp.assign, h, Hp.matchMagic_eq, magic1]

theorem Hp.assign_magicByte2 (h : p.st = .header .magicByte2) :
    p.assign b = ({ p with st := .header (if b = 0x64 then .magicByte3 else .magicByte1) }, []) := by
  simp only [Hp.assign, h, Hp.matchMagic_eq, magic2]

theorem Hp.assign_magicByte3 (h : p.st = .header .magicByte3) :
    p.assign b = ({ p with st := .header (if b = 0x61 then .lengthHi else .magicByte1) }, []) := by
  simp only [Hp.assign, h, Hp.matchMagic_eq, magic3]

theorem Hp.assign_lengthHi (h : p.st = .header .lengthHi) :
    p.assign b = ({ p with st := .header .lengthLo, lenHi := b }, []) := by
  simp only [Hp.assign, h]

theorem Hp.assign_lengthLo (h : p.st = .header .lengthLo) :
    p.assign b = ({ p with st := .header .checksum, lenLo := b }, []) := by
  simp only [Hp.assign, h]

theorem Hp.assign_checksum (h : p.st = .header .checksum) : p.assign b = (p.checkHeader b, []) := by
  simp only [Hp.assign, h]

theorem Hp.assign_green (h : p.st = .ledGreen) :
    p.assign b = ({ p with st := .ledRed, pend := { p.pend with g := b } }, []) := by
  simp only [Hp.assign, h]

theorem Hp.assign_red (h : p.st = .ledRed) :
    p.assign b = ({ p with st := .ledBlue, pend := { p.pend with r := b } }, []) := by
  simp only [Hp.assign, h]

theorem Hp.assign_blue (h : p.st = .ledBlue) : p.assign b = p.finishPixel b := by
  simp only [Hp.assign, h]

theorem Hp.checkHeader_pass (h : b = checksumOf p.lenHi p.lenLo) :
    p.checkHeader b = { p with st := .ledGreen, cnt := lengthOf p.lenHi p.lenLo, pixIdx := 0 } := by
  rw [Hp.checkHeader, if_pos h]

theorem Hp.checkHeader_fail (h : b ≠ checksumOf p.lenHi p.lenLo) :
    p.checkHeader b = { p with st := .header .magicByte1, lenHi := 0, lenLo := 0 } := by
  rw [Hp.checkHeader, if_neg h]

theorem Hp.finishPixel_next (h : (p.pixIdx + 1).toNat < p.cnt.toNat) :
    p.finishPixel b =
      ({ p with st := .ledGreen, pixIdx := p.pixIdx + 1, pend := Color.zero },
        callback p.cbColor fun h => .colorUpdated .hp h p.pixIdx { p.pend with b := b }) := by
  rw [Hp.finishPixel, if_pos h]

theorem Hp.finishPixel_last (h : p.cnt.toNat ≤ (p.pixIdx + 1).toNat) :
    p.finishPixel b =
      ({ p with st := .header .magicByte1, pixIdx := 0, pend := Color.zero },
        (callback p.cbColor fun h => .colorUpdated .hp h p.pixIdx { p.pend with b := b }) ++
          callback p.cbFrame (.frameComplete .hp)) := by
  rw [Hp.finishPixel, if_neg (Nat.not_lt.mpr h)]

end

/-- A byte changes its parser, by the row it takes after the timeout step, and the trace. -/
theorem exec_hpByte_of_assign {now : U32} {b : Byte} {s : State} {p : Hp} {events : List Event}
    (h : (s.hp.arrive now).assign b = (p, events)) :
    exec (.hpByte now b) s = .next { s with hp := p, trace := s.trace ++ events, rsp := none } := by
  simp only [exec, execHpByte, Hp.byte, h]; rfl

/-- Settles O36: after the timeout step each state of the parser has its row (44_parser_header.md R135 to R140). -/
theorem hpByteTakesOneRow : Obligations.HpByteTakesOneRow := by
  intro now b s p hp
  rw [← Hp.arrive_eq] at hp
  subst hp
  refine ⟨decode_eq_ok.mpr ⟨rfl, (timedByteWord_eq_pack 0x30 now b).symm⟩,
    fun h => exec_hpByte_of_silent (Hp.assign_magicByte1 h), fun h => exec_hpByte_of_silent (Hp.assign_magicByte2 h),
    fun h => exec_hpByte_of_silent (Hp.assign_magicByte3 h), fun h => exec_hpByte_of_silent (Hp.assign_lengthHi h),
    fun h => exec_hpByte_of_silent (Hp.assign_lengthLo h), fun h hsum => ?_, fun h hsum => ?_,
    fun h => exec_hpByte_of_silent (Hp.assign_green h), fun h => exec_hpByte_of_silent (Hp.assign_red h),
    fun h hmore => ?_, fun h hend => ?_⟩
  · rw [← lengthOf_eq, ← Hp.checkHeader_pass hsum]
    exact exec_hpByte_of_silent (Hp.assign_checksum h)
  · rw [← Hp.checkHeader_fail hsum]
    exact exec_hpByte_of_silent (Hp.assign_checksum h)
  · rw [← callback_eq]
    exact exec_hpByte_of_assign ((Hp.assign_blue h).trans (Hp.finishPixel_next hmore))
  · rw [← callback_eq, ← callback_eq, List.append_assoc]
    exact exec_hpByte_of_assign ((Hp.assign_blue h).trans (Hp.finishPixel_last hend))

end Sys2Proof.Machine

/-! Streams of bytes at the header-framed parser: a header, good or bad, and a whole frame (44_parser_header.md R137 to R144,
30_encoding.md R67). -/

namespace Sys2Proof.Machine

/-- What the parser makes of a stream of bytes, with the events emitted. -/
def Hp.bytes : List (U32 × Byte) → Hp → Hp × List Event
  | [], p => (p, [])
  | (now, b) :: rest, p => (((p.byte now b).1.bytes rest).1, (p.byte now b).2 ++ ((p.byte now b).1.bytes rest).2)

/-- A stream of bytes runs to its end and changes the parser, the trace and the response port only. -/
theorem execAll_hpStream (bytes : List (U32 × Byte)) (s : State) :
    ∃ rsp, execAll (hpStream bytes) s =
      .next { s with hp := (s.hp.bytes bytes).1, trace := s.trace ++ (s.hp.bytes bytes).2, rsp := rsp } := by
  induction bytes generalizing s with
  | nil => exact ⟨s.rsp, by simp only [hpStream, List.map_nil, execAll, Hp.bytes, List.append_nil]⟩
  | cons x rest ih =>
    obtain ⟨now, b⟩ := x
    obtain ⟨rsp, ih⟩ := ih
      { s with hp := (s.hp.byte now b).1, trace := s.trace ++ (s.hp.byte now b).2, rsp := none }
    refine ⟨rsp, Eq.trans ih ?_⟩
    rw [List.append_assoc]; rfl

/-! The header. -/

/-- A byte within the timeout takes its row. -/
theorem Hp.byte_within {now : U32} {p : Hp} (h : timedOut now p.lastT = false) (b : Byte) :
    p.byte now b = { p with lastT := now }.assign b := by
  rw [Hp.byte, Hp.arrive_within h]

/-- The first magic byte is matched also after a timeout, which may clear the index and the pending colour
(44_parser_header.md R136). -/
theorem Hp.byte_first {p : Hp} (hst : p.st = .header .magicByte1) (now : U32) :
    ∃ idx pend, p.byte now 0x41 =
      ({ p with st := .header .magicByte2, pixIdx := idx, pend := pend, lastT := now }, []) := by
  cases htime : timedOut now p.lastT with
  | false => exact ⟨p.pixIdx, p.pend, (Hp.byte_within htime _).trans (Hp.assign_magicByte1 hst)⟩
  | true => exact ⟨0, Color.zero, Hp.byte_of_timeout htime _⟩

/-- The parser when the magic and the length bytes of a header have come. -/
def Hp.headerRead (hi lo : Byte) (idx : U16) (pend : Color) (now : U32) (p : Hp) : Hp :=
  { p with st := .header .checksum, lenHi := hi, lenLo := lo, pixIdx := idx, pend := pend, lastT := now }

/-- A header gives no event, and its last byte `x` is examined as the checksum of the two length bytes before it
(44_parser_header.md R137). -/
theorem Hp.bytes_header {hi lo x : Byte} {more : List Byte} {bytes : List (U32 × Byte)} {p : Hp}
    (hst : p.st = .header .magicByte1) (hbytes : bytes.map Prod.snd = 0x41 :: 0x64 :: 0x61 :: hi :: lo :: x :: more)
    (hsteady : steady bytes = true) :
    ∃ idx pend now rest, rest.map Prod.snd = more ∧ unbroken now rest = true ∧
      p.bytes bytes = ((p.headerRead hi lo idx pend now).checkHeader x).bytes rest := by
  simp only [List.map_eq_cons_iff] at hbytes
  obtain ⟨⟨t₁, _⟩, _, rfl, rfl, ⟨t₂, _⟩, _, rfl, rfl, ⟨t₃, _⟩, _, rfl, rfl, ⟨t₄, _⟩, _, rfl, rfl, ⟨t₅, _⟩, _, rfl, rfl,
    ⟨t₆, _⟩, rest, rfl, rfl, hrest⟩ := hbytes
  simp only [steady, unbroken_cons] at hsteady
  obtain ⟨h₂, h₃, h₄, h₅, h₆, hgap⟩ := hsteady
  obtain ⟨idx, pend, hfirst⟩ := Hp.byte_first hst t₁
  refine ⟨idx, pend, t₆, rest, hrest, hgap, ?_⟩
  simp only [Hp.bytes, hfirst, Hp.byte_within, h₂, h₃, h₄, h₅, h₆, Hp.assign_magicByte2, Hp.assign_magicByte3,
    Hp.assign_lengthHi, Hp.assign_lengthLo, Hp.assign_checksum, if_true, List.nil_append, Hp.headerRead]

theorem Hp.checkHeader_headerRead_pass (hi lo : Byte) (idx : U16) (pend : Color) (now : U32) (p : Hp) :
    (p.headerRead hi lo idx pend now).checkHeader (checksumOf hi lo) =
      { p with
        st := .ledGreen, lenHi := hi, lenLo := lo, cnt := lengthOf hi lo, pixIdx := 0, pend := pend, lastT := now } :=
  Hp.checkHeader_pass (p := p.headerRead hi lo idx pend now) rfl

theorem Hp.checkHeader_headerRead_fail {hi lo x : Byte} (h : x ≠ checksumOf hi lo) (idx : U16) (pend : Color) (now : U32)
    (p : Hp) :
    (p.headerRead hi lo idx pend now).checkHeader x =
      { p with st := .header .magicByte1, lenHi := 0, lenLo := 0, pixIdx := idx, pend := pend, lastT := now } :=
  Hp.checkHeader_fail (p := p.headerRead hi lo idx pend now) h

/-- Settles O38: the checksum byte fails, and the search starts again (44_parser_header.md R139, R144). -/
theorem badChecksumRestartsTheSearch : Obligations.BadChecksumRestartsTheSearch := by
  intro s hi lo x bytes hst hx hbytes hsteady
  obtain ⟨idx, pend, now, rest, hrest, -, hheader⟩ := Hp.bytes_header hst hbytes hsteady
  obtain rfl : rest = [] := List.map_eq_nil_iff.mp hrest
  obtain ⟨rsp, hstream⟩ := execAll_hpStream bytes s
  rw [hheader, Hp.checkHeader_headerRead_fail hx] at hstream
  exact ⟨_, hstream, List.append_nil _, rfl, rfl, rfl, rfl⟩

/-- The two length bytes of a header carry its count, big-endian (30_encoding.md R67, R72). -/
theorem lengthOf_extract (n : U16) : lengthOf (n.extractLsb' 8 8) (n.extractLsb' 0 8) = n :=
  (append_extract n 0 8 8).trans (extract_all n)

/-! The pixels. -/

/-- What the blue byte of the pixel `c` makes of the parser. -/
def Hp.pixel (c : Color) (now : U32) (p : Hp) : Hp × List Event := { p with pend := c, lastT := now }.finishPixel c.b

/-- The three bytes of a pixel end it with its own colour (44_parser_header.md R137). -/
theorem Hp.bytes_pixel {c : Color} {more : List Byte} {bytes : List (U32 × Byte)} {p : Hp} (hst : p.st = .ledGreen)
    (hbytes : bytes.map Prod.snd = c.g :: c.r :: c.b :: more) (hgap : unbroken p.lastT bytes = true) :
    ∃ now rest, rest.map Prod.snd = more ∧ unbroken now rest = true ∧
      p.bytes bytes = (((p.pixel c now).1.bytes rest).1, (p.pixel c now).2 ++ ((p.pixel c now).1.bytes rest).2) := by
  simp only [List.map_eq_cons_iff] at hbytes
  obtain ⟨⟨t₁, _⟩, _, rfl, rfl, ⟨t₂, _⟩, _, rfl, rfl, ⟨t₃, _⟩, rest, rfl, rfl, hrest⟩ := hbytes
  simp only [unbroken_cons] at hgap
  obtain ⟨h₁, h₂, h₃, hgap⟩ := hgap
  refine ⟨t₃, rest, hrest, hgap, ?_⟩
  simp only [Hp.bytes, Hp.byte_within, h₁, h₂, h₃, hst, Hp.assign_green, Hp.assign_red, Hp.assign_blue, List.nil_append]
  rfl

theorem Hp.pixel_next {p : Hp} (h : (p.pixIdx + 1).toNat < p.cnt.toNat) (c : Color) (now : U32) :
    p.pixel c now =
      ({ p with st := .ledGreen, pixIdx := p.pixIdx + 1, pend := Color.zero, lastT := now },
        callback p.cbColor fun h => .colorUpdated .hp h p.pixIdx c) :=
  Hp.finishPixel_next (p := { p with pend := c, lastT := now }) h

theorem Hp.pixel_last {p : Hp} (h : p.cnt.toNat ≤ (p.pixIdx + 1).toNat) (c : Color) (now : U32) :
    p.pixel c now =
      ({ p with st := .header .magicByte1, pixIdx := 0, pend := Color.zero, lastT := now },
        (callback p.cbColor fun h => .colorUpdated .hp h p.pixIdx c) ++ callback p.cbFrame (.frameComplete .hp)) :=
  Hp.finishPixel_last (p := { p with pend := c, lastT := now }) h

theorem pixelReports_singleton (parser : Parser) (slot : Slot) (k : Nat) (c : Color) :
    pixelReports parser slot k [c] = callback slot fun h => .colorUpdated parser h (BitVec.ofNat 16 k) c :=
  (pixelReports_cons parser slot k c []).trans (List.append_nil _)

/-- The bytes of the pixels that a frame still awaits, `k` having come before: each is reported, then the frame. A count of 0 awaits
one pixel (44_parser_header.md R140, R141). -/
theorem Hp.bytes_pixels {c : Color} {pixels : List Color} {bytes : List (U32 × Byte)} {p : Hp} {k : Nat}
    (hst : p.st = .ledGreen) (hidx : p.pixIdx = BitVec.ofNat 16 k) (hcnt : k + (c :: pixels).length = max p.cnt.toNat 1)
    (hbytes : bytes.map Prod.snd = (c :: pixels).flatMap pixelBytes) (hgap : unbroken p.lastT bytes = true) :
    ∃ lastT, p.bytes bytes =
      ({ p with st := .header .magicByte1, pixIdx := 0, pend := Color.zero, lastT := lastT },
        pixelReports .hp p.cbColor k (c :: pixels) ++ callback p.cbFrame (.frameComplete .hp)) := by
  induction pixels generalizing c bytes p k with
  | nil =>
    obtain ⟨now, rest, hrest, -, hpixel⟩ := Hp.bytes_pixel hst hbytes hgap
    obtain rfl : rest = [] := List.map_eq_nil_iff.mp hrest
    have hlast : p.cnt.toNat ≤ (p.pixIdx + 1).toNat := by
      rw [hidx]; simp only [List.length_singleton] at hcnt; bv_omega
    refine ⟨now, ?_⟩
    rw [hpixel, Hp.pixel_last hlast, hidx, pixelReports_singleton]
    simp only [Hp.bytes, List.append_nil]
  | cons d pixels ih =>
    obtain ⟨now, rest, hrest, hgap, hpixel⟩ := Hp.bytes_pixel hst hbytes hgap
    have hmore : (p.pixIdx + 1).toNat < p.cnt.toNat := by
      rw [hidx]; simp only [List.length_cons] at hcnt; bv_omega
    rw [Hp.pixel_next hmore] at hpixel
    have hnext : p.pixIdx + 1 = BitVec.ofNat 16 (k + 1) := by rw [BitVec.ofNat_add, ← hidx]; rfl
    obtain ⟨lastT, ih⟩ := ih
      (p := { p with st := .ledGreen, pixIdx := p.pixIdx + 1, pend := Color.zero, lastT := now }) rfl hnext
      (by rw [← hcnt]; simp only [List.length_cons]; omega) hrest hgap
    refine ⟨lastT, ?_⟩
    rw [hpixel, ih, pixelReports_cons (pixels := d :: pixels), ← hidx, List.append_assoc]

/-! The frame. -/

theorem frameHeader_append (n : U16) (more : List Byte) :
    frameHeader n ++ more =
      0x41 :: 0x64 :: 0x61 :: n.extractLsb' 8 8 :: n.extractLsb' 0 8 ::
        checksumOf (n.extractLsb' 8 8) (n.extractLsb' 0 8) :: more := rfl

/-- A whole frame with the pixels that its header declares, or with one where it declares none (44_parser_header.md R141, R144). -/
theorem Hp.bytes_frame {n : U16} {c : Color} {pixels : List Color} {bytes : List (U32 × Byte)} {p : Hp}
    (hst : p.st = .header .magicByte1) (hcount : (c :: pixels).length = max n.toNat 1)
    (hbytes : bytes.map Prod.snd = frameHeader n ++ (c :: pixels).flatMap pixelBytes) (hsteady : steady bytes = true) :
    ∃ q, p.bytes bytes = (q, pixelReports .hp p.cbColor 0 (c :: pixels) ++ callback p.cbFrame (.frameComplete .hp)) ∧
      q.st = .header .magicByte1 ∧ q.pixIdx = 0 ∧ q.cnt = n := by
  rw [frameHeader_append] at hbytes
  obtain ⟨idx, pend, now, rest, hrest, hgap, hheader⟩ := Hp.bytes_header hst hbytes hsteady
  rw [Hp.checkHeader_headerRead_pass, lengthOf_extract] at hheader
  obtain ⟨lastT, hpixels⟩ := Hp.bytes_pixels (k := 0)
    (p := { p with
      st := .ledGreen, lenHi := n.extractLsb' 8 8, lenLo := n.extractLsb' 0 8, cnt := n, pixIdx := 0, pend := pend
      lastT := now })
    rfl rfl ((Nat.zero_add _).trans hcount) hrest hgap
  exact ⟨_, hheader.trans hpixels, rfl, rfl, rfl⟩

/-- Settles O37: the header declares the number of the pixels (44_parser_header.md R137, R144). -/
theorem headerFrameIsReported : Obligations.HeaderFrameIsReported := by
  intro s pixels bytes hst hpos hlen hbytes hsteady
  have hn : (BitVec.ofNat 16 pixels.length).toNat = pixels.length := by
    rw [BitVec.toNat_ofNat]; omega
  obtain ⟨c, pixels, rfl⟩ := List.exists_cons_of_length_pos hpos
  obtain ⟨q, hframe, hq, hidx, hcnt⟩ := Hp.bytes_frame hst (by rw [hn, Nat.max_eq_left hpos]) hbytes hsteady
  obtain ⟨rsp, hstream⟩ := execAll_hpStream bytes s
  rw [hframe, callback_eq, ← List.append_assoc] at hstream
  exact ⟨_, hstream, rfl, hq, hidx, (congrArg BitVec.toNat hcnt).trans hn, rfl, rfl, rfl⟩

/-- Settles O39: a declared count of 0 awaits one pixel (44_parser_header.md R141). -/
theorem zeroCountBehavesAsOne : Obligations.ZeroCountBehavesAsOne := by
  intro s c bytes hst hbytes hsteady
  obtain ⟨q, hframe, hq, hidx, hcnt⟩ := Hp.bytes_frame (n := 0) (c := c) (pixels := []) hst rfl hbytes hsteady
  obtain ⟨rsp, hstream⟩ := execAll_hpStream bytes s
  rw [hframe, pixelReports_singleton, callback_eq, callback_eq, ← List.append_assoc] at hstream
  exact ⟨_, hstream, rfl, hq, hidx, hcnt⟩

end Sys2Proof.Machine

/-! When a transition completes: exactly when its guard holds (60_exceptions.md R150, 42_encoder.md R110, R111, R114). -/

namespace Sys2Proof.Machine

theorem exec_completes_iff {i : Instr} {s : State} : (∃ t, exec i s = .next t) ↔ ledGuard s.led i := by
  refine ⟨fun ⟨_, h⟩ => ledGuard_of_exec h, fun hg => ?_⟩
  by_cases hi : i = .sysReset
  · subst hi; exact ⟨_, rfl⟩
  · exact ⟨_, exec_of_guard hi hg⟩

/-- Only the engine's three internal events can be not enabled. -/
theorem ledGuard_of_not_internal {i : Instr} (hbeat : i ≠ .dmaBeat) (hht : i ≠ .irqHt) (htc : i ≠ .irqTc) (l : Led) :
    ledGuard l i := by
  cases i with
  | dmaBeat => exact absurd rfl hbeat
  | irqHt => exact absurd rfl hht
  | irqTc => exact absurd rfl htc
  | _ => trivial

/-- Settles O53, by the guards: a reload handler is late exactly where the beat overruns a half (42_encoder.md R110, R113). -/
theorem whenATransitionCompletes : Obligations.WhenATransitionCompletes := by
  refine fun i s => ⟨fun hbeat hht htc => ?_, exec_completes_iff, exec_completes_iff, ?_⟩
  · exact exec_completes_iff.mpr (ledGuard_of_not_internal hbeat hht htc s.led)
  · calc (∃ t, exec .dmaBeat s = .next t)
      _ ↔ s.led.dmaEn = true ∧ s.led.overrun = none := exec_completes_iff
      _ ↔ _ := and_congr_right' overrun_eq_none

end Sys2Proof.Machine

/-! Reset and rest (70_reset_and_hazards.md R170, R171, R173). -/

namespace Sys2Proof.Machine

/-- What `SYS.RESET` makes of the state: the blocks of R33 and R34 and an empty trace, `FIFO.OUT` a free value (R171). -/
theorem exec_sysReset (s : State) :
    exec .sysReset s =
      .next
        { s with
          fifo := Fifo.atReset s.cfg (Config.freeOut s.freeCtr), led := Led.atReset s.cfg, ep := Ep.atReset, hp := Hp.atReset
          trace := [], rsp := some rspNone, freeCtr := s.freeCtr + 1 } := rfl

/-- Settles O41: the blocks' values after reset are the table's (70_reset_and_hazards.md R170, 10_state.md R33, R34). -/
theorem sysResetSetsEveryRegister : Obligations.SysResetSetsEveryRegister :=
  fun s => ⟨_, exec_sysReset s, rfl, rfl, rfl, rfl, rfl, rfl, rfl, rfl, rfl⟩

/-- Settles O54: at rest the generator is disabled, since `dma_en = busy` (10_state.md R23, R26, 41_framebuffer.md R96). -/
theorem nothingRunsWhenQuiescent : Obligations.NothingRunsWhenQuiescent := by
  intro s hinv ⟨hbusy, hht, htc⟩
  obtain ⟨-, -, -, -, ⟨hen, -⟩, -, -⟩ := hinv
  have hoff : s.led.dmaEn = false := hen.trans hbusy
  have hstart (n : U16) : (s.led.start s.cfg n).busy = true := (start_flags s.cfg n s.led).1
  exact ⟨exec_dmaBeat_of_disabled hoff, exec_irqHt_of_not_pending hht, exec_irqTc_of_not_pending htc,
    fun n => ⟨_, exec_ledRefresh_of_free hbusy n, hstart n⟩, levelAt_of_disabled hoff⟩

end Sys2Proof.Machine

/-! A transfer that no reload handler serves: what is held stays held (70_reset_and_hazards.md R178). -/

namespace Sys2Proof.Machine

/-- A sequence goes on only from a next state. -/
theorem andThen_eq_next {r : Host.Outcome State Fault Refusal} {k : State → Host.Outcome State Fault Refusal} {t : State} :
    andThen r k = .next t ↔ ∃ u, r = .next u ∧ k u = .next t := by
  cases r <;> simp [andThen]

/-- What each instruction of a sequence keeps, the sequence keeps. -/
theorem execAll_keeps {P : State → Prop} {is : List Instr} (hexec : ∀ i ∈ is, ∀ u v, P u → exec i u = .next v → P v)
    {s t : State} (hs : P s) (h : execAll is s = .next t) : P t := by
  induction is generalizing s with
  | nil => cases h; exact hs
  | cons i is ih =>
    obtain ⟨u, hu, hrest⟩ := andThen_eq_next.mp h
    obtain ⟨hi, his⟩ := List.forall_mem_cons.mp hexec
    exact ih his (hi s u hs hu) hrest

/-- A requester joins the held ones at the end, so the others keep their places. -/
theorem held_prefix_heldAfter (s : State) (i : Instr) : s.held <+: heldAfter s i := by
  cases i with
  | ledRefresh n =>
    rw [heldAfter]
    split
    · exact List.prefix_append _ _
    · exact List.prefix_rfl
  | _ => exact List.prefix_rfl

/-- A transfer runs, and the requesters `waiting` are held in their places. -/
structure State.Waits (waiting : List U16) (s : State) : Prop where
  busy : s.led.busy = true
  held : waiting <+: s.held

/-- Without a reload handler and without a reset the transfer goes on, and no requester is released. -/
theorem exec_keeps_waits {waiting : List U16} {i : Instr} {s t : State} (hi : i ≠ .irqHt ∧ i ≠ .irqTc ∧ i ≠ .sysReset)
    (hs : s.Waits waiting) (h : exec i s = .next t) : t.Waits waiting := by
  obtain ⟨hht, htc, hreset⟩ := hi
  have hends : t.led.busy = false → (i = .irqHt ∨ i = .irqTc) ∧ t.led.finished = true :=
    (whoWritesBusyAndFinished i s t h hreset).2.1 hs.busy
  obtain ⟨-, rfl⟩ := exec_next hreset h
  exact ⟨Bool.of_not_eq_false fun hfree => (hends hfree).1.elim hht htc, hs.held.trans (held_prefix_heldAfter s i)⟩

/-- Settles O57: the sequence keeps the transfer and the held requesters, and a requester scheduled at `busy = 1` is held on
(70_reset_and_hazards.md R178, 41_framebuffer.md R96). -/
theorem aHeldRefreshHangsWithoutReload : Obligations.AHeldRefreshHangsWithoutReload := by
  intro is s t hbusy his h
  have hwaits : t.Waits s.held := execAll_keeps (fun i hi _ _ => exec_keeps_waits (his i hi)) ⟨hbusy, List.prefix_rfl⟩ h
  refine ⟨hwaits.busy, fun k n rest hk => ?_⟩
  have hplace : t.held[k]? = some n := by
    obtain ⟨hlt, rfl⟩ := List.getElem?_eq_some_iff.mp hk
    exact List.prefix_iff_getElem?.mp hwaits.held k hlt
  exact ⟨hplace, (heldRefreshIsReleasedWhenFree { t with input := .resume k :: rest } k rest n rfl hplace).2 hwaits.busy⟩

end Sys2Proof.Machine

/-! A run within the premises of 70_reset_and_hazards.md R188: how it can stop. -/

namespace Sys2Proof.Machine

theorem andThen_eq_refused {r : Host.Outcome State Fault Refusal} {k : State → Host.Outcome State Fault Refusal}
    {e : Refusal} : andThen r k = .refused e ↔ r = .refused e ∨ ∃ u, r = .next u ∧ k u = .refused e := by
  cases r <;> simp [andThen]

/-- A safe run is one that does not end in the fault of a late reload handler (42_encoder.md R113). -/
theorem safeFor_eq_true {n : Nat} {s : State} : safeFor n s = true ↔ ∀ f, runSteps n s ≠ .fault f := by
  induction n generalizing s with
  | zero => simp [safeFor, runSteps]
  | succ n ih => cases h : step s <;> simp [safeFor, runSteps, andThen, h, ih]

/-- A run that is refused is refused at a step whose stimuli are among those of the run. -/
theorem runSteps_refused {n : Nat} {s : State} {r : Refusal} (h : runSteps n s = .refused r) :
    ∃ u : State, u.input ⊆ s.input ∧ step u = .refused r := by
  induction n generalizing s with
  | zero => cases h
  | succ n ih =>
    obtain hstop | ⟨u, hu, hrest⟩ := andThen_eq_refused.mp h
    · exact ⟨s, List.Subset.refl _, hstop⟩
    · obtain ⟨v, hv, hstop⟩ := ih hrest
      rw [step_input hu] at hv
      exact ⟨v, List.Subset.trans hv (List.tail_subset _), hstop⟩

/-- A legal request is one that the decoder reads. -/
theorem decode_ne_error_of_legal {w : Req} (h : (Stimulus.request w).legal = true) (e : Illegal) : decode w ≠ .error e := by
  obtain ⟨_, i, hw, hd⟩ | ⟨_, hk⟩ := legal_cases h
  · cases hw; simp [hd]
  · cases hk

/-- Settles O56: of the reasons to stop, `P_deadline` shuts out the fault, `P_legal` the illegal word, and `P_deliver` a reload
handler that is not pending (70_reset_and_hazards.md R188). -/
theorem aRunWithinThePremisesGoesOn : Obligations.ARunWithinThePremisesGoesOn := by
  intro e acts s hpremises
  obtain ⟨-, -, -, -, hserved⟩ := hpremises.deliver
  have hlegal : ∀ x ∈ (s.under acts).input, x.legal = true := List.forall_mem_map.mpr hpremises.legal
  cases hrun : runUnder acts s with
  | next t => exact .inl ⟨t, rfl⟩
  | fault f => exact absurd hrun (safeFor_eq_true.mp hpremises.deadline f)
  | refused r =>
    rw [hrun] at hserved
    obtain ⟨u, hinput, hstop⟩ := runSteps_refused hrun
    obtain ⟨w, rest, hw, hreason⟩ := (theOnlyReasonsToStop u).2 r hstop
    obtain ⟨reason, hillegal, -⟩ | ⟨-, rfl, -⟩ | ⟨-, rfl, -⟩ | ⟨-, rfl, -⟩ := hreason
    · have hmem : Stimulus.request w ∈ u.input := hw ▸ List.mem_cons_self
      exact absurd hillegal (decode_ne_error_of_legal (hlegal _ (hinput hmem)) reason)
    · exact .inr rfl
    · exact absurd hserved (by decide)
    · exact absurd hserved (by decide)

end Sys2Proof.Machine
